-- ==== Sys2Proof/Word.lean ====
section
/-! DEFINITION. The word type of the block: every command field, Q12 value and index is 32 bits wide (00 R8, 20 R84). -/

namespace Sys2Proof

/-- A 32-bit word. Read as two's complement it is the spec's Int32 or a Q12 raw value (00 R18, R22), read as unsigned it is
a Word32 index or a word of flags. -/
abbrev Word := BitVec 32

/-- One byte of a serialised word (20 R82). -/
abbrev Byte := BitVec 8

end Sys2Proof
end

