-- ==== Sys2Proof/Syntax.lean ====
section
/-! DEFINITION. The requests the block executes: one constructor per row of the opcode table, the port each arrives at, and the
assembler's pseudo-instructions (30 R110 to R123). -/

namespace Sys2Proof

/-- The three formats, each with a port of its own (30 R110). -/
inductive Port where
  /-- `CMD`: the packets the producer pushes into the command channel. -/
  | cmd
  /-- `DPORT`: the requests of the display compositor. -/
  | dport
  /-- `Q12ALU`: the requests to the arithmetic unit. -/
  | q12alu
  deriving DecidableEq, Repr

/-- One row of the opcode table each, with the fields 30 R111, R113 and R114 give it. Words are taken whole (30 R115). -/
inductive Instr where
  /-- SETVIEWPORT vx0, vy0, vx1, vy1 (41 R200). -/
  | setViewport (vx0 vy0 vx1 vy1 : Word)
  /-- VERTEX x, y, z, w (41 R190). -/
  | vertex (x y z w : Word)
  /-- POLYGON i0, i1, i2, i3, attr (41 R202); bit 31 of the last word is the quad flag (30 R112). -/
  | polygon (i0 i1 i2 i3 attr : Word)
  /-- SWAPBUFFERS (44 R280). -/
  | swapBuffers
  /-- BEGINFRAME (45 R300). -/
  | beginFrame
  /-- NEXTLINE (45 R310). -/
  | nextLine
  /-- ENDFRAME (45 R320). -/
  | endFrame
  /-- QADD (40 R140). -/
  | qadd (a b : Word)
  /-- QSUB (40 R141). -/
  | qsub (a b : Word)
  /-- QMUL (40 R142). -/
  | qmul (a b : Word)
  /-- QDIV (40 R143). -/
  | qdiv (a b : Word)
  /-- QNEG (40 R144); the second operand word is carried and ignored (30 R114). -/
  | qneg (a b : Word)
  /-- QFROMI (40 R145); the second operand word is carried and ignored. -/
  | qfromi (a b : Word)
  /-- QTOI (40 R146); the second operand word is carried and ignored. -/
  | qtoi (a b : Word)
  /-- QADDI (40 R147). -/
  | qaddi (a b : Word)
  /-- QDIVI (40 R148). -/
  | qdivi (a b : Word)
  /-- QLT (40 R149). -/
  | qlt (a b : Word)
  deriving DecidableEq, Repr

/-- The port an instruction arrives at: its format in the opcode table (30 R110). -/
def Instr.port : Instr → Port
  | .setViewport .. => .cmd
  | .vertex .. => .cmd
  | .polygon .. => .cmd
  | .swapBuffers => .cmd
  | .beginFrame => .dport
  | .nextLine => .dport
  | .endFrame => .dport
  | .qadd .. => .q12alu
  | .qsub .. => .q12alu
  | .qmul .. => .q12alu
  | .qdiv .. => .q12alu
  | .qneg .. => .q12alu
  | .qfromi .. => .q12alu
  | .qtoi .. => .q12alu
  | .qaddi .. => .q12alu
  | .qdivi .. => .q12alu
  | .qlt .. => .q12alu

/-- The pseudo-instructions, each standing for exactly one POLYGON (30 R123). -/
inductive Pseudo where
  /-- `TRI i0, i1, i2`, or with a fourth operand for the last word. -/
  | tri (i0 i1 i2 : Word) (attr : Option Word)
  /-- `QUAD i0, i1, i2, i3`, or with a fifth operand for the last word. -/
  | quad (i0 i1 i2 i3 : Word) (attr : Option Word)
  deriving DecidableEq, Repr

end Sys2Proof
end

