-- ==== Sys2Proof/WellFormed.lean ====
section
/-! DEFINITION. When a term of the syntax can stand where it is used. Every word is a legal operand (10 R32, 30 R115), so the
checks are about the port an instruction is offered at and about the pseudo-instructions the assembler accepts. -/

namespace Sys2Proof

/-- An instruction is well-formed at a port when its format is that port's: the command channel holds commands only (41 R183),
the display port takes the three requests, the arithmetic unit its ten operations (30 R110). -/
def Instr.wellFormedAt (p : Port) (i : Instr) : Bool := i.port == p

/-- The assembler rejects a TRI whose last word has the quad flag set (30 R123). -/
def Pseudo.wellFormed : Pseudo → Bool
  | .tri _ _ _ (some attr) => !attr.getLsbD 31
  | .tri _ _ _ none => true
  | .quad .. => true

end Sys2Proof
end

