-- ==== Sys2Proof/Decode.lean ====
section
/-! DEFINITION. Decoding a port's words into an instruction, total and refusing by name, the encoder beside it, and the byte
form of both (30 R111 to R124, 20 R82). -/

namespace Sys2Proof

/-- Why a decoder refuses a word (30 R118 to R120). -/
inductive DecodeError where
  /-- `BAD_COMMAND`: a reserved tag, or header bits 31..4 not all zero (30 R118). -/
  | badCommand
  /-- `BAD_REQUEST`: display operation 0, or request bits 31..2 not all zero (30 R119). -/
  | badRequest
  /-- A selector word that is none of 0x0 to 0x9 (30 R120; no named verdict, 93 F8). -/
  | reservedSelector
  deriving DecidableEq, Repr

/-- What a decoder answers on a port's words. -/
inductive Decoded where
  /-- An instruction, and the words after it. -/
  | ok (i : Instr) (rest : List Word)
  /-- The words end before the instruction is complete: the decoder waits (30 R121). -/
  | incomplete
  /-- The first word spells nothing. -/
  | refused (e : DecodeError)
  deriving DecidableEq, Repr

/-- The command decoder: the header's tag fixes the command and its payload length (30 R111, R117, R118). -/
def decodeCommand : List Word → Decoded
  | [] => .incomplete
  | h :: ws =>
    if h.extractLsb' 4 28 ≠ 0 then .refused .badCommand
    else match (h.extractLsb' 0 4).toNat with
    | 1 => match ws with
      | a :: b :: c :: d :: rest => .ok (.setViewport a b c d) rest
      | _ => .incomplete
    | 2 => match ws with
      | a :: b :: c :: d :: rest => .ok (.vertex a b c d) rest
      | _ => .incomplete
    | 3 => match ws with
      | a :: b :: c :: d :: e :: rest => .ok (.polygon a b c d e) rest
      | _ => .incomplete
    | 4 => .ok .swapBuffers ws
    | _ => .refused .badCommand

/-- The display port's decoder: one word a request (30 R113, R119). -/
def decodeRequest : List Word → Decoded
  | [] => .incomplete
  | d :: rest =>
    if d.extractLsb' 2 30 ≠ 0 then .refused .badRequest
    else match (d.extractLsb' 0 2).toNat with
    | 1 => .ok .beginFrame rest
    | 2 => .ok .nextLine rest
    | 3 => .ok .endFrame rest
    | _ => .refused .badRequest

/-- The operation a selector names, applied to the two operand words (30 R114). -/
def unitInstr (op : Nat) (a b : Word) : Option Instr :=
  match op with
  | 0x0 => some (.qadd a b)
  | 0x1 => some (.qsub a b)
  | 0x2 => some (.qmul a b)
  | 0x3 => some (.qdiv a b)
  | 0x4 => some (.qneg a b)
  | 0x5 => some (.qfromi a b)
  | 0x6 => some (.qtoi a b)
  | 0x7 => some (.qaddi a b)
  | 0x8 => some (.qdivi a b)
  | 0x9 => some (.qlt a b)
  | _ => none

/-- The arithmetic unit's decoder: a selector word (the Word4 selector in its low bits, the others zero), then the two operand
words (30 R114, R120). The layout in words is the model's own. DESIGN CHOICE, safe (log 11). -/
def decodeUnit : List Word → Decoded
  | [] => .incomplete
  | op :: ws =>
    match unitInstr op.toNat 0 0 with
    | none => .refused .reservedSelector
    | some _ => match ws with
      | a :: b :: rest => match unitInstr op.toNat a b with
        | some i => .ok i rest
        | none => .refused .reservedSelector
      | _ => .incomplete

/-- The decoder of each port. -/
def decode : Port → List Word → Decoded
  | .cmd, ws => decodeCommand ws
  | .dport, ws => decodeRequest ws
  | .q12alu, ws => decodeUnit ws

/-- The words of an instruction, from the tables of 30 R111, R113 and R114. -/
def encode : Instr → List Word
  | .setViewport a b c d => [0x1#32, a, b, c, d]
  | .vertex x y z w => [0x2#32, x, y, z, w]
  | .polygon i0 i1 i2 i3 attr => [0x3#32, i0, i1, i2, i3, attr]
  | .swapBuffers => [0x4#32]
  | .beginFrame => [0x1#32]
  | .nextLine => [0x2#32]
  | .endFrame => [0x3#32]
  | .qadd a b => [0x0#32, a, b]
  | .qsub a b => [0x1#32, a, b]
  | .qmul a b => [0x2#32, a, b]
  | .qdiv a b => [0x3#32, a, b]
  | .qneg a b => [0x4#32, a, b]
  | .qfromi a b => [0x5#32, a, b]
  | .qtoi a b => [0x6#32, a, b]
  | .qaddi a b => [0x7#32, a, b]
  | .qdivi a b => [0x8#32, a, b]
  | .qlt a b => [0x9#32, a, b]

/-- A word's four bytes, least significant first (20 R82). -/
def bytesOfWord (w : Word) : List Byte :=
  [w.extractLsb' 0 8, w.extractLsb' 8 8, w.extractLsb' 16 8, w.extractLsb' 24 8]

/-- The word four bytes spell, least significant first (20 R82). -/
def wordOfBytes (b0 b1 b2 b3 : Byte) : Word := b3 ++ b2 ++ b1 ++ b0

/-- The words a byte stream spells; fewer than four bytes at its end spell no word yet (log 25). -/
def wordsOfBytes : List Byte → List Word
  | b0 :: b1 :: b2 :: b3 :: rest => wordOfBytes b0 b1 b2 b3 :: wordsOfBytes rest
  | _ => []

/-- The byte form of a list of words (20 R82). -/
def bytesOfWords (ws : List Word) : List Byte := ws.flatMap bytesOfWord

/-- The decoder on a port's bytes. -/
def decodeBytes (p : Port) (bs : List Byte) : Decoded := decode p (wordsOfBytes bs)

/-- The byte form of an instruction. -/
def encodeBytes (i : Instr) : List Byte := bytesOfWords (encode i)

/-- The first `n` bytes of a number, least significant first. -/
def bytesOfNat : Nat → Nat → List Byte
  | 0, _ => []
  | n + 1, w => BitVec.ofNat 8 w :: bytesOfNat n (w / 256)

/-- The port a row of `nbits` bits belongs to: the arithmetic unit's rows have four bits (one byte), the command and display
rows a word. DESIGN CHOICE (log 12): the three formats reach three ports, and a row of 32 bits is read at the COMMAND port, since
the words 1, 2 and 3 spell a command there and a request at the display port, and nothing but the port tells them apart. -/
def portOfWidth (nbits : Nat) : Port := if nbits < 32 then .q12alu else .cmd

/-- The bytes of a row's word, with zeros up to the longest instruction of its port (a six-word POLYGON, a three-word request). -/
def tableBytes (nbits w : Nat) : List Byte :=
  match portOfWidth nbits with
  | .q12alu => bytesOfNat 12 (w % 2 ^ nbits)
  | .cmd => bytesOfNat 24 (w % 2 ^ max nbits 32)
  | .dport => bytesOfNat 4 (w % 2 ^ max nbits 32)

/-- What the decoder reads from an opcode-table row's word, bits numbered as the table numbers them (log 12). -/
def decodeTableWord (nbits w : Nat) : Option Instr :=
  match decodeBytes (portOfWidth nbits) (tableBytes nbits w) with
  | .ok i _ => some i
  | .incomplete => none
  | .refused _ => none

/-- The one POLYGON a pseudo-instruction stands for; the assembler rejects a TRI with the quad flag set (30 R123). -/
def Pseudo.expand (p : Pseudo) : Option Instr :=
  if p.wellFormed then
    some (match p with
      | .tri i0 i1 i2 attr => .polygon i0 i1 i2 0 (attr.getD 0)
      | .quad i0 i1 i2 i3 attr => .polygon i0 i1 i2 i3 ((attr.getD 0) ||| 0x80000000#32))
  else none

end Sys2Proof
end

