-- ==== Sys2Proof/Config.lean ====
section
/-! DEFINITION. What is fixed for the machine: the capacities and the display geometry the spec states, the parameters it
leaves open (opaque constants: no proof can see their value) and the record of parameters that have a default (00 R9 to R17). -/

namespace Sys2Proof

/-- The viewport register's four Int32 fields (10 R32). -/
structure Viewport where
  vx0 : Word
  vy0 : Word
  vx1 : Word
  vy1 : Word
  deriving DecidableEq, Repr, Inhabited

/-- A slot position of a triangle: the index 0, 1 or 2 of `p.vi` (10 R37). -/
inductive Pos where
  | p0
  | p1
  | p2
  deriving DecidableEq, Repr

/-- Who may have the next turn: the three agents of 60 R350, and `unit`, a request put to the arithmetic unit alone (log 11). -/
inductive Turn where
  | producer
  | consumer
  | display
  | unit
  deriving DecidableEq, Repr, Inhabited

namespace Config

/-- Vertices a frame slot holds (00 R9). -/
def vcap : Nat := 4096

/-- Polygons a frame slot holds (00 R9). -/
def pcap : Nat := 4096

/-- Pixels of a display line (00 R10). -/
def dispW : Nat := 256

/-- Lines of a frame (00 R10). -/
def dispH : Nat := 192

/-- The free part of the channel's capacity: CHAN_CAP is open but at least 1 (00 R11). Log 5. -/
opaque chanCapLessOne : Nat

/-- CHAN_CAP, the open capacity of the command channel (00 R11). DESIGN CHOICE, safe (log 5). -/
def chanCap : Nat := chanCapLessOne + 1

/-- PIXEL_VALUE, the open colour-plus-attribute function of a polygon's attribute word (00 R12). DESIGN CHOICE, safe (log 7). -/
opaque pixelValue : Word → Word

/-- VIEWPORT_RESET, the open viewport in effect before the first SETVIEWPORT (00 R13). DESIGN CHOICE, safe (log 6). -/
opaque viewportReset : Viewport

/-- The free schedule: whose turn it is once the turns listed in the state are used up (60 R350, 93 P8).
DESIGN CHOICE, safe (log 1). -/
opaque schedule : Nat → Turn

/-- The read-only debug configuration snapshot handed to the rasterizer; no rule reads it (60 R360).
DESIGN CHOICE, safe (log 8). -/
opaque debugSnapshot : List Word

end Config

/-- The parameters a claim should quantify over (00 R11, R14 to R16). The machine carries one such record and no step writes it
(10 R49: parameters, not state). DESIGN CHOICE, safe (log 4). -/
structure Params where
  /-- CHAN_CAP (00 R11). -/
  chanCap : Nat
  /-- ZCLIP (00 R14). -/
  zclip : Bool
  /-- SORT_NET (00 R15). -/
  sortNet : List (Pos × Pos)
  /-- REINIT_BOUNDS (00 R16). -/
  reinitBounds : Bool
  deriving DecidableEq, Repr

/-- The default order of the three compare-and-swap steps (00 R15). -/
def Config.sortNetDefault : List (Pos × Pos) := [(.p0, .p1), (.p0, .p2), (.p1, .p2)]

/-- The parameters' defaults, CHAN_CAP left open. -/
def Config.defaults : Params :=
  { chanCap := Config.chanCap, zclip := false, sortNet := Config.sortNetDefault, reinitBounds := false }

end Sys2Proof
end

