-- ==== Sys2Proof/Machine/State.lean ====
section
/-! DEFINITION. The machine's state as plain data: everything 10_state.md gives the block, the record of parameters, and the
model's own input and output fields; the reasons a step can stop; the state after reset (70 R380). -/

namespace Sys2Proof.Machine

/-- One of the two physical frame slots `S[0]` and `S[1]` (10 R40). -/
inductive SlotId where
  | zero
  | one
  deriving DecidableEq, Repr

/-- The lock that guards the identity of "current" (10 R46). -/
inductive Lock where
  | free
  | consumer
  | display
  deriving DecidableEq, Repr

/-- The consumer's phase (10 R47). -/
inductive CPhase where
  | idle
  | swapWait
  deriving DecidableEq, Repr

/-- The display pass (10 R48): whether one is active, and the next line its cursor yields. -/
structure DPass where
  active : Bool
  line : Nat
  deriving DecidableEq, Repr

/-- The screen coordinates the transform writes (10 R36). -/
structure Screen where
  sx : Word
  sy : Word
  sz : Word
  deriving DecidableEq, Repr

/-- A vertex record (10 R36). The flags are L R T B N F in bits 0 to 5 and the transformed bit X in bit 6. The screen
coordinates hold no value until the transform writes them (log 14). -/
structure Vertex where
  cx : Word
  cy : Word
  cz : Word
  cw : Word
  flags : BitVec 7
  screen : Option Screen
  deriving DecidableEq, Repr

/-- The values SETUP gives a polygon (10 R37, 43 R258). -/
structure Setup where
  hy : Word
  dl0 : Word
  dl1 : Word
  dr0 : Word
  dr1 : Word
  cx0 : Word
  cx1 : Word
  cx0Init : Word
  cx1Init : Word
  deriving DecidableEq, Repr

/-- Three values, one for each slot position of a triangle. -/
structure Triple (α : Type) where
  v0 : α
  v1 : α
  v2 : α
  deriving DecidableEq, Repr

/-- A polygon record (10 R37). The setup fields hold no value until SETUP writes them (log 14). -/
structure Polygon where
  vi : Triple Word
  attr : Word
  setup : Option Setup
  deriving DecidableEq, Repr

/-- A frame slot: its vertex array and its polygon array, each the list of its `len` elements (10 R40, log 15). -/
structure Slot where
  verts : List Vertex
  polys : List Polygon
  deriving DecidableEq, Repr

/-- The two physical frame slots (10 R40). -/
structure Memory where
  slot0 : Slot
  slot1 : Slot
  deriving DecidableEq, Repr

/-- The fatal fault codes (60 R340). -/
inductive FaultCode where
  | vertexOverflow
  | polyIndexRange
  | sortOrder
  | polyOverflow
  | divZero
  deriving DecidableEq, Repr

/-- What `raise Fatal(code, info)` names (00 R21): the code and the values the raising rule records (log 23). -/
structure Fatal where
  code : FaultCode
  info : List Int
  deriving DecidableEq, Repr

/-- A fault record `(code, seq, cmd, info)` (10 R38). -/
structure FaultRecord where
  code : FaultCode
  seq : Nat
  cmd : Instr
  info : List Int
  deriving DecidableEq, Repr

/-- A refusal the block has made: what the refusal mark records (60 R343, log 9). -/
inductive Verdict where
  /-- The command decoder refused the header word at this position of the stream (30 R118). -/
  | badCommand (position : Nat)
  /-- The display port's decoder refused a word (30 R119). -/
  | badRequest
  /-- A BEGINFRAME inside a pass (45 R300). -/
  | nestedBegin
  /-- A NEXTLINE or ENDFRAME outside a pass (45 R310, R320). -/
  | notInPass
  deriving DecidableEq, Repr

/-- One pixel-write event: column `x` of line `y` receives the value `v` (00 R20). -/
structure PixelWrite where
  y : Nat
  x : Nat
  v : Word
  deriving DecidableEq, Repr

/-- What a step hands out: nothing, an arithmetic result (30 R114), or NEXTLINE's answer (30 R113). -/
inductive Output where
  | none
  /-- The result `r` of an arithmetic request. -/
  | result (r : Word)
  /-- The line index and the pixel-write events of that line. -/
  | line (y : Nat) (events : List PixelWrite)
  /-- `END`: the cursor is past the last line. -/
  | endOfPass
  deriving DecidableEq, Repr

/-- The outside of the block as the model holds it: what the external agents still have to offer, whose turns come next, and
what the block has handed out. These fields are the model's own (log 1, 2, 3, 11). The streams of words are finite lists fixed at a
run's start: how much the external agents offer in a run is open (60 R350), and a run without end outlasts any of them.
DESIGN CHOICE, unsafe for a claim about runs without end (log 28). -/
structure Ports where
  /-- The words of the producer's command stream not taken yet. -/
  cmdIn : List Word
  /-- How many command words have been taken: the position of the first word of `cmdIn`. -/
  cmdPos : Nat
  /-- The display's requests not served yet. -/
  dispIn : List Word
  /-- The words of the arithmetic unit's requests not taken yet. -/
  unitIn : List Word
  /-- Whose turns come next, the first first. -/
  sched : List Turn
  /-- The steps taken: the argument of the free schedule. -/
  tick : Nat
  /-- What the last step handed out. -/
  out : Output
  /-- The pixel-write events emitted since reset, oldest first. -/
  pixels : List PixelWrite
  deriving DecidableEq, Repr

/-- The machine's state. -/
structure State where
  /-- The parameters, which no step writes (10 R49, log 4). -/
  params : Params
  /-- The number of commands completed (10 R31). -/
  seq : Nat
  /-- The viewport register (10 R32). -/
  vp : Viewport
  /-- The frame counter (10 R33). -/
  fc : Word
  /-- Which slot is "next" (10 R34). -/
  nextSlot : SlotId
  /-- Which slot is "current" (10 R34). -/
  curSlot : SlotId
  /-- The fault register (10 R35). -/
  fault : Option FaultRecord
  /-- The frame storage (10 R40). -/
  mem : Memory
  /-- The bucket array: one list of polygon indices a display line; no value before the first BEGINFRAME (10 R44). -/
  bk : Option (List (List Nat))
  /-- The command channel, head first (10 R45, log 18). -/
  chan : List Instr
  /-- The shared lock (10 R46). -/
  lock : Lock
  /-- The consumer's phase (10 R47). -/
  cphase : CPhase
  /-- The display pass (10 R48). -/
  dpass : DPass
  /-- The refusal mark: the refusals made so far, clear when empty (60 R343, log 9). -/
  refusals : List Verdict
  /-- The model's own input and output fields. -/
  io : Ports
  deriving DecidableEq, Repr

/-- Why the machine stops. -/
inductive Fault where
  /-- A step of a block whose fault register is set: no agent has a step (60 R341). Raised by step and by every meaning. Safe. -/
  | halted
  /-- A read of an array element at or above the array's length (93 F11). Raised by the reads of vertices and polygons. Safe:
  no rule makes such a read. -/
  | noElement
  /-- A read of a vertex's screen coordinates while its transformed bit is clear (93 F11). Raised by SETUP and the bucket build.
  Safe: no rule makes such a read. -/
  | noScreen
  /-- A read of a polygon's setup fields before SETUP (93 F11). Raised by BEGINFRAME and NEXTLINE. Safe: no rule makes such a read. -/
  | noSetup
  /-- A read of a bucket before the first BEGINFRAME, or of a line that has none (93 F11). Raised by NEXTLINE. Safe: no rule makes
  such a read. -/
  | noBucket
  /-- A channel whose head is no command (41 R183: none exists). Raised by the consumer's pop. Safe: the decoder lets none in. -/
  | foreignCommand
  deriving DecidableEq, Repr

/-- Why an instruction has no meaning. -/
inductive Refusal where
  /-- An arm of exec with no meaning yet. Raised by none now. Safe. -/
  | notModelled (mnemonic : String)
  /-- A request with a selector that is none of the ten (30 R120, 93 F8: refused with no named verdict). Raised by the
  arithmetic unit's turn. Safe. -/
  | reservedSelector
  deriving DecidableEq, Repr

/-- An empty frame slot: both lengths 0 (10 R40). -/
def Slot.empty : Slot := { verts := [], polys := [] }

/-- Ports at which nothing has been offered and nothing handed out. DESIGN CHOICE (log 1, 2, 3, 11): the spec gives the outside
no reset value. -/
def Ports.quiet : Ports :=
  { cmdIn := [], cmdPos := 0, dispIn := [], unitIn := [], sched := [], tick := 0, out := .none, pixels := [] }

/-- The state right after reset (70 R380). -/
def State.reset : State :=
  { params := Config.defaults
    seq := 0
    vp := Config.viewportReset
    fc := 0
    nextSlot := .zero
    curSlot := .one
    fault := none
    mem := { slot0 := Slot.empty, slot1 := Slot.empty }
    bk := none
    chan := []
    lock := .free
    cphase := .idle
    dpass := { active := false, line := 0 }
    refusals := []
    io := Ports.quiet }

end Sys2Proof.Machine
end

