-- ==== Sys2Proof/Machine/Q12.lean ====
section
/-! DEFINITION. The Q12 fixed-point arithmetic: each operation computes its exact integer result, rounds as its rule says and
keeps the low 32 bits (40 R139 to R151). These are the operations the block's own rules use; Arith.lean gives the requests. -/

namespace Sys2Proof.Machine

/-- The low 32 bits of an exact result, as two's complement (00 R18, 40 R150). -/
def wrap32 (n : Int) : Word := BitVec.ofInt 32 n

/-- `2^12`: the raw value of one (00 R7). -/
def q12One : Int := 4096

/-- The floor of an exact value divided by `2^12`, the arithmetic right shift by 12 (00 R18). -/
def shiftDown12 (n : Int) : Int := n / q12One

/-- QADD (40 R140). -/
def q12Add (a b : Word) : Word := wrap32 (a.toInt + b.toInt)

/-- QSUB (40 R141). -/
def q12Sub (a b : Word) : Word := wrap32 (a.toInt - b.toInt)

/-- QMUL: the exact product shifted down, rounding toward minus infinity (40 R142). -/
def q12Mul (a b : Word) : Word := wrap32 (shiftDown12 (a.toInt * b.toInt))

/-- The quotient of QDIV for a divisor that is not zero, rounding toward zero (40 R143). -/
def q12Quot (a b : Word) : Word := wrap32 (Int.tdiv (a.toInt * q12One) b.toInt)

/-- QNEG (40 R144). -/
def q12Neg (a : Word) : Word := wrap32 (0 - a.toInt)

/-- QFROMI: an integer as a Q12 value (40 R145). -/
def q12FromI (a : Word) : Word := wrap32 (a.toInt * q12One)

/-- QTOI: the floor of a Q12 value (40 R146). -/
def q12ToI (a : Word) : Word := wrap32 (shiftDown12 a.toInt)

/-- QADDI (40 R147). -/
def q12AddI (a b : Word) : Word := wrap32 (a.toInt + (wrap32 (b.toInt * q12One)).toInt)

/-- The quotient of QDIVI for a divisor that is not zero, rounding toward zero (40 R148). -/
def q12QuotI (a b : Word) : Word := wrap32 (Int.tdiv a.toInt b.toInt)

/-- Signed less-than on the raw values (40 R149). -/
def q12Less (a b : Word) : Bool := decide (a.toInt < b.toInt)

/-- QLT: 1 or 0 (40 R149). -/
def q12Lt (a b : Word) : Word := if q12Less a b then 1 else 0

/-- What can cut a computation short: a fatal fault of the block, or a read the rules never make (93 F11). -/
inductive Stop where
  | fatal (f : Fatal)
  | model (r : Fault)
  deriving DecidableEq, Repr

/-- The fatal fault of a division by zero records the dividend (40 R143, R148). -/
def divZero (a : Word) : Stop := .fatal { code := .divZero, info := [a.toInt] }

/-- QDIV (40 R143). -/
def q12Div (a b : Word) : Except Stop Word := if b = 0 then .error (divZero a) else .ok (q12Quot a b)

/-- QDIVI (40 R148). -/
def q12DivI (a b : Word) : Except Stop Word := if b = 0 then .error (divZero a) else .ok (q12QuotI a b)

end Sys2Proof.Machine
end

