-- ==== Sys2Proof/Machine/Flags.lean ====
section
/-! DEFINITION. The flags of a vertex record: the six clip flags VERTEX computes and the transformed bit (10 R36, 41 R191, R192). -/

namespace Sys2Proof.Machine

/-- The six clip flags of a clip-space position, L in bit 0 to F in bit 5 (41 R191); a zero `w` sets all six (41 R192). -/
def clipFlags (zclip : Bool) (x y z w : Word) : BitVec 6 :=
  if w = 0 then 0b111111#6
  else
    let nw := q12Neg w
    let l := q12Less x nw
    let r := q12Less w x
    let t := q12Less y nw
    let b := q12Less w y
    let n := zclip && q12Less z nw
    let f := zclip && q12Less w z
    BitVec.ofBool f ++ BitVec.ofBool n ++ BitVec.ofBool b ++ BitVec.ofBool t ++ BitVec.ofBool r ++ BitVec.ofBool l

/-- The clip flags of a record, `flags[5:0]` (10 R36). -/
def Vertex.clipBits (e : Vertex) : BitVec 6 := e.flags.extractLsb' 0 6

/-- Any clip flag set (10 R36, 41 R204). -/
def Vertex.clipped (e : Vertex) : Bool := e.clipBits != 0

/-- The transformed bit, `flags[6]` (10 R36). -/
def Vertex.transformed (e : Vertex) : Bool := e.flags.getLsbD 6

/-- The flags with the transformed bit set, the clip flags unchanged (42 R230). -/
def setTransformed (flags : BitVec 7) : BitVec 7 := flags ||| 0x40#7

/-- The record VERTEX appends: classified, not transformed, with no screen coordinates (41 R190). -/
def newVertex (zclip : Bool) (x y z w : Word) : Vertex :=
  { cx := x, cy := y, cz := z, cw := w, flags := (clipFlags zclip x y z w).zeroExtend 7, screen := none }

end Sys2Proof.Machine
end

