-- ==== Sys2Proof/Machine/Operands.lean ====
section
/-! DEFINITION. The operand forms: how a command's words are read (30 R112, R115), which indices a POLYGON names and which
triangles it stores (41 R202, R207), and the three slot positions of a triangle (43 R251). -/

namespace Sys2Proof.Machine

/-- A Word32 index: the word read as an unsigned number, not truncated (30 R115). -/
def indexOf (w : Word) : Nat := w.toNat

/-- The quad flag, bit 31 of a POLYGON's last word (30 R112). -/
def quadFlag (attr : Word) : Bool := attr.getLsbD 31

/-- The index words a POLYGON names: four with the quad flag, else three (41 R202). -/
def polyIndices (i0 i1 i2 i3 attr : Word) : List Word :=
  if quadFlag attr then [i0, i1, i2, i3] else [i0, i1, i2]

/-- The triangles a POLYGON stores: a quad is split into two that share the edge from `i0` to `i2` (41 R207). -/
def polyTriangles (i0 i1 i2 i3 attr : Word) : List (Triple Word) :=
  if quadFlag attr then [⟨i0, i1, i2⟩, ⟨i0, i3, i2⟩] else [⟨i0, i1, i2⟩]

/-- The value at a slot position. -/
def Triple.get {α : Type} (t : Triple α) : Pos → α
  | .p0 => t.v0
  | .p1 => t.v1
  | .p2 => t.v2

/-- A triple with the value at a slot position replaced. -/
def Triple.set {α : Type} (t : Triple α) : Pos → α → Triple α
  | .p0, a => { t with v0 := a }
  | .p1, a => { t with v1 := a }
  | .p2, a => { t with v2 := a }

/-- The slot that is not this one. -/
def SlotId.other : SlotId → SlotId
  | .zero => .one
  | .one => .zero

/-- The slot whose number is a parity bit (10 R33, R34). -/
def SlotId.ofBit : Bool → SlotId
  | false => .zero
  | true => .one

/-- The slot whose parity matches a frame counter (44 R282). -/
def slotOfCounter (fc : Word) : SlotId := SlotId.ofBit (fc.getLsbD 0)

/-- The number of a fault code (60 R340). -/
def FaultCode.number : FaultCode → Nat
  | .vertexOverflow => 1
  | .polyIndexRange => 2
  | .sortOrder => 3
  | .polyOverflow => 4
  | .divZero => 5

end Sys2Proof.Machine
end

