-- ==== Sys2Proof/Machine/Ops.lean ====
section
/-! DEFINITION. The named operations over the state: the frame slots and their arrays, completing a command, raising a fatal
fault (the block's one exception entry, 60 R341; there is no return from it, 60 R342), refusing, answering, taking a turn. -/

namespace Sys2Proof.Machine

/-- Every array is within its capacity (10 R40). The arrays are lists of their own length, so this is all of the memory's
canonical form (log 15). -/
def Slot.wf (f : Slot) : Bool := f.verts.length ≤ Config.vcap && f.polys.length ≤ Config.pcap

/-- The memory's canonical form: both slots within their capacities (10 R40). -/
def Memory.wf (m : Memory) : Bool := m.slot0.wf && m.slot1.wf

/-- A slot by its number (10 R40). -/
def Memory.slot (m : Memory) : SlotId → Slot
  | .zero => m.slot0
  | .one => m.slot1

/-- The memory with one slot replaced. -/
def Memory.setSlot (m : Memory) : SlotId → Slot → Memory
  | .zero, f => { m with slot0 := f }
  | .one, f => { m with slot1 := f }

/-- The "next" frame, `S[next_slot]` (10 R41). -/
def State.nextFrame (s : State) : Slot := s.mem.slot s.nextSlot

/-- The "current" frame, `S[cur_slot]` (10 R42). -/
def State.curFrame (s : State) : Slot := s.mem.slot s.curSlot

/-- The state with the "next" frame replaced (10 R41). -/
def State.setNextFrame (s : State) (f : Slot) : State := { s with mem := s.mem.setSlot s.nextSlot f }

/-- The state with the "current" frame replaced (10 R42). -/
def State.setCurFrame (s : State) (f : Slot) : State := { s with mem := s.mem.setSlot s.curSlot f }

/-- A command completes: one more command is counted (41 R182). -/
def State.complete (s : State) : State := { s with seq := s.seq + 1 }

/-- Raising a fatal fault: the fault register takes the code, the commands completed before, the command being executed and the
values the rule records; nothing else changes (60 R341, 10 R38). -/
def State.raise (s : State) (cmd : Instr) (f : Fatal) : State :=
  { s with fault := some { code := f.code, seq := s.seq, cmd := cmd, info := f.info } }

/-- A refusal sets the refusal mark and does nothing else (60 R343). DESIGN CHOICE, safe (log 9). -/
def State.refuse (s : State) (v : Verdict) : State := { s with refusals := s.refusals ++ [v] }

/-- The state with a step's output put out (30 R113, R114; log 3). -/
def State.answer (s : State) (o : Output) : State := { s with io := { s.io with out := o } }

/-- The state with pixel-write events handed to the compositor, in order (00 R20; log 3). -/
def State.emit (s : State) (es : List PixelWrite) : State := { s with io := { s.io with pixels := s.io.pixels ++ es } }

/-- Whose turn it is: the first listed, else the free schedule's choice (60 R350, 93 P8; log 1). -/
def State.turn (s : State) : Turn :=
  match s.io.sched with
  | t :: _ => t
  | [] => Config.schedule s.io.tick

/-- A step begins: one turn is used up, one step counted, and the outputs of the step before are gone (log 1, 3). -/
def State.beginStep (s : State) : State :=
  { s with io := { s.io with sched := s.io.sched.tail, tick := s.io.tick + 1, out := .none } }

/-- What every meaning does first: in a block whose fault register is set no agent has a step (60 R341; log 13). -/
def live (s : State) (k : Host.Outcome State Fault Refusal) : Host.Outcome State Fault Refusal :=
  if s.fault.isSome then .fault .halted else k

/-- How a computation that may be cut short ends: a fatal fault is raised for the command, over the writes already made
(60 R341); a read the rules never make is a fault of the model (93 F11); else the rule goes on. -/
def finish (cmd : Instr) (s : State) (stop : Option Stop) (k : Host.Outcome State Fault Refusal) :
    Host.Outcome State Fault Refusal :=
  match stop with
  | some (.fatal f) => .next (s.raise cmd f)
  | some (.model r) => .fault r
  | none => k

/-- A BEGINFRAME that has to wait: no pass is active and the lock is not free (45 R300). -/
def State.beginHolds (s : State) : Bool := !s.dpass.active && s.lock != .free

end Sys2Proof.Machine
end

