-- ==== Sys2Proof/Machine/Arith.lean ====
section
/-! DEFINITION. The meanings of the ten requests to the arithmetic unit: the result is put on the unit's output and nothing else
changes, since the unit holds no state (10 R30, 40 R139 to R151). -/

namespace Sys2Proof.Machine

/-- A request that always has a result (40 R139, R151). -/
def unitResult (r : Word) (s : State) : Host.Outcome State Fault Refusal := live s (.next (s.answer (.result r)))

/-- A division request: its result, or the fatal fault of a zero divisor. The record names the request itself as the command
(40 R151; DESIGN CHOICE, safe, log 11). -/
def unitDivide (cmd : Instr) (r : Except Stop Word) (s : State) : Host.Outcome State Fault Refusal :=
  live s <|
    match r with
    | .ok q => .next (s.answer (.result q))
    | .error st => finish cmd s (some st) (.next s)

/-- QADD (40 R140). -/
def execQadd (a b : Word) (s : State) : Host.Outcome State Fault Refusal := unitResult (q12Add a b) s

/-- QSUB (40 R141). -/
def execQsub (a b : Word) (s : State) : Host.Outcome State Fault Refusal := unitResult (q12Sub a b) s

/-- QMUL (40 R142). -/
def execQmul (a b : Word) (s : State) : Host.Outcome State Fault Refusal := unitResult (q12Mul a b) s

/-- QDIV (40 R143). -/
def execQdiv (a b : Word) (s : State) : Host.Outcome State Fault Refusal := unitDivide (.qdiv a b) (q12Div a b) s

/-- QNEG; the second operand is ignored (40 R144, 30 R114). -/
def execQneg (a : Word) (s : State) : Host.Outcome State Fault Refusal := unitResult (q12Neg a) s

/-- QFROMI; the second operand is ignored (40 R145, 30 R114). -/
def execQfromi (a : Word) (s : State) : Host.Outcome State Fault Refusal := unitResult (q12FromI a) s

/-- QTOI; the second operand is ignored (40 R146, 30 R114). -/
def execQtoi (a : Word) (s : State) : Host.Outcome State Fault Refusal := unitResult (q12ToI a) s

/-- QADDI (40 R147). -/
def execQaddi (a b : Word) (s : State) : Host.Outcome State Fault Refusal := unitResult (q12AddI a b) s

/-- QDIVI (40 R148). -/
def execQdivi (a b : Word) (s : State) : Host.Outcome State Fault Refusal := unitDivide (.qdivi a b) (q12DivI a b) s

/-- QLT (40 R149). -/
def execQlt (a b : Word) (s : State) : Host.Outcome State Fault Refusal := unitResult (q12Lt a b) s

end Sys2Proof.Machine
end

