-- ==== Sys2Proof/Machine/Setup.lean ====
section
/-! DEFINITION. Polygon setup and the triangle sorter (43 R250 to R259). -/

namespace Sys2Proof.Machine

/-- One compare-and-swap: the values at two slot positions change places when the first is greater (43 R251). -/
def compareSwap {α : Type} (gt : α → α → Bool) (t : Triple α) (ab : Pos × Pos) : Triple α :=
  if gt (t.get ab.1) (t.get ab.2) then (t.set ab.1 (t.get ab.2)).set ab.2 (t.get ab.1) else t

/-- The compare-and-swaps of a network, in order (43 R251). -/
def sortTriple {α : Type} (gt : α → α → Bool) (net : List (Pos × Pos)) (t : Triple α) : Triple α :=
  net.foldl (compareSwap gt) t

/-- A vertex reference with the screen position it names. -/
structure Corner where
  idx : Word
  x : Word
  y : Word
  deriving DecidableEq, Repr

/-- The screen position a vertex index names. A read at or above the array's length, or before the transform, is a fault of the
model (93 F11). -/
def cornerAt (vs : List Vertex) (i : Word) : Except Fault Corner :=
  match vs[indexOf i]? with
  | none => .error .noElement
  | some e =>
    match e.screen with
    | none => .error .noScreen
    | some p => .ok { idx := i, x := p.sx, y := p.sy }

/-- The three corners of a triangle, in slot order. -/
def cornersOf (vs : List Vertex) (vi : Triple Word) : Except Fault (Triple Corner) := do
  let a ← cornerAt vs vi.v0
  let b ← cornerAt vs vi.v1
  let c ← cornerAt vs vi.v2
  return { v0 := a, v1 := b, v2 := c }

/-- The order the sorter sorts by: strictly greater screen Y, so that equal ones are never swapped (43 R251). -/
def lowerOnScreen (a b : Corner) : Bool := decide (a.y.toInt > b.y.toInt)

/-- The Int32 difference of two screen coordinates (43 R252, R253). DEDUCED: out of range it wraps, as 40 R150 has results wrap;
no vertex of a run reaches that (log 19). -/
def screenDelta (a b : Word) : Word := wrap32 (a.toInt - b.toInt)

/-- The slope of an edge: the screen-x difference over a positive height, else the raw delta (43 R253, R254). A height that is
not zero is never refused by the division. -/
def edgeSlope (d h : Word) : Word := if h.toInt > 0 then q12QuotI (q12FromI d) h else q12FromI d

/-- The four slopes, before or after the pair swap. -/
structure Slopes where
  l0 : Word
  l1 : Word
  r0 : Word
  r1 : Word
  deriving DecidableEq, Repr

/-- The slopes of three sorted corners (43 R253, R254). -/
def edgeSlopes (t : Triple Corner) (hy1 hy2 : Word) : Slopes :=
  let long := edgeSlope (screenDelta t.v2.x t.v0.x) (wrap32 (hy1.toInt + hy2.toInt))
  { l0 := edgeSlope (screenDelta t.v1.x t.v0.x) hy1
    l1 := edgeSlope (screenDelta t.v2.x t.v1.x) hy2
    r0 := long
    r1 := long }

/-- The pair swap: when the first left slope exceeds the first right slope, the pairs change places (43 R255). -/
def pairSwap (k : Slopes) : Slopes :=
  if q12Less k.r0 k.l0 then { l0 := k.r0, l1 := k.r1, r0 := k.l0, r1 := k.l1 } else k

/-- The setup fields of three sorted corners (43 R250, R256 to R258): the bounds start at the top vertex, and a zero-height top
segment's step is taken at once. -/
def setupFields (t : Triple Corner) (hy1 hy2 : Word) : Setup :=
  let k := pairSwap (edgeSlopes t hy1 hy2)
  let c := q12FromI t.v0.x
  let c0 := if hy1 = 0 then q12Add c k.l0 else c
  let c1 := if hy1 = 0 then q12Add c k.r0 else c
  { hy := t.v1.y, dl0 := k.l0, dl1 := k.l1, dr0 := k.r0, dr1 := k.r1, cx0 := c0, cx1 := c1, cx0Init := c0, cx1Init := c1 }

/-- What SORT_ORDER records: the three sorted indices and their screen Ys (60 R340). -/
def sortOrder (t : Triple Corner) : Stop :=
  .fatal { code := .sortOrder
           info := [(indexOf t.v0.idx : Int), indexOf t.v1.idx, indexOf t.v2.idx,
                    t.v0.y.toInt, t.v1.y.toInt, t.v2.y.toInt] }

/-- SETUP of one polygon against its frame's vertices (43 R250). A SORT_ORDER leaves the sorted references written
(60 R341; DEDUCED, log 20). -/
def setupPolygon (net : List (Pos × Pos)) (vs : List Vertex) (p : Polygon) : Polygon × Option Stop :=
  match cornersOf vs p.vi with
  | .error r => (p, some (.model r))
  | .ok c =>
    let t := sortTriple lowerOnScreen net c
    let p' := { p with vi := { v0 := t.v0.idx, v1 := t.v1.idx, v2 := t.v2.idx } }
    let hy1 := screenDelta t.v1.y t.v0.y
    let hy2 := screenDelta t.v2.y t.v1.y
    if hy1.toInt < 0 ∨ hy2.toInt < 0 then (p', some (sortOrder t))
    else ({ p' with setup := some (setupFields t hy1 hy2) }, none)

/-- SETUP of every polygon in index order (44 R280); polygons set up before a stop stay so (60 R341). -/
def setupAll (net : List (Pos × Pos)) (vs : List Vertex) : List Polygon → List Polygon × Option Stop
  | [] => ([], none)
  | p :: ps =>
    match setupPolygon net vs p with
    | (p', some st) => (p' :: ps, some st)
    | (p', none) =>
      match setupAll net vs ps with
      | (ps', st) => (p' :: ps', st)

/-- A triple of truth values in rising order. -/
def risingBools (t : Triple Bool) : Bool := (!t.v0 || t.v1) && (!t.v1 || t.v2)

/-- Every triple of truth values. -/
def allBoolTriples : List (Triple Bool) :=
  [⟨false, false, false⟩, ⟨false, false, true⟩, ⟨false, true, false⟩, ⟨false, true, true⟩,
   ⟨true, false, false⟩, ⟨true, false, true⟩, ⟨true, true, false⟩, ⟨true, true, true⟩]

/-- SORT_NET is three compare-and-swaps that sort every input (43 R251). A network of compare-and-swaps sorts every input when it
sorts every input of truth values, which is what this checks. -/
def sortNetWf (net : List (Pos × Pos)) : Bool :=
  net.length == 3 && allBoolTriples.all fun t => risingBools (sortTriple (fun a b => a && !b) net t)

/-- The parameters are ones the spec admits: CHAN_CAP at least 1 (00 R11), a SORT_NET that sorts (43 R251). -/
def paramsWf (p : Params) : Bool := decide (1 ≤ p.chanCap) && sortNetWf p.sortNet

end Sys2Proof.Machine
end

