-- ==== Sys2Proof/Machine/Transform.lean ====
section
/-! DEFINITION. The vertex transform projector (42 R230 to R237): clip space to screen space with the active viewport. -/

namespace Sys2Proof.Machine

/-- The viewport's width, both corners inside (42 R231). -/
def viewportWidth (vp : Viewport) : Word := wrap32 (vp.vx1.toInt - vp.vx0.toInt + 1)

/-- The viewport's height, both corners inside (42 R231). -/
def viewportHeight (vp : Viewport) : Word := wrap32 (vp.vy1.toInt - vp.vy0.toInt + 1)

/-- Half of an integer extent, then divided by `cw`: the two steps stay apart and in this order (42 R232). -/
def halfOver (extent cw : Word) : Except Stop Word := do
  let half ← q12DivI (q12FromI extent) 2#32
  q12Div half cw

/-- One screen coordinate: `(c + cw) * d + origin`, truncated to an integer (42 R230). -/
def project (c cw d origin : Word) : Word := q12ToI (q12AddI (q12Mul (q12Add c cw) d) origin)

/-- The depth coordinate: `(cz + cw) / 2 / cw`, truncated to an integer (42 R230, R234). -/
def projectDepth (cz cw : Word) : Except Stop Word := do
  let half ← q12DivI (q12Add cz cw) 2#32
  let q ← q12Div half cw
  return q12ToI q

/-- TRANSFORM: a vertex already transformed is left alone; else its screen coordinates are computed in the rule's order and the
transformed bit is set (42 R230, R232, R237). -/
def transformVertex (vp : Viewport) (e : Vertex) : Except Stop Vertex :=
  if e.transformed then .ok e
  else do
    let dx ← halfOver (viewportWidth vp) e.cw
    let dy ← halfOver (viewportHeight vp) e.cw
    let sz ← projectDepth e.cz e.cw
    let sx := project e.cx e.cw dx vp.vx0
    let sy := project e.cy e.cw dy vp.vy0
    return { e with flags := setTransformed e.flags, screen := some { sx := sx, sy := sy, sz := sz } }

/-- The vertices at the listed indices transformed, in that order; what was transformed before a stop stays (41 R205, 60 R341). -/
def transformAll (vp : Viewport) : List Nat → List Vertex → List Vertex × Option Stop
  | [], vs => (vs, none)
  | i :: is, vs =>
    match vs[i]? with
    | none => (vs, some (.model .noElement))
    | some e =>
      match transformVertex vp e with
      | .error st => (vs, some st)
      | .ok e' => transformAll vp is (vs.set i e')

end Sys2Proof.Machine
end

