-- ==== Sys2Proof/Machine/Command.lean ====
section
/-! DEFINITION. The meanings of the four commands: SETVIEWPORT, VERTEX and POLYGON (41 R190 to R207), SWAPBUFFERS's first phase
(44 R280) and the critical section that completes it (44 R281 to R287). -/

namespace Sys2Proof.Machine

/-- SETVIEWPORT: the active viewport is replaced (41 R200). -/
def execSetViewport (vx0 vy0 vx1 vy1 : Word) (s : State) : Host.Outcome State Fault Refusal :=
  live s (.next { s with vp := { vx0 := vx0, vy0 := vy0, vx1 := vx1, vy1 := vy1 } }.complete)

/-- The "next" frame with a vertex appended (10 R41). -/
def Slot.pushVertex (f : Slot) (e : Vertex) : Slot := { f with verts := f.verts ++ [e] }

/-- VERTEX: a classified vertex is appended to "next", unless its array is full (41 R190). -/
def execVertex (x y z w : Word) (s : State) : Host.Outcome State Fault Refusal :=
  live s <|
    if s.nextFrame.verts.length = Config.vcap then
      .next (s.raise (.vertex x y z w) { code := .vertexOverflow, info := [(s.nextFrame.verts.length : Int)] })
    else
      .next (s.setNextFrame (s.nextFrame.pushVertex (newVertex s.params.zclip x y z w))).complete

/-- The first slot position whose index is out of range, with that index (41 R203). `k` is the first position of the list. -/
def firstOutOfRange (len : Nat) : Nat → List Nat → Option (Nat × Nat)
  | _, [] => none
  | k, i :: is => if len ≤ i then some (k, i) else firstOutOfRange len (k + 1) is

/-- The vertex an index names carries a clip flag (41 R204). -/
def clippedAt (vs : List Vertex) (i : Nat) : Bool := (vs[i]?).any Vertex.clipped

/-- The polygon records of new triangles: their indices and the command's unchanged word, setup fields unset (41 R206). -/
def newPolygons (attr : Word) (tris : List (Triple Word)) : List Polygon :=
  tris.map fun t => { vi := t, attr := attr, setup := none }

/-- The "next" frame with polygons appended (10 R41). -/
def Slot.pushPolygons (f : Slot) (ps : List Polygon) : Slot := { f with polys := f.polys ++ ps }

/-- The capacity check and the store of a POLYGON's triangles (41 R206). -/
def storeTriangles (cmd : Instr) (attr : Word) (tris : List (Triple Word)) (s : State) : Host.Outcome State Fault Refusal :=
  if Config.pcap < s.nextFrame.polys.length + tris.length then
    .next (s.raise cmd { code := .polyOverflow, info := [(s.nextFrame.polys.length : Int), (tris.length : Int)] })
  else
    .next (s.setNextFrame (s.nextFrame.pushPolygons (newPolygons attr tris))).complete

/-- POLYGON: all indices checked in slot order, the clip drop, the transforms in slot order, the capacity check, the store
(41 R202 to R207, 60 R345). -/
def execPolygon (i0 i1 i2 i3 attr : Word) (s : State) : Host.Outcome State Fault Refusal :=
  let cmd : Instr := .polygon i0 i1 i2 i3 attr
  let idx := (polyIndices i0 i1 i2 i3 attr).map indexOf
  let f := s.nextFrame
  live s <|
    match firstOutOfRange f.verts.length 0 idx with
    | some (k, i) =>
      .next (s.raise cmd { code := .polyIndexRange, info := [(k : Int), (i : Int), (f.verts.length : Int)] })
    | none =>
      if idx.any (clippedAt f.verts) then .next s.complete
      else
        let r := transformAll s.vp idx f.verts
        let s1 := s.setNextFrame { f with verts := r.1 }
        finish cmd s1 r.2 (storeTriangles cmd attr (polyTriangles i0 i1 i2 i3 attr) s1)

/-- SWAPBUFFERS, phase 1: every polygon of "next" is set up, without the lock, and the consumer goes to wait for it (44 R280).
Phase 2 is `swapCommit`, a step of its own (log 17). -/
def execSwapBuffers (s : State) : Host.Outcome State Fault Refusal :=
  let f := s.nextFrame
  live s <|
    let r := setupAll s.params.sortNet f.verts f.polys
    let s1 := s.setNextFrame { f with polys := r.1 }
    finish .swapBuffers s1 r.2 (.next { s1 with cphase := .swapWait })

/-- SWAPBUFFERS, phase 2, the critical section: the counter is incremented, "next" becomes "current", the slot of the new parity
becomes "next" and is truncated to empty, the lock is free again, the command completes; one atomic step (44 R282). -/
def swapCommit (s : State) : State :=
  let fc := s.fc + 1
  { s with
    fc := fc
    curSlot := s.nextSlot
    nextSlot := slotOfCounter fc
    mem := s.mem.setSlot (slotOfCounter fc) Slot.empty
    lock := .free
    cphase := .idle
    seq := s.seq + 1 }

end Sys2Proof.Machine
end

