-- ==== Sys2Proof/Machine/Raster.lean ====
section
/-! DEFINITION. The scanline rasterizer: the bucket build, the span fill and the bound advance (45 R301 to R316). -/

namespace Sys2Proof.Machine

/-- The screen Y of a triangle's top and bottom vertex, slots 0 and 2 of the sorted triangle (45 R301). -/
def rowsOf (vs : List Vertex) (p : Polygon) : Except Fault (Int × Int) := do
  let top ← cornerAt vs p.vi.v0
  let bot ← cornerAt vs p.vi.v2
  return (top.y.toInt, bot.y.toInt)

/-- The rows of every polygon, in index order. -/
def allRows (vs : List Vertex) : List Polygon → Except Fault (List (Int × Int))
  | [] => .ok []
  | p :: ps => do
    let r ← rowsOf vs p
    let rs ← allRows vs ps
    return r :: rs

/-- The polygon indices of one line's bucket, ascending: those whose rows include the line (45 R301). `j` is the index of the
first polygon of the list. -/
def bucketFrom (y : Int) : Nat → List (Int × Int) → List Nat
  | _, [] => []
  | j, (top, bot) :: rest =>
    if top ≤ y ∧ y ≤ bot then j :: bucketFrom y (j + 1) rest else bucketFrom y (j + 1) rest

/-- The bucket array of a frame: one bucket a display line and none outside the display (45 R301). -/
def buildBuckets (f : Slot) : Except Fault (List (List Nat)) := do
  let rows ← allRows f.verts f.polys
  return (List.range Config.dispH).map fun (y : Nat) => bucketFrom (y : Int) 0 rows

/-- A polygon with its bounds restored to their values after setup (45 R300, option REINIT_BOUNDS). -/
def restoreBounds (p : Polygon) : Except Fault Polygon :=
  match p.setup with
  | none => .error .noSetup
  | some k => .ok { p with setup := some { k with cx0 := k.cx0Init, cx1 := k.cx1Init } }

/-- Every polygon's bounds restored. -/
def restoreAll : List Polygon → Except Fault (List Polygon)
  | [] => .ok []
  | p :: ps => do
    let p' ← restoreBounds p
    let ps' ← restoreAll ps
    return p' :: ps'

/-- The bounds a pass starts from: restored when REINIT_BOUNDS is set, else those the last pass left (45 R300, R316). -/
def passBounds (reinit : Bool) (ps : List Polygon) : Except Fault (List Polygon) :=
  if reinit then restoreAll ps else .ok ps

/-- The visible columns of a span, ascending: each column from the truncated left bound to the truncated right bound that lies on
the display (45 R311). Columns outside are skipped, none is drawn at the edge instead (log 21). -/
def spanColumns (k : Setup) : List Nat :=
  let xs := (q12ToI k.cx0).toInt
  let xe := (q12ToI k.cx1).toInt
  (List.range Config.dispW).filter fun (x : Nat) => decide (xs ≤ (x : Int) ∧ (x : Int) ≤ xe)

/-- The events of one polygon's span on a line (45 R311). The debug snapshot is handed in and read by no rule (60 R360). -/
def spanEvents (_debug : List Word) (k : Setup) (attr : Word) (y : Nat) : List PixelWrite :=
  (spanColumns k).map fun x => { y := y, x := x, v := Config.pixelValue attr }

/-- The bounds of the next line: the top-half slopes while the line is above `hy`, else the bottom-half slopes (45 R312). -/
def advanceBounds (k : Setup) (y : Nat) : Setup :=
  if (y : Int) < k.hy.toInt then { k with cx0 := q12Add k.cx0 k.dl0, cx1 := q12Add k.cx1 k.dr0 }
  else { k with cx0 := q12Add k.cx0 k.dl1, cx1 := q12Add k.cx1 k.dr1 }

/-- A line's work over the polygons of its bucket, in the bucket's order: each is filled, then its bounds advance (45 R310). The
answer is the polygons after it and the events, in order (45 R313). -/
def fillLine (debug : List Word) (y : Nat) : List Nat → List Polygon → Except Fault (List Polygon × List PixelWrite)
  | [], ps => .ok (ps, [])
  | j :: js, ps =>
    match ps[j]? with
    | none => .error .noElement
    | some p =>
      match p.setup with
      | none => .error .noSetup
      | some k => do
        let r ← fillLine debug y js (ps.set j { p with setup := some (advanceBounds k y) })
        return (r.1, spanEvents debug k p.attr y ++ r.2)

/-- The bucket of a line. A read before the first BEGINFRAME, or of a line without one, is a fault of the model (93 F11). -/
def bucketOf (bk : Option (List (List Nat))) (y : Nat) : Except Fault (List Nat) :=
  match bk with
  | none => .error .noBucket
  | some b =>
    match b[y]? with
    | none => .error .noBucket
    | some js => .ok js

end Sys2Proof.Machine
end

