-- ==== Sys2Proof/Machine/Display.lean ====
section
/-! DEFINITION. The meanings of the three display requests BEGINFRAME, NEXTLINE and ENDFRAME (45 R300 to R321). -/

namespace Sys2Proof.Machine

/-- The bucket build and the optional restore, over the "current" frame, once the lock is taken (45 R300, R301). -/
def beginPass (s : State) : Host.Outcome State Fault Refusal :=
  match passBounds s.params.reinitBounds s.curFrame.polys with
  | .error r => .fault r
  | .ok ps =>
    let f : Slot := { s.curFrame with polys := ps }
    match buildBuckets f with
    | .error r => .fault r
    | .ok b => .next { s.setCurFrame f with bk := some b, lock := .display, dpass := { active := true, line := 0 } }

/-- BEGINFRAME: inside a pass it is refused; while the lock is not free it holds, with no effect; else the lock is taken and the
pass begins, in one atomic step (45 R300). -/
def execBeginFrame (s : State) : Host.Outcome State Fault Refusal :=
  live s <|
    if s.dpass.active then .next (s.refuse .nestedBegin)
    else if s.lock = .free then beginPass s
    else .next s

/-- The next line's spans and the cursor's advance (45 R310). -/
def yieldLine (s : State) : Host.Outcome State Fault Refusal :=
  let y := s.dpass.line
  match bucketOf s.bk y with
  | .error r => .fault r
  | .ok js =>
    match fillLine Config.debugSnapshot y js s.curFrame.polys with
    | .error r => .fault r
    | .ok (ps, es) =>
      .next ((({ s.setCurFrame { s.curFrame with polys := ps } with
                 dpass := { active := s.dpass.active, line := y + 1 } }).emit es).answer (.line y es))

/-- NEXTLINE: outside a pass it is refused; past the last line it answers END and changes nothing; else it yields the next line
(45 R310). -/
def execNextLine (s : State) : Host.Outcome State Fault Refusal :=
  live s <|
    if s.dpass.active then
      if s.dpass.line = Config.dispH then .next (s.answer .endOfPass) else yieldLine s
    else .next (s.refuse .notInPass)

/-- ENDFRAME: outside a pass it is refused; else the lock is released and the pass is over (45 R320). -/
def execEndFrame (s : State) : Host.Outcome State Fault Refusal :=
  live s <|
    if s.dpass.active then .next { s with lock := .free, dpass := { active := false, line := 0 } }
    else .next (s.refuse .notInPass)

end Sys2Proof.Machine
end

