-- ==== Sys2Proof/Machine/Dispatch.lean ====
section
/-! DEFINITION. The dispatch: one arm per row of the opcode table, each a direct call of its meaning (41 R183, 30 R113, R114). -/

namespace Sys2Proof.Machine

def exec (i : Instr) (s : State) : Host.Outcome State Fault Refusal :=
  match i with
  | .setViewport vx0 vy0 vx1 vy1 => Sys2Proof.Machine.execSetViewport vx0 vy0 vx1 vy1 s
  | .vertex x y z w => Sys2Proof.Machine.execVertex x y z w s
  | .polygon i0 i1 i2 i3 attr => Sys2Proof.Machine.execPolygon i0 i1 i2 i3 attr s
  | .swapBuffers => Sys2Proof.Machine.execSwapBuffers s
  | .beginFrame => Sys2Proof.Machine.execBeginFrame s
  | .nextLine => Sys2Proof.Machine.execNextLine s
  | .endFrame => Sys2Proof.Machine.execEndFrame s
  | .qadd a b => Sys2Proof.Machine.execQadd a b s
  | .qsub a b => Sys2Proof.Machine.execQsub a b s
  | .qmul a b => Sys2Proof.Machine.execQmul a b s
  | .qdiv a b => Sys2Proof.Machine.execQdiv a b s
  | .qneg a _ => Sys2Proof.Machine.execQneg a s
  | .qfromi a _ => Sys2Proof.Machine.execQfromi a s
  | .qtoi a _ => Sys2Proof.Machine.execQtoi a s
  | .qaddi a b => Sys2Proof.Machine.execQaddi a b s
  | .qdivi a b => Sys2Proof.Machine.execQdivi a b s
  | .qlt a b => Sys2Proof.Machine.execQlt a b s

end Sys2Proof.Machine
end

