-- ==== Sys2Proof/Machine/Turns.lean ====
section
/-! DEFINITION. What each agent does when it is its turn (60 R350): the producer decodes and pushes, the consumer pops and
executes or performs a swap's critical section, the display's next request is served; and the arithmetic unit's own turn. -/

namespace Sys2Proof.Machine

/-- The producer has taken words of its stream: those left, and how many were taken. -/
def State.takeCmd (s : State) (rest : List Word) : State :=
  { s with io := { s.io with cmdIn := rest, cmdPos := s.io.cmdPos + (s.io.cmdIn.length - rest.length) } }

/-- The push: the command is copied to the channel's end (41 R180, 20 R94). -/
def State.push (s : State) (c : Instr) : State := { s with chan := s.chan ++ [c] }

/-- The producer's turn: it offers the next decoded command and holds while the channel is full (41 R180); an incomplete packet
waits (30 R121); a header that spells no command is refused, naming its position, and never enters the channel (30 R118): that
one word is discarded (DESIGN CHOICE, log 10). -/
def producerTurn (s : State) : Host.Outcome State Fault Refusal :=
  match decode .cmd s.io.cmdIn with
  | .ok c rest => if s.chan.length < s.params.chanCap then .next ((s.takeCmd rest).push c) else .next s
  | .incomplete => .next s
  | .refused _ => .next ((s.refuse (.badCommand s.io.cmdPos)).takeCmd s.io.cmdIn.tail)

/-- The consumer's turn: while a swap waits, the critical section once the lock is free (44 R281, R282); else the head command is
popped and executed, or the consumer holds on an empty channel (41 R181). -/
def consumerTurn (s : State) : Host.Outcome State Fault Refusal :=
  match s.cphase with
  | .swapWait => if s.lock = .free then .next (swapCommit s) else .next s
  | .idle =>
    match s.chan with
    | [] => .next s
    | c :: rest => if c.wellFormedAt .cmd then exec c { s with chan := rest } else .fault .foreignCommand

/-- The display's turn: its next request is served (45 R300, R310, R320). A BEGINFRAME that has to wait for the lock stays where it
is (log 16); a word that spells no request is refused and gone (30 R119). -/
def displayTurn (s : State) : Host.Outcome State Fault Refusal :=
  match decode .dport s.io.dispIn with
  | .ok r rest =>
    if r = .beginFrame ∧ s.beginHolds then .next s else exec r { s with io := { s.io with dispIn := rest } }
  | .incomplete => .next s
  | .refused _ => .next ({ s with io := { s.io with dispIn := s.io.dispIn.tail } }.refuse .badRequest)

/-- The arithmetic unit's turn: the next request put to it alone is answered (log 11). -/
def unitTurn (s : State) : Host.Outcome State Fault Refusal :=
  match decode .q12alu s.io.unitIn with
  | .ok r rest => exec r { s with io := { s.io with unitIn := rest } }
  | .incomplete => .next s
  | .refused _ => .refused .reservedSelector

/-- The turn of the agent named. -/
def turnOf (t : Turn) (s : State) : Host.Outcome State Fault Refusal :=
  match t with
  | .producer => producerTurn s
  | .consumer => consumerTurn s
  | .display => displayTurn s
  | .unit => unitTurn s

/-- The state with a table row's instruction placed where its port's next turn takes it, and that turn next (log 2, 12). A command
is placed at the head of the channel and the consumer made idle; words that spell no command are put to the producer. -/
def State.place (s : State) (nbits w : Nat) : State :=
  match portOfWidth nbits with
  | .q12alu => { s with io := { s.io with unitIn := wordsOfBytes (tableBytes nbits w), sched := .unit :: s.io.sched } }
  | .dport => { s with io := { s.io with dispIn := wordsOfBytes (tableBytes nbits w), sched := .display :: s.io.sched } }
  | .cmd =>
    match decodeTableWord nbits w with
    | some c => { s with chan := c :: s.chan.tail, cphase := .idle, io := { s.io with sched := .consumer :: s.io.sched } }
    | none =>
      { s with io := { s.io with cmdIn := wordsOfBytes (tableBytes nbits w), sched := .producer :: s.io.sched } }

end Sys2Proof.Machine
end

