-- ==== Sys2Proof/Machine/Step.lean ====
section
/-! DEFINITION. One step of the machine: one turn of one agent (60 R350), and how the host places an instruction. -/

namespace Sys2Proof.Machine

/-- One step. In a block whose fault register is set no agent has one (60 R341); else the agent whose turn it is moves, and holding
is a step that leaves the block as it is (00 R21, log 16). -/
def step (s : State) : Host.Outcome State Fault Refusal := live s (turnOf s.turn s.beginStep)

/-- The state with a table row's instruction placed so that the very next step runs it (log 2, 12). -/
def State.withFetchWord (s : State) (nbits w : Nat) : State := s.place nbits w

end Sys2Proof.Machine
end

