-- ==== Sys2Proof/Machine/Runs.lean ====
section
/-! DEFINITION. Runs of the machine and the spec's fairness assumption about them (60 R350 to R353). The free schedule admits every
interleaving, so fairness is a premise a progress claim takes, and no constraint on the step (93 P8; log 27). -/

namespace Sys2Proof.Machine

/-- The step the state takes is a swap's critical section (44 R282). -/
def State.swapsNow (s : State) : Bool := s.turn == .consumer && s.cphase == .swapWait && s.lock == .free

/-- An agent is able to step: its turn would not be a hold (60 R352). A word that is refused counts as a step of its agent, and the
arithmetic unit's turn, which is no agent's, is judged the same way (log 11, log 27). -/
def State.canStep (s : State) (t : Turn) : Bool :=
  s.fault.isNone &&
    match t with
    | .producer =>
      match decode .cmd s.io.cmdIn with
      | .ok _ _ => decide (s.chan.length < s.params.chanCap)
      | .incomplete => false
      | .refused _ => true
    | .consumer =>
      match s.cphase with
      | .swapWait => s.lock == .free
      | .idle => !s.chan.isEmpty
    | .display =>
      match decode .dport s.io.dispIn with
      | .ok r _ => !(r == .beginFrame && s.beginHolds)
      | .incomplete => false
      | .refused _ => true
    | .unit =>
      match decode .q12alu s.io.unitIn with
      | .ok _ _ => true
      | .incomplete => false
      | .refused _ => true

/-- A run that never ends: each state steps to the one after it (60 R365: the agents run for the lifetime of the machine). The external
agents' streams are finite, so from some point on such a run has nothing new offered (log 28). -/
def isRun (r : Nat → State) : Prop := ∀ n, step (r n) = .next (r (n + 1))

/-- The three agents of the block (60 R350). -/
def agents : List Turn := [.producer, .consumer, .display]

/-- Weak fairness: an agent that is able to step at every state from some point on has a turn from that point on (60 R353). -/
def weaklyFair (r : Nat → State) : Prop :=
  ∀ t ∈ agents, ∀ n, (∀ m, n ≤ m → (r m).canStep t = true) → ∃ m, n ≤ m ∧ (r m).turn = t

/-- How many of the first `n` steps of a run are swaps. -/
def swapsIn (r : Nat → State) : Nat → Nat
  | 0 => 0
  | n + 1 => swapsIn r n + if (r n).swapsNow then 1 else 0

end Sys2Proof.Machine
end

