-- ==== Sys2Proof/Safety.lean ====
section
/-! DEFINITION. What counts as a safe run, in the terms claims use: quiescence (60 R365), a clean block, the invariants the rules
give the state (10 R34, R43 to R48, 43 R259), and the machine's ready conditions. -/

namespace Sys2Proof.Machine

/-- Neither a fault nor a refusal so far (60 R341, R343). -/
def State.clean (s : State) : Bool := s.fault.isNone && s.refusals.isEmpty

/-- A quiescent state: no fault, no refusal mark, an empty channel, an idle consumer, no pass (60 R365). -/
def State.quiescent (s : State) : Bool :=
  s.clean && s.chan.isEmpty && s.cphase == .idle && !s.dpass.active

/-- The slot selectors match the counter's parity and name different slots (10 R34, R43). -/
abbrev slotsMatch (s : State) : Prop := s.nextSlot = slotOfCounter s.fc ∧ s.curSlot = s.nextSlot.other

/-- The lock and the pass agree: the display holds the lock exactly during a pass, the consumer never between steps; the cursor
is within the display, and at 0 outside a pass (10 R46 to R48, 44 R282, 45 R300, R320). -/
abbrev passMatchesLock (s : State) : Prop :=
  s.lock ≠ .consumer ∧ (s.dpass.active = true ↔ s.lock = .display) ∧
    (s.dpass.active = false → s.dpass.line = 0) ∧ s.dpass.line ≤ Config.dispH

/-- The channel holds commands only and no more than its capacity (10 R45, 41 R183). -/
abbrev channelOk (s : State) : Prop :=
  s.chan.length ≤ s.params.chanCap ∧ ∀ c ∈ s.chan, c.wellFormedAt .cmd = true

/-- A screen coordinate the projector can produce: an integer QTOI answers (40 R146, 43 R252). -/
def inScreenRange (w : Word) : Prop := -524288 ≤ w.toInt ∧ w.toInt ≤ 524287

/-- A vertex record the rules produce: its clip flags are those of its position (41 R190, R191), it has screen coordinates exactly
when its transformed bit is set (10 R36), a transformed vertex is not clipped (41 R205), and the coordinates are in range. -/
structure VertexOk (zclip : Bool) (e : Vertex) : Prop where
  flags : e.clipBits = clipFlags zclip e.cx e.cy e.cz e.cw
  screen : e.transformed = true ↔ e.screen.isSome = true
  unclipped : e.transformed = true → e.clipped = false
  range : ∀ p, e.screen = some p → inScreenRange p.sx ∧ inScreenRange p.sy ∧ inScreenRange p.sz

/-- A polygon record the rules produce: its three references name transformed vertices of its slot (41 R203, R205), and once set up
they are in rising order of screen Y with `hy` the middle one's (43 R257, R259). -/
def PolygonOk (vs : List Vertex) (p : Polygon) : Prop :=
  ∃ c, cornersOf vs p.vi = .ok c ∧
    ∀ k, p.setup = some k → c.v0.y.toInt ≤ c.v1.y.toInt ∧ c.v1.y.toInt ≤ c.v2.y.toInt ∧ k.hy = c.v1.y

/-- A frame slot the rules produce, within its capacities (10 R40). -/
structure SlotOk (zclip : Bool) (f : Slot) : Prop where
  wf : f.wf = true
  verts : ∀ e ∈ f.verts, VertexOk zclip e
  polys : ∀ p ∈ f.polys, PolygonOk f.verts p

/-- Every polygon of a frame is set up (43 R258). -/
def allSetUp (f : Slot) : Prop := ∀ p ∈ f.polys, p.setup.isSome = true

/-- The machine's invariant: what the rules keep true of every state between steps. -/
structure Inv (s : State) : Prop where
  params : paramsWf s.params = true
  slots : slotsMatch s
  lock : passMatchesLock s
  chan : channelOk s
  next : SlotOk s.params.zclip s.nextFrame
  cur : SlotOk s.params.zclip s.curFrame
  /-- "current" was set up when it was promoted (43 R250). -/
  curSetUp : allSetUp s.curFrame
  /-- While a swap waits, "next" has been set up (44 R280, R281). -/
  nextSetUp : s.cphase = .swapWait → allSetUp s.nextFrame
  /-- During a pass the buckets are those of "current" (45 R301). -/
  buckets : s.dpass.active = true → ∃ b, s.bk = some b ∧ buildBuckets s.curFrame = .ok b

/-- The events of a polygon's span on a line: none before SETUP (45 R311). -/
def polygonEvents (y : Nat) (p : Polygon) : List PixelWrite :=
  match p.setup with
  | none => []
  | some k => spanEvents Config.debugSnapshot k p.attr y

/-- A polygon after its visit on a line: its bounds have advanced (45 R312). -/
def visited (y : Nat) (p : Polygon) : Polygon := { p with setup := p.setup.map fun k => advanceBounds k y }

end Sys2Proof.Machine
end

