-- ==== Sys2Proof/Certificates/Slice0/Obligations.lean ====
section
/-! DEFINITION. The statements for the provers. Each says which rule of the spec it formalises; where a clause rests on the model's
own choice, its docstring names the log entry. -/

open Sys2Proof Sys2Proof.Machine

/-- 30 R124: the encoding examples, in both directions, with a SETVIEWPORT's words, a NEXTLINE's word and a QDIVI's words from the
format tables (30 R111, R113, R114). That an arithmetic request is laid out in three words, the selector first, is the model's
choice (log 11). -/
def Obligations.EncodingExamples : Prop :=
  encode (.polygon 0 1 2 3 0x80000000#32) =
      [0x00000003#32, 0x00000000#32, 0x00000001#32, 0x00000002#32, 0x00000003#32, 0x80000000#32] ∧
    encode .swapBuffers = [0x00000004#32] ∧
    encode (.vertex (BitVec.ofInt 32 (-896)) (BitVec.ofInt 32 (-3669)) 0 4096) =
      [0x00000002#32, 0xFFFFFC80#32, 0xFFFFF1AB#32, 0x00000000#32, 0x00001000#32] ∧
    decode .cmd [0x00000003#32, 0x00000000#32, 0x00000001#32, 0x00000002#32, 0x00000003#32, 0x80000000#32] =
      .ok (.polygon 0 1 2 3 0x80000000#32) [] ∧
    decode .cmd [0x00000004#32] = .ok .swapBuffers [] ∧
    decode .cmd [0x00000002#32, 0xFFFFFC80#32, 0xFFFFF1AB#32, 0x00000000#32, 0x00001000#32] =
      .ok (.vertex (BitVec.ofInt 32 (-896)) (BitVec.ofInt 32 (-3669)) 0 4096) [] ∧
    decode .cmd [0x00000001#32, 0x00000000#32, 0x00000000#32, 0x0000007F#32, 0x0000005F#32] =
      .ok (.setViewport 0 0 127 95) [] ∧
    decode .dport [0x00000002#32] = .ok .nextLine [] ∧
    decode .q12alu [0x00000008#32, 0xFFFFFFFB#32, 0x00000002#32] = .ok (.qdivi (BitVec.ofInt 32 (-5)) 2) []

/-- 30 R111, R113, R114, R117: a port's decoder reads an instruction from words exactly when they are that instruction's words and
the instruction is that port's: no bit of an encoding is dropped, and each word has one meaning at a port. -/
def Obligations.DecodeInvertsEncode : Prop :=
  ∀ (p : Port) (ws : List Word) (i : Instr) (rest : List Word),
    decode p ws = .ok i rest ↔ i.wellFormedAt p = true ∧ ws = encode i ++ rest

/-- 20 R82: the byte form is least significant byte first and decodes as the words do; bytes that spell no whole word yet are
left. -/
def Obligations.BytesDecodeLikeWords : Prop :=
  ∀ (i : Instr) (ws : List Word) (tail : List Byte), tail.length < 4 →
    decodeBytes i.port (encodeBytes i ++ (bytesOfWords ws ++ tail)) = .ok i ws

/-- 30 R118 to R120: which first words each decoder refuses. -/
def Obligations.ReservedWordsSpellNothing : Prop :=
  (∀ (h : Word) (ws : List Word), decode .cmd (h :: ws) = .refused .badCommand ↔
      (h.extractLsb' 4 28 ≠ 0 ∨ (h.extractLsb' 0 4).toNat = 0 ∨ 5 ≤ (h.extractLsb' 0 4).toNat)) ∧
    (∀ (d : Word) (ws : List Word), decode .dport (d :: ws) = .refused .badRequest ↔
      (d.extractLsb' 2 30 ≠ 0 ∨ d.extractLsb' 0 2 = 0)) ∧
    (∀ (op : Word) (ws : List Word), decode .q12alu (op :: ws) = .refused .reservedSelector ↔ 0xA ≤ op.toNat)

/-- 30 R123: what each pseudo-instruction expands to, and the TRI the assembler rejects. -/
def Obligations.PseudosExpandToOnePolygon : Prop :=
  ∀ (i0 i1 i2 i3 attr : Word),
    (Pseudo.tri i0 i1 i2 none).expand = some (.polygon i0 i1 i2 0 0) ∧
    (attr.getLsbD 31 = false → (Pseudo.tri i0 i1 i2 (some attr)).expand = some (.polygon i0 i1 i2 0 attr)) ∧
    (attr.getLsbD 31 = true → (Pseudo.tri i0 i1 i2 (some attr)).expand = none) ∧
    (Pseudo.quad i0 i1 i2 i3 none).expand = some (.polygon i0 i1 i2 i3 0x80000000#32) ∧
    (Pseudo.quad i0 i1 i2 i3 (some attr)).expand = some (.polygon i0 i1 i2 i3 (attr ||| 0x80000000#32))

/-- 30 R118 and R119 at the machine: a header that spells no command is refused with its position and never enters the channel, a
display word that spells no request is refused. That the refusal is a mark in a next state, and that exactly the one word is
discarded, are the model's choices (log 9, log 10). -/
def Obligations.RefusedWordsSetTheMark : Prop :=
  (∀ (s : State) (h : Word) (ws : List Word), s.fault = none → s.turn = .producer → s.io.cmdIn = h :: ws →
      decode .cmd (h :: ws) = .refused .badCommand →
      step s = .next { s.beginStep with
        refusals := s.refusals ++ [.badCommand s.io.cmdPos]
        io := { s.beginStep.io with cmdIn := ws, cmdPos := s.io.cmdPos + 1 } }) ∧
    (∀ (s : State) (d : Word) (ws : List Word), s.fault = none → s.turn = .display → s.io.dispIn = d :: ws →
      decode .dport (d :: ws) = .refused .badRequest →
      step s = .next { s.beginStep with
        refusals := s.refusals ++ [.badRequest]
        io := { s.beginStep.io with dispIn := ws } })

/-- 30 R121: a stream that ends inside a packet makes the decoder wait; nothing is emitted. That the wait is a next state is the
model's choice (log 16). -/
def Obligations.IncompletePacketWaits : Prop :=
  ∀ (s : State) (i : Instr) (k : Nat), s.fault = none → s.turn = .producer → i.port = .cmd →
    k < (encode i).length → s.io.cmdIn = (encode i).take k → step s = .next s.beginStep

/-- 41 R180: the producer's push, its hold on a full channel, and no push after a fault. That the hold is a next state and the
halted block's step a fault of the model are the model's choices (log 16, log 13). -/
def Obligations.ProducerPushesInOrder : Prop :=
  ∀ (s : State) (c : Instr) (rest : List Word), s.turn = .producer → decode .cmd s.io.cmdIn = .ok c rest →
    (s.fault = none → s.chan.length < s.params.chanCap →
      step s = .next { s.beginStep with
        chan := s.chan ++ [c]
        io := { s.beginStep.io with cmdIn := rest, cmdPos := s.io.cmdPos + (s.io.cmdIn.length - rest.length) } }) ∧
    (s.fault = none → ¬ s.chan.length < s.params.chanCap → step s = .next s.beginStep) ∧
    (s.fault ≠ none → step s = .fault .halted)

/-- 41 R181: the consumer's pop executes the head command on the state without it; it holds on an empty channel and while a swap
waits; after a fault there is no pop. That a hold is a next state and the halted
block's step a fault of the model are the model's choices (log 16, log 13). -/
def Obligations.ConsumerPopsTheHead : Prop :=
  ∀ (s : State), s.turn = .consumer →
    (s.fault = none → s.cphase = .idle → ∀ (c : Instr) (rest : List Instr), s.chan = c :: rest → c.port = .cmd →
      step s = exec c { s.beginStep with chan := rest }) ∧
    (s.fault = none → s.cphase = .idle → s.chan = [] → step s = .next s.beginStep) ∧
    (s.fault = none → s.cphase = .swapWait → s.lock ≠ .free → step s = .next s.beginStep) ∧
    (s.fault ≠ none → step s = .fault .halted)

/-- 30 R113, 60 R350: a display turn runs the request its word decodes to; a BEGINFRAME that must wait for the lock stays the next
request (45 R300; that the hold is a next state is log 16). -/
def Obligations.DisplayStepRunsItsRequest : Prop :=
  ∀ (s : State) (r : Instr) (rest : List Word), s.fault = none → s.turn = .display → decode .dport s.io.dispIn = .ok r rest →
    ((r = .beginFrame → s.dpass.active = true ∨ s.lock = .free) →
      step s = exec r { s.beginStep with io := { s.beginStep.io with dispIn := rest } }) ∧
    (r = .beginFrame → s.dpass.active = false → s.lock ≠ .free → step s = .next s.beginStep)

/-- 30 R114, R120: a turn of the arithmetic unit runs the request its words decode to and refuses a reserved selector. That the
unit can be asked alone is the model's choice (log 11). -/
def Obligations.UnitStepRunsItsRequest : Prop :=
  ∀ (s : State), s.fault = none → s.turn = .unit →
    (∀ (r : Instr) (rest : List Word), decode .q12alu s.io.unitIn = .ok r rest →
      step s = exec r { s.beginStep with io := { s.beginStep.io with unitIn := rest } }) ∧
    (∀ (op : Word) (ws : List Word), s.io.unitIn = op :: ws → 0xA ≤ op.toNat → step s = .refused .reservedSelector)

/-- 60 R341, R342: once the fault register is set nothing steps and no instruction runs, and the state is not quiescent. The
outcome's name is the model's (log 13). -/
def Obligations.HaltedBlockHasNoStep : Prop :=
  ∀ (s : State), s.fault ≠ none →
    step s = .fault .halted ∧ (∀ i : Instr, exec i s = .fault .halted) ∧ s.quiescent = false

/-- 44 R282: the swap's critical section, in one step: the counter, the promotion, the slot of the new parity truncated to empty,
the lock free again, the consumer idle, the command counted; nothing else changes. -/
def Obligations.SwapCriticalSection : Prop :=
  ∀ (s : State), s.fault = none → s.turn = .consumer → s.cphase = .swapWait → s.lock = .free →
    step s = .next { s.beginStep with
      fc := s.fc + 1
      curSlot := s.nextSlot
      nextSlot := SlotId.ofBit ((s.fc + 1).getLsbD 0)
      mem := s.mem.setSlot (SlotId.ofBit ((s.fc + 1).getLsbD 0)) { verts := [], polys := [] }
      lock := .free
      cphase := .idle
      seq := s.seq + 1 }

/-- 44 R283, R286: after a swap "next" is the slot that was "current", emptied, "current" is the frame that was "next", and the
selectors match the counter's parity again. -/
def Obligations.SwapExchangesTheRoles : Prop :=
  ∀ (s : State), s.fault = none → s.turn = .consumer → s.cphase = .swapWait → s.lock = .free → slotsMatch s →
    ∃ t, step s = .next t ∧ t.nextSlot = s.curSlot ∧ t.curSlot = s.nextSlot ∧ t.curFrame = s.nextFrame ∧
      t.nextFrame = { verts := [], polys := [] } ∧ slotsMatch t

/-- 44 R284: each step either keeps the counter and the roles, or is a swap that adds one to the counter, flips its parity and moves
"current" to the other physical slot; so after N swaps of any run that starts, as reset does, with the counter at 0, whatever
other steps come between, the parity is N mod 2. -/
def Obligations.SwapParityAfterNSwaps : Prop :=
  (∀ (s t : State), slotsMatch s → step s = .next t →
    (s.swapsNow = false ∧ t.fc = s.fc ∧ t.curSlot = s.curSlot ∧ t.nextSlot = s.nextSlot) ∨
    (s.turn = .consumer ∧ s.cphase = .swapWait ∧ s.lock = .free ∧ s.swapsNow = true ∧
      t.fc = s.fc + 1 ∧ t.fc.getLsbD 0 = !s.fc.getLsbD 0 ∧ t.curSlot ≠ s.curSlot)) ∧
  (∀ (r : Nat → State) (n : Nat), (∀ k, k < n → step (r k) = .next (r (k + 1))) → (r 0).fc = 0 → slotsMatch (r 0) →
    (r n).fc.getLsbD 0 = decide (swapsIn r n % 2 = 1) ∧ slotsMatch (r n))

/-- 44 R285: only the swap's critical section writes the counter or the slot selectors. -/
def Obligations.OnlySwapChangesTheRoles : Prop :=
  ∀ (s t : State), step s = .next t →
    (t.fc = s.fc ∧ t.curSlot = s.curSlot ∧ t.nextSlot = s.nextSlot) ∨
      (s.turn = .consumer ∧ s.cphase = .swapWait ∧ s.lock = .free)

/-- 41 R200, R182: SETVIEWPORT, tag 1, replaces the viewport, whatever its operands, and completes; nothing else changes, so a
vertex already transformed keeps its position. -/
def Obligations.SetViewportReplacesTheViewport : Prop :=
  ∀ (s : State) (vx0 vy0 vx1 vy1 : Word), s.fault = none →
    exec (.setViewport vx0 vy0 vx1 vy1) s =
      .next { s with vp := { vx0 := vx0, vy0 := vy0, vx1 := vx1, vy1 := vy1 }, seq := s.seq + 1 } ∧
    decode .cmd [0x1#32, vx0, vy0, vx1, vy1] = .ok (.setViewport vx0 vy0 vx1 vy1) []

/-- 41 R191: each clip flag is its own signed comparison; equality sets none; a zero `w` sets all six. -/
def Obligations.ClipFlagsCompareSigned : Prop :=
  ∀ (zclip : Bool) (x y z w : Word),
    let nw : Word := BitVec.ofInt 32 (0 - w.toInt)
    let f := clipFlags zclip x y z w
    (w ≠ 0 →
      f.getLsbD 0 = decide (x.toInt < nw.toInt) ∧ f.getLsbD 1 = decide (w.toInt < x.toInt) ∧
      f.getLsbD 2 = decide (y.toInt < nw.toInt) ∧ f.getLsbD 3 = decide (w.toInt < y.toInt) ∧
      f.getLsbD 4 = (zclip && decide (z.toInt < nw.toInt)) ∧ f.getLsbD 5 = (zclip && decide (w.toInt < z.toInt))) ∧
    (w = 0 → f = 0b111111#6)

/-- 41 R192: a zero `w` fails every clip test; a negative `w` other than the least one always sets L or R; and for the least `w`
each flag is as the rule says, so that one position with it is not clipped. -/
def Obligations.DegenerateWIsClipped : Prop :=
  ∀ (zclip : Bool) (x y z w : Word),
    let f := clipFlags zclip x y z w
    (w = 0 → f = 0b111111#6) ∧
    (w.toInt < 0 → w.toInt ≠ -2147483648 → f.getLsbD 0 = true ∨ f.getLsbD 1 = true) ∧
    (w.toInt = -2147483648 →
      f.getLsbD 0 = false ∧ f.getLsbD 1 = decide (x.toInt ≠ -2147483648) ∧
      f.getLsbD 2 = false ∧ f.getLsbD 3 = decide (y.toInt ≠ -2147483648) ∧
      (zclip = false → x.toInt = -2147483648 → y.toInt = -2147483648 → f = 0))

/-- 41 R190: VERTEX, tag 2, appends one classified, untransformed record to "next" and completes; with 4096 records it raises
VERTEX_OVERFLOW and writes nothing else. -/
def Obligations.VertexAppendsOrOverflows : Prop :=
  ∀ (s : State) (x y z w : Word), s.fault = none →
    (s.nextFrame.verts.length ≠ 4096 →
      exec (.vertex x y z w) s =
        .next { s with
          mem := s.mem.setSlot s.nextSlot { s.nextFrame with
            verts := s.nextFrame.verts ++
              [{ cx := x, cy := y, cz := z, cw := w, flags := (clipFlags s.params.zclip x y z w).zeroExtend 7, screen := none }] }
          seq := s.seq + 1 }) ∧
    (s.nextFrame.verts.length = 4096 →
      exec (.vertex x y z w) s =
        .next { s with fault := some { code := .vertexOverflow, seq := s.seq, cmd := .vertex x y z w, info := [4096] } }) ∧
    decode .cmd [0x2#32, x, y, z, w] = .ok (.vertex x y z w) []

/-- 41 R203: every index a POLYGON names is checked in slot order against the length of "next"'s vertex array, before any clip flag
is read; the first failing slot is reported, and nothing else is written. -/
def Obligations.PolygonReportsFirstBadIndex : Prop :=
  ∀ (s : State) (i0 i1 i2 i3 attr : Word) (k : Nat) (i : Word),
    let idx := if attr.getLsbD 31 then [i0, i1, i2, i3] else [i0, i1, i2]
    let len := s.nextFrame.verts.length
    s.fault = none → idx[k]? = some i → len ≤ i.toNat → (∀ (j : Nat) (w : Word), j < k → idx[j]? = some w → w.toNat < len) →
      exec (.polygon i0 i1 i2 i3 attr) s =
        .next { s with fault := some { code := .polyIndexRange, seq := s.seq, cmd := .polygon i0 i1 i2 i3 attr,
                                       info := [(k : Int), (i.toNat : Int), (len : Int)] } }

/-- 41 R204: a POLYGON with any clipped vertex is dropped whole and silently: it completes and writes nothing else. -/
def Obligations.PolygonWithClippedVertexIsDropped : Prop :=
  ∀ (s : State) (i0 i1 i2 i3 attr : Word),
    let idx := if attr.getLsbD 31 then [i0, i1, i2, i3] else [i0, i1, i2]
    s.fault = none → (∀ w ∈ idx, w.toNat < s.nextFrame.verts.length) →
      (∃ w ∈ idx, ∃ e, s.nextFrame.verts[w.toNat]? = some e ∧ e.flags.extractLsb' 0 6 ≠ 0) →
      exec (.polygon i0 i1 i2 i3 attr) s = .next { s with seq := s.seq + 1 }

/-- 41 R205, R206: a POLYGON whose vertices exist and are not clipped transforms each vertex it names with the viewport in effect and
no other, then appends its one or two triangles with the unchanged last word, or, if they would exceed 4096, raises POLY_OVERFLOW
with no triangle stored. -/
def Obligations.PolygonTransformsAndStores : Prop :=
  ∀ (s : State) (i0 i1 i2 i3 attr : Word),
    let idx := if attr.getLsbD 31 then [i0, i1, i2, i3] else [i0, i1, i2]
    let tris : List (Triple Word) := if attr.getLsbD 31 then [⟨i0, i1, i2⟩, ⟨i0, i3, i2⟩] else [⟨i0, i1, i2⟩]
    let f := s.nextFrame
    s.fault = none → (∀ e ∈ f.verts, VertexOk s.params.zclip e) → (∀ w ∈ idx, w.toNat < f.verts.length) →
      (∀ w ∈ idx, ∀ e, f.verts[w.toNat]? = some e → e.flags.extractLsb' 0 6 = 0) →
      ∃ vs : List Vertex, vs.length = f.verts.length ∧
        (∀ (j : Nat) (e : Vertex), f.verts[j]? = some e → ∃ e', vs[j]? = some e' ∧
          ((∃ w ∈ idx, w.toNat = j) → transformVertex s.vp e = .ok e') ∧ ((¬ ∃ w ∈ idx, w.toNat = j) → e' = e)) ∧
        (f.polys.length + tris.length ≤ 4096 →
          exec (.polygon i0 i1 i2 i3 attr) s =
            .next { s with
              mem := s.mem.setSlot s.nextSlot
                { verts := vs, polys := f.polys ++ tris.map fun t => { vi := t, attr := attr, setup := none } }
              seq := s.seq + 1 }) ∧
        (4096 < f.polys.length + tris.length →
          exec (.polygon i0 i1 i2 i3 attr) s =
            .next { s with
              mem := s.mem.setSlot s.nextSlot { verts := vs, polys := f.polys }
              fault := some { code := .polyOverflow, seq := s.seq, cmd := .polygon i0 i1 i2 i3 attr,
                              info := [(f.polys.length : Int), (tris.length : Int)] } })

/-- 41 R207: a quad becomes the triangles `(i0, i1, i2)` and `(i0, i3, i2)`, both with the unchanged last word. -/
def Obligations.QuadSplitsIntoTwoTriangles : Prop :=
  ∀ (i0 i1 i2 i3 attr : Word), attr.getLsbD 31 = true →
    newPolygons attr (polyTriangles i0 i1 i2 i3 attr) =
      [{ vi := ⟨i0, i1, i2⟩, attr := attr, setup := none }, { vi := ⟨i0, i3, i2⟩, attr := attr, setup := none }]

/-- 42 R230, R231: the transform of a vertex not yet transformed, each operation with its own rounding and in the rule's order; of a
vertex already transformed, nothing. -/
def Obligations.TransformFollowsTheFormulas : Prop :=
  ∀ (vp : Viewport) (e : Vertex),
    let q : Int → Word := fun n => BitVec.ofInt 32 n
    let w := q (vp.vx1.toInt - vp.vx0.toInt + 1)
    let h := q (vp.vy1.toInt - vp.vy0.toInt + 1)
    let dx := q (Int.tdiv ((q (Int.tdiv (q (w.toInt * 4096)).toInt 2)).toInt * 4096) e.cw.toInt)
    let dy := q (Int.tdiv ((q (Int.tdiv (q (h.toInt * 4096)).toInt 2)).toInt * 4096) e.cw.toInt)
    let px := q ((q (e.cx.toInt + e.cw.toInt)).toInt * dx.toInt / 4096)
    let py := q ((q (e.cy.toInt + e.cw.toInt)).toInt * dy.toInt / 4096)
    let sx := q ((q (px.toInt + (q (vp.vx0.toInt * 4096)).toInt)).toInt / 4096)
    let sy := q ((q (py.toInt + (q (vp.vy0.toInt * 4096)).toInt)).toInt / 4096)
    let halfz := q (Int.tdiv (q (e.cz.toInt + e.cw.toInt)).toInt 2)
    let sz := q ((q (Int.tdiv (halfz.toInt * 4096) e.cw.toInt)).toInt / 4096)
    (e.flags.getLsbD 6 = true → transformVertex vp e = .ok e) ∧
    (e.flags.getLsbD 6 = false → e.cw ≠ 0 →
      transformVertex vp e = .ok { e with flags := e.flags ||| 0b1000000#7, screen := some { sx := sx, sy := sy, sz := sz } })

/-- 42 R237: whatever instruction is executed, of SWAPBUFFERS its first phase, a vertex already transformed keeps its whole record in
its slot. The swap's critical section, which empties a slot at the end of its frame (44 R282), is a step of its own (log 17). -/
def Obligations.TransformedVertexKeepsItsPosition : Prop :=
  ∀ (i : Instr) (s t : State) (k : SlotId) (j : Nat) (e : Vertex), exec i s = .next t →
    (s.mem.slot k).verts[j]? = some e → e.transformed = true → (t.mem.slot k).verts[j]? = some e

/-- 42 R235: with a viewport of `n` by `m` pixels at the origin, a vertex at the centre of clip space with `cw = k` lands on
`(n/2, m/2)` whenever `k` divides `n * 2^23` and `m * 2^23` and the quotients fit. -/
def Obligations.CentreVertexLandsOnCentrePixel : Prop :=
  ∀ (zclip : Bool) (n m k : Nat) (cz : Word), 0 < n → n < 524288 → 0 < m → m < 524288 → 0 < k → k < 2147483648 →
    k ∣ n * 8388608 → n * 8388608 / k < 2147483648 → k ∣ m * 8388608 → m * 8388608 / k < 2147483648 →
    ∃ e p, transformVertex { vx0 := 0, vy0 := 0, vx1 := BitVec.ofNat 32 (n - 1), vy1 := BitVec.ofNat 32 (m - 1) }
        (newVertex zclip 0 0 cz (BitVec.ofNat 32 k)) = .ok e ∧
      e.screen = some p ∧ p.sx = BitVec.ofNat 32 (n / 2) ∧ p.sy = BitVec.ofNat 32 (m / 2)

/-- 43 R259: after SWAPBUFFERS's first phase every polygon of "next" is set up with its own three references in rising order of
screen Y, and `hy` is the middle one's. -/
def Obligations.SetupSortsEveryTriangle : Prop :=
  ∀ (s t : State), Inv s → exec .swapBuffers s = .next t → ∀ (j : Nat) (p : Polygon), s.nextFrame.polys[j]? = some p →
    ∃ (q : Polygon) (c : Triple Corner) (k : Setup), t.nextFrame.polys[j]? = some q ∧ q.attr = p.attr ∧ q.setup = some k ∧
      [q.vi.v0, q.vi.v1, q.vi.v2].Perm [p.vi.v0, p.vi.v1, p.vi.v2] ∧ cornersOf t.nextFrame.verts q.vi = .ok c ∧
      c.v0.y.toInt ≤ c.v1.y.toInt ∧ c.v1.y.toInt ≤ c.v2.y.toInt ∧ k.hy = c.v1.y

/-- 43 R253 to R257: the slopes, the pair swap, the initial bounds with a zero-height top segment's step, and the middle line, for
the three corners in sorted order, whatever admitted network sorts them. -/
def Obligations.SetupComputesSlopesAndBounds : Prop :=
  ∀ (net : List (Pos × Pos)) (vs : List Vertex) (p : Polygon) (c : Triple Corner), sortNetWf net = true →
    cornersOf vs p.vi = .ok c → (∀ d ∈ [c.v0, c.v1, c.v2], inScreenRange d.x ∧ inScreenRange d.y) →
    ∃ (t : Triple Corner) (k : Setup), [t.v0, t.v1, t.v2].Perm [c.v0, c.v1, c.v2] ∧
      t.v0.y.toInt ≤ t.v1.y.toInt ∧ t.v1.y.toInt ≤ t.v2.y.toInt ∧
      setupPolygon net vs p = ({ vi := ⟨t.v0.idx, t.v1.idx, t.v2.idx⟩, attr := p.attr, setup := some k }, none) ∧
      let q : Int → Word := fun n => BitVec.ofInt 32 n
      let slopeOf : Int → Int → Word := fun d h => if 0 < h then q (Int.tdiv (q (d * 4096)).toInt h) else q (d * 4096)
      let h1 := t.v1.y.toInt - t.v0.y.toInt
      let h2 := t.v2.y.toInt - t.v1.y.toInt
      let l0 := slopeOf (t.v1.x.toInt - t.v0.x.toInt) h1
      let l1 := slopeOf (t.v2.x.toInt - t.v1.x.toInt) h2
      let r := slopeOf (t.v2.x.toInt - t.v0.x.toInt) (h1 + h2)
      let start := q (t.v0.x.toInt * 4096)
      (r.toInt < l0.toInt → k.dl0 = r ∧ k.dl1 = r ∧ k.dr0 = l0 ∧ k.dr1 = l1) ∧
      (¬ r.toInt < l0.toInt → k.dl0 = l0 ∧ k.dl1 = l1 ∧ k.dr0 = r ∧ k.dr1 = r) ∧
      (h1 = 0 → k.cx0 = q (start.toInt + k.dl0.toInt) ∧ k.cx1 = q (start.toInt + k.dr0.toInt)) ∧
      (h1 ≠ 0 → k.cx0 = start ∧ k.cx1 = start) ∧
      k.cx0Init = k.cx0 ∧ k.cx1Init = k.cx1 ∧ k.hy = t.v1.y

/-- 43 R255: after the pair swap the left bound never starts right of the right bound, for screen-x values no wider than 65536 either
way, where no intermediate value overflows. -/
def Obligations.SpanBoundsStartInOrder : Prop :=
  ∀ (net : List (Pos × Pos)) (vs : List Vertex) (p q : Polygon) (c : Triple Corner) (k : Setup),
    cornersOf vs p.vi = .ok c → (∀ d ∈ [c.v0, c.v1, c.v2], -65536 ≤ d.x.toInt ∧ d.x.toInt ≤ 65536) →
    setupPolygon net vs p = (q, none) → q.setup = some k → k.cx0.toInt ≤ k.cx1.toInt

/-- 44 R280, R287: SWAPBUFFERS's first phase completes on every state the invariant admits: each polygon of "next" is set up, the
consumer waits for the lock, and nothing else changes. The second phase is a step of its own (log 17). -/
def Obligations.SwapBuffersSetsUpNext : Prop :=
  ∀ (s : State), Inv s → s.fault = none →
    ∃ ps : List Polygon,
      exec .swapBuffers s =
        .next { s with mem := s.mem.setSlot s.nextSlot { s.nextFrame with polys := ps }, cphase := .swapWait } ∧
      ps.length = s.nextFrame.polys.length ∧
      ∀ (j : Nat) (p : Polygon), s.nextFrame.polys[j]? = some p →
        ∃ q, ps[j]? = some q ∧ setupPolygon s.params.sortNet s.nextFrame.verts p = (q, none)

/-- 45 R300: outside a pass and with the lock free, BEGINFRAME takes the lock, restores the bounds exactly when REINIT_BOUNDS is set,
builds the buckets of "current" and starts at line 0; nothing else changes. -/
def Obligations.BeginFrameStartsThePass : Prop :=
  ∀ (s : State), Inv s → s.fault = none → s.dpass.active = false → s.lock = .free →
    ∃ (ps : List Polygon) (b : List (List Nat)),
      exec .beginFrame s =
        .next { s with
          mem := s.mem.setSlot s.curSlot { s.curFrame with polys := ps }
          bk := some b
          lock := .display
          dpass := { active := true, line := 0 } } ∧
      buildBuckets { s.curFrame with polys := ps } = .ok b ∧
      (s.params.reinitBounds = false → ps = s.curFrame.polys) ∧
      (s.params.reinitBounds = true →
        ps = s.curFrame.polys.map fun p => { p with setup := p.setup.map fun k => { k with cx0 := k.cx0Init, cx1 := k.cx1Init } })

/-- 45 R301: one bucket a display line and no other; each lists, in ascending order, exactly the polygons whose top vertex's screen Y
is at most the line and whose bottom vertex's is at least the line. -/
def Obligations.BucketsListCoveringPolygons : Prop :=
  ∀ (f : Slot) (b : List (List Nat)), buildBuckets f = .ok b →
    b.length = 192 ∧ ∀ (y : Nat) (js : List Nat), b[y]? = some js →
      js.Pairwise (· < ·) ∧
      ∀ j : Nat, j ∈ js ↔ ∃ (p : Polygon) (top bot : Corner), f.polys[j]? = some p ∧
        cornerAt f.verts p.vi.v0 = .ok top ∧ cornerAt f.verts p.vi.v2 = .ok bot ∧
        top.y.toInt ≤ (y : Int) ∧ (y : Int) ≤ bot.y.toInt

/-- 45 R300, R310, R320 and 60 R343: a BEGINFRAME inside a pass and a NEXTLINE or ENDFRAME outside one are refused: the refusal mark
is set and nothing else changes. That the refusal is a mark in a next state is the model's choice (log 9). -/
def Obligations.DisplayMisuseIsRefused : Prop :=
  ∀ (s : State), s.fault = none →
    (s.dpass.active = true → exec .beginFrame s = .next { s with refusals := s.refusals ++ [.nestedBegin] }) ∧
    (s.dpass.active = false →
      exec .nextLine s = .next { s with refusals := s.refusals ++ [.notInPass] } ∧
      exec .endFrame s = .next { s with refusals := s.refusals ++ [.notInPass] })

/-- 45 R320: ENDFRAME inside a pass, at any line, frees the lock and ends the pass; nothing else changes. -/
def Obligations.EndFrameReleasesTheLock : Prop :=
  ∀ (s : State), s.fault = none → s.dpass.active = true →
    exec .endFrame s = .next { s with lock := .free, dpass := { active := false, line := 0 } }

/-- 45 R310, R313, R321: inside a pass and before the last line, NEXTLINE answers the line and its events, polygon by polygon in
the bucket's order; the polygons of the bucket advance their bounds; the cursor moves on by one; nothing else changes. Where the
answer and the events are kept is the model's choice (log 3). -/
def Obligations.NextLineFillsAndAdvances : Prop :=
  ∀ (s : State), Inv s → s.fault = none → s.dpass.active = true → s.dpass.line ≠ 192 →
    ∃ (js : List Nat) (ps : List Polygon) (es : List PixelWrite),
      bucketOf s.bk s.dpass.line = .ok js ∧ ps.length = s.curFrame.polys.length ∧
      (∀ (j : Nat) (p : Polygon), s.curFrame.polys[j]? = some p →
        (j ∈ js → ps[j]? = some (visited s.dpass.line p)) ∧ (j ∉ js → ps[j]? = some p)) ∧
      es = js.flatMap (fun j => ((s.curFrame.polys[j]?).map (polygonEvents s.dpass.line)).getD []) ∧
      exec .nextLine s =
        .next { s with
          mem := s.mem.setSlot s.curSlot { s.curFrame with polys := ps }
          dpass := { active := true, line := s.dpass.line + 1 }
          io := { s.io with out := .line s.dpass.line es, pixels := s.io.pixels ++ es } }

/-- 45 R310, R314: after line 191 NEXTLINE answers END and changes nothing. Where the answer is put is the model's choice (log 3). -/
def Obligations.NextLineAfterTheLastIsEnd : Prop :=
  ∀ (s : State), s.fault = none → s.dpass.active = true → s.dpass.line = 192 →
    exec .nextLine s = .next { s with io := { s.io with out := .endOfPass } }

/-- 45 R311: the events of a span are those of the loop from the truncated left bound to the truncated right bound, ascending, with
the columns off the display skipped. -/
def Obligations.SpanIsTheLoopSkippingOffscreen : Prop :=
  ∀ (debug : List Word) (k : Setup) (attr : Word) (y : Nat),
    let xs := k.cx0.toInt / 4096
    let xe := k.cx1.toInt / 4096
    let loop : List Int := (List.range (xe - xs + 1).toNat).map fun (n : Nat) => xs + (n : Int)
    spanEvents debug k attr y =
      (loop.filter fun x => decide (0 ≤ x ∧ x < 256)).map fun x => { y := y, x := x.toNat, v := Config.pixelValue attr }

/-- 45 R312: the bounds advance by the top-half slopes while the line is above `hy`, else by the bottom-half slopes. -/
def Obligations.BoundsAdvanceByTheSlopes : Prop :=
  ∀ (k : Setup) (y : Nat),
    ((y : Int) < k.hy.toInt →
      advanceBounds k y = { k with cx0 := BitVec.ofInt 32 (k.cx0.toInt + k.dl0.toInt), cx1 := BitVec.ofInt 32 (k.cx1.toInt + k.dr0.toInt) }) ∧
    (¬ (y : Int) < k.hy.toInt →
      advanceBounds k y = { k with cx0 := BitVec.ofInt 32 (k.cx0.toInt + k.dl1.toInt), cx1 := BitVec.ofInt 32 (k.cx1.toInt + k.dr1.toInt) })

/-- 20 R81, 45 R310: the events a step emits lie on the display; they are all of one line, and only a display turn emits any. -/
def Obligations.PixelEventsAreOnScreen : Prop :=
  ∀ (s t : State), passMatchesLock s → step s = .next t →
    ∃ es, t.io.pixels = s.io.pixels ++ es ∧ (es ≠ [] → s.turn = .display) ∧
      ∀ e ∈ es, e.y = s.dpass.line ∧ e.y < 192 ∧ e.x < 256

/-- 40 R140 to R142, R144 to R147, R149, R150: the results of the requests that always have one. That the result is put on an output
field is the model's choice (log 3, log 11). -/
def Obligations.ArithmeticRequestsAnswer : Prop :=
  ∀ (s : State) (a b : Word), s.fault = none →
    let out : Int → Host.Outcome State Fault Refusal := fun n => .next { s with io := { s.io with out := .result (BitVec.ofInt 32 n) } }
    exec (.qadd a b) s = out (a.toInt + b.toInt) ∧
    exec (.qsub a b) s = out (a.toInt - b.toInt) ∧
    exec (.qmul a b) s = out (a.toInt * b.toInt / 4096) ∧
    exec (.qneg a b) s = out (0 - a.toInt) ∧
    exec (.qfromi a b) s = out (a.toInt * 4096) ∧
    exec (.qtoi a b) s = out (a.toInt / 4096) ∧
    exec (.qaddi a b) s = out (a.toInt + (BitVec.ofInt 32 (b.toInt * 4096)).toInt) ∧
    exec (.qlt a b) s = out (if a.toInt < b.toInt then 1 else 0)

/-- 40 R143, R148: a division by a divisor that is not zero answers the quotient rounded toward zero, the low 32 bits of it. That the
result is put on an output field is the model's choice (log 3, log 11). -/
def Obligations.DivisionsRoundTowardZero : Prop :=
  ∀ (s : State) (a b : Word), s.fault = none → b ≠ 0 →
    exec (.qdiv a b) s = .next { s with io := { s.io with out := .result (BitVec.ofInt 32 (Int.tdiv (a.toInt * 4096) b.toInt)) } } ∧
    exec (.qdivi a b) s = .next { s with io := { s.io with out := .result (BitVec.ofInt 32 (Int.tdiv a.toInt b.toInt)) } }

/-- 40 R143, R148, R151, 60 R340: a division by zero raises DIV_ZERO with the dividend. That the record names the request as the
command is the model's choice (log 11). -/
def Obligations.DivisionByZeroIsFatal : Prop :=
  ∀ (s : State) (a : Word), s.fault = none →
    exec (.qdiv a 0) s = .next { s with fault := some { code := .divZero, seq := s.seq, cmd := .qdiv a 0, info := [a.toInt] } } ∧
    exec (.qdivi a 0) s = .next { s with fault := some { code := .divZero, seq := s.seq, cmd := .qdivi a 0, info := [a.toInt] } }

/-- 10 R30, 40 R139: the arithmetic unit is pure: what a request answers depends on the operation and its operands alone, and a
request changes nothing but the answer, or the fault register for a division by zero. -/
def Obligations.ArithmeticUnitIsPure : Prop :=
  ∀ (i : Instr), i.port = .q12alu →
    (∃ r : Word, ∀ s : State, s.fault = none → exec i s = .next { s with io := { s.io with out := .result r } }) ∨
    (∃ n : Int, ∀ s : State, s.fault = none →
      exec i s = .next { s with fault := some { code := .divZero, seq := s.seq, cmd := i, info := [n] } })

/-- 40 R152: the algebraic laws of the Q12 operations, and the ones that do not hold. -/
def Obligations.Q12AlgebraicLaws : Prop :=
  (∀ a b : Word, q12Add a b = q12Add b a ∧ q12Mul a b = q12Mul b a) ∧
  (∀ a b c : Word, q12Add (q12Add a b) c = q12Add a (q12Add b c)) ∧
  (∃ a b c : Word, q12Mul (q12Mul a b) c ≠ q12Mul a (q12Mul b c)) ∧
  (∃ a b c : Word, q12Mul a (q12Add b c) ≠ q12Add (q12Mul a b) (q12Mul a c)) ∧
  (∀ i : Word, -524288 ≤ i.toInt → i.toInt ≤ 524287 → q12ToI (q12FromI i) = i) ∧
  (∀ a i : Word, -2147483648 ≤ a.toInt + i.toInt * 4096 → a.toInt + i.toInt * 4096 ≤ 2147483647 →
    (q12ToI (q12AddI a i)).toInt = (q12ToI a).toInt + i.toInt) ∧
  q12Mul 12288 (q12Quot 524288 12288) = 524286 ∧ q12Mul 12288 (q12Quot 524288 12288) ≠ 524288

/-- 70 R380: the reset values; the consumer waits at its pop, the producer may push and the display may begin a pass. The viewport
is the open parameter VIEWPORT_RESET. -/
def Obligations.ResetValues : Prop :=
  State.reset.vp = Config.viewportReset ∧ State.reset.fc = 0 ∧ State.reset.nextSlot = .zero ∧ State.reset.curSlot = .one ∧
  State.reset.fault = none ∧ State.reset.seq = 0 ∧
  (∀ k, (State.reset.mem.slot k).verts = [] ∧ (State.reset.mem.slot k).polys = []) ∧
  State.reset.bk = none ∧ State.reset.chan = [] ∧ State.reset.lock = .free ∧ State.reset.cphase = .idle ∧
  State.reset.dpass = { active := false, line := 0 } ∧ State.reset.refusals = [] ∧
  State.reset.chan.length < State.reset.params.chanCap ∧ State.reset.beginHolds = false

/-- 70 R381, 45 R300: "current" has no polygons after reset, and no step but a swap gives it any; a pass begun over a "current"
without polygons has 192 empty buckets, and each of its lines draws nothing. Where a line's answer is put is the model's choice
(log 3). -/
def Obligations.PassBeforeFirstSwapIsEmpty : Prop :=
  State.reset.curFrame.polys = [] ∧
  (∀ (s t : State), slotsMatch s → s.curFrame.polys = [] → step s = .next t → s.swapsNow = true ∨ t.curFrame.polys = []) ∧
  (∀ (s : State), s.fault = none → s.dpass.active = false → s.lock = .free → s.curFrame.polys = [] →
    ∃ t, exec .beginFrame s = .next t ∧ t.bk = some (List.replicate 192 []) ∧ t.curFrame.polys = [] ∧
      t.dpass = { active := true, line := 0 }) ∧
  (∀ (s : State), s.fault = none → s.dpass.active = true → s.dpass.line < 192 → s.bk = some (List.replicate 192 []) →
    ∃ t, exec .nextLine s = .next t ∧ t.io.out = .line s.dpass.line [] ∧ t.io.pixels = s.io.pixels ∧ t.bk = s.bk ∧ t.mem = s.mem ∧
      t.dpass = { active := true, line := s.dpass.line + 1 })

/-- The invariant holds after reset (70 R380, 10 R34, R43 to R48). -/
def Obligations.ResetMeetsTheInvariant : Prop := Inv State.reset

/-- 10 R34, R36, R40, R43 to R48, 41 R190 to R206, 43 R259, 44 R283, 45 R300, R301: every step of every agent, in every state that
meets the invariant, keeps it. -/
def Obligations.StepKeepsTheInvariant : Prop :=
  ∀ (s t : State), Inv s → step s = .next t → Inv t

/-- 93 F11 and 41 R183: in a state that meets the invariant and has no fault, every turn has a next state; no read of a value that
does not exist is ever made. The one exception is a reserved selector put to the arithmetic unit alone (30 R120, log 11). -/
def Obligations.EveryTurnHasANextState : Prop :=
  ∀ (s : State), Inv s → s.fault = none →
    (∃ t, step s = .next t) ∨ (s.turn = .unit ∧ step s = .refused .reservedSelector)

/-- 43 R252, 42 R236, 40 R151, 60 R340: SORT_ORDER is never raised, and DIV_ZERO only by a request put to the arithmetic unit alone. -/
def Obligations.UnreachableFaultsStayUnreached : Prop :=
  ∀ (s t : State), Inv s → step s = .next t → ∀ r, t.fault = some r →
    r.code ≠ .sortOrder ∧ (r.code = .divZero → s.turn = .unit)

/-- 10 R38, 60 R341: a fault an instruction raises records the commands completed before it and the instruction itself, and the
instruction is not counted as completed. -/
def Obligations.FaultRecordNamesItsCommand : Prop :=
  ∀ (i : Instr) (s t : State), exec i s = .next t →
    t.fault = none ∨ ∃ (code : FaultCode) (info : List Int),
      t.fault = some { code := code, seq := s.seq, cmd := i, info := info } ∧ t.seq = s.seq

/-- 60 R343: the refusal mark is kept: no step takes a refusal back. -/
def Obligations.RefusalMarkIsKept : Prop :=
  ∀ (s t : State), step s = .next t → s.refusals <+: t.refusals

/-- 10 R31, 41 R182: a step counts at most one command, and only the consumer's. -/
def Obligations.SeqCountsCompletedCommands : Prop :=
  ∀ (s t : State), step s = .next t → t.seq = s.seq ∨ (t.seq = s.seq + 1 ∧ s.turn = .consumer)

/-- 20 R87, 41 R180, R181: the channel changes only by a push at its end, by the producer, and a pop at its head, by the consumer. -/
def Obligations.ChannelIsFifo : Prop :=
  ∀ (s t : State), step s = .next t →
    t.chan = s.chan ∨
    (s.turn = .producer ∧ s.chan.length < s.params.chanCap ∧ ∃ c : Instr, c.port = .cmd ∧ t.chan = s.chan ++ [c]) ∨
    (s.turn = .consumer ∧ ∃ c : Instr, s.chan = c :: t.chan)

/-- 20 R88, 10 R42: executing a command, for SWAPBUFFERS its first phase, never touches "current", the buckets, the pass, the lock or
the slot roles. The swap's critical section, which does exchange the roles (44 R282) and which R42 excepts, is a step of its own
and not part of exec (log 17): SwapCriticalSection states it. -/
def Obligations.CommandsLeaveTheDisplaySideAlone : Prop :=
  ∀ (i : Instr) (s t : State), i.port = .cmd → slotsMatch s → exec i s = .next t →
    t.curFrame = s.curFrame ∧ t.curSlot = s.curSlot ∧ t.nextSlot = s.nextSlot ∧ t.bk = s.bk ∧ t.dpass = s.dpass ∧ t.lock = s.lock ∧ t.fc = s.fc ∧ t.io = s.io

/-- 45 R321: a display request inside a pass writes, of the block's memories, only the bounds of the polygons of "current", and
never touches "next" or a vertex, nor any register of the consumer's. -/
def Obligations.DisplayWritesOnlyBounds : Prop :=
  ∀ (i : Instr) (s t : State), i.port = .dport → slotsMatch s → exec i s = .next t →
    t.nextFrame = s.nextFrame ∧ t.curFrame.verts = s.curFrame.verts ∧
    t.curFrame.polys.map (fun p => (p.vi, p.attr, p.setup.map fun k => { k with cx0 := 0, cx1 := 0 })) =
      s.curFrame.polys.map (fun p => (p.vi, p.attr, p.setup.map fun k => { k with cx0 := 0, cx1 := 0 })) ∧
    t.vp = s.vp ∧ t.seq = s.seq ∧ t.fc = s.fc ∧ t.nextSlot = s.nextSlot ∧ t.curSlot = s.curSlot ∧ t.chan = s.chan ∧
    t.cphase = s.cphase ∧ t.fault = s.fault ∧ t.params = s.params

/-- 45 R314, 70 R397: the cursor only moves on by one line, in a step that answers exactly the line it leaves, or goes back to 0 where
a pass begins or ends. -/
def Obligations.CursorVisitsLinesInOrder : Prop :=
  ∀ (s t : State), step s = .next t →
    t.dpass.line = s.dpass.line ∨
    (t.dpass.line = s.dpass.line + 1 ∧ s.turn = .display ∧ s.dpass.active = true ∧ t.dpass.active = true ∧
      ∃ es, t.io.out = .line s.dpass.line es) ∨
    (t.dpass.line = 0 ∧ s.turn = .display ∧ t.dpass.active ≠ s.dpass.active)

/-- 10 R49: the parameters are no state: no step changes them. -/
def Obligations.ParametersNeverChange : Prop :=
  ∀ (s t : State), step s = .next t → t.params = s.params

/-- 60 R353, R352, 41 R180, R181: in a weakly fair run an agent that is able to step has a turn, and is still able to step when it
has it; for a swap that waits, as long as the lock stays free, since nothing bounds how long the display holds it. An agent
whose turn it is and that is not able to step changes nothing. What counts as able is the model's reading (log 27). -/
def Obligations.FairAgentsTakeTheirTurn : Prop :=
  (∀ (s : State), s.fault = none → s.canStep s.turn = false → step s = .next s.beginStep) ∧
  (∀ (r : Nat → State), isRun r → weaklyFair r → ∀ (n : Nat), ∀ t ∈ agents, (r n).canStep t = true →
    (t = .consumer → (r n).cphase = .swapWait → ∀ m, n ≤ m → (r m).lock = .free) →
      ∃ m, n ≤ m ∧ (r m).turn = t ∧ (r m).canStep t = true ∧ ∀ k, n ≤ k → k < m → (r k).turn ≠ t)
end

