-- ==== Sys2Proof/Laws/Decode.lean ====
section
/-! SUPPORT. What the decoders answer, said once (30 R111 to R121). -/

namespace Sys2Proof

/-- An instruction's words decode to it at its own port, whatever follows (30 R111, R113, R114). -/
theorem decode_encode (i : Instr) (rest : List Word) : decode i.port (encode i ++ rest) = .ok i rest := by
  cases i <;> rfl

/-- What the command decoder accepts is a command (30 R118). -/
theorem decodeCommand_port {ws rest : List Word} {i : Instr} (h : decodeCommand ws = .ok i rest) : i.port = .cmd := by
  unfold decodeCommand at h
  split at h
  · cases h
  · split at h
    · cases h
    · repeat' split at h
      all_goals first | (cases h; rfl) | cases h

/-- What the display port's decoder accepts is a display request (30 R119). -/
theorem decodeRequest_port {ws rest : List Word} {i : Instr} (h : decodeRequest ws = .ok i rest) : i.port = .dport := by
  unfold decodeRequest at h
  split at h
  · cases h
  · split at h
    · cases h
    · split at h <;> first | (cases h; rfl) | cases h

/-- A selector's operation is one of the arithmetic unit's ten (30 R114). -/
theorem unitInstr_port {n : Nat} {a b : Word} {i : Instr} (h : unitInstr n a b = some i) : i.port = .q12alu := by
  unfold unitInstr at h
  split at h <;> first | (cases h; rfl) | cases h

/-- What the arithmetic unit's decoder accepts is an arithmetic request (30 R120). -/
theorem decodeUnit_port {ws rest : List Word} {i : Instr} (h : decodeUnit ws = .ok i rest) : i.port = .q12alu := by
  unfold decodeUnit at h
  split at h
  · cases h
  · split at h
    · cases h
    · split at h
      · split at h
        · rename_i hi
          cases h
          exact unitInstr_port hi
        · cases h
      · cases h

/-- What a port's decoder accepts is well-formed at that port (30 R110). -/
theorem decode_wellFormedAt {p : Port} {ws rest : List Word} {i : Instr} (h : decode p ws = .ok i rest) :
    i.wellFormedAt p = true := by
  have hp : i.port = p := by
    cases p
    · exact decodeCommand_port h
    · exact decodeRequest_port h
    · exact decodeUnit_port h
  simp [Instr.wellFormedAt, hp]

end Sys2Proof
end

