-- ==== Sys2Proof/Laws/State.lean ====
section
/-! SUPPORT. One small lemma per field per named update of the state, so that no proof unfolds a record update. -/

namespace Sys2Proof.Machine

variable (s : State)

@[simp] theorem State.complete_params : (s.complete).params = s.params := rfl
@[simp] theorem State.complete_seq : (s.complete).seq = s.seq + 1 := rfl
@[simp] theorem State.complete_vp : (s.complete).vp = s.vp := rfl
@[simp] theorem State.complete_fc : (s.complete).fc = s.fc := rfl
@[simp] theorem State.complete_nextSlot : (s.complete).nextSlot = s.nextSlot := rfl
@[simp] theorem State.complete_curSlot : (s.complete).curSlot = s.curSlot := rfl
@[simp] theorem State.complete_fault : (s.complete).fault = s.fault := rfl
@[simp] theorem State.complete_mem : (s.complete).mem = s.mem := rfl
@[simp] theorem State.complete_bk : (s.complete).bk = s.bk := rfl
@[simp] theorem State.complete_chan : (s.complete).chan = s.chan := rfl
@[simp] theorem State.complete_lock : (s.complete).lock = s.lock := rfl
@[simp] theorem State.complete_cphase : (s.complete).cphase = s.cphase := rfl
@[simp] theorem State.complete_dpass : (s.complete).dpass = s.dpass := rfl
@[simp] theorem State.complete_refusals : (s.complete).refusals = s.refusals := rfl
@[simp] theorem State.complete_io : (s.complete).io = s.io := rfl

@[simp] theorem State.raise_params (cmd : Instr) (f : Fatal) : (s.raise cmd f).params = s.params := rfl
@[simp] theorem State.raise_seq (cmd : Instr) (f : Fatal) : (s.raise cmd f).seq = s.seq := rfl
@[simp] theorem State.raise_vp (cmd : Instr) (f : Fatal) : (s.raise cmd f).vp = s.vp := rfl
@[simp] theorem State.raise_fc (cmd : Instr) (f : Fatal) : (s.raise cmd f).fc = s.fc := rfl
@[simp] theorem State.raise_nextSlot (cmd : Instr) (f : Fatal) : (s.raise cmd f).nextSlot = s.nextSlot := rfl
@[simp] theorem State.raise_curSlot (cmd : Instr) (f : Fatal) : (s.raise cmd f).curSlot = s.curSlot := rfl
@[simp] theorem State.raise_fault (cmd : Instr) (f : Fatal) : (s.raise cmd f).fault = some { code := f.code, seq := s.seq, cmd := cmd, info := f.info } := rfl
@[simp] theorem State.raise_mem (cmd : Instr) (f : Fatal) : (s.raise cmd f).mem = s.mem := rfl
@[simp] theorem State.raise_bk (cmd : Instr) (f : Fatal) : (s.raise cmd f).bk = s.bk := rfl
@[simp] theorem State.raise_chan (cmd : Instr) (f : Fatal) : (s.raise cmd f).chan = s.chan := rfl
@[simp] theorem State.raise_lock (cmd : Instr) (f : Fatal) : (s.raise cmd f).lock = s.lock := rfl
@[simp] theorem State.raise_cphase (cmd : Instr) (f : Fatal) : (s.raise cmd f).cphase = s.cphase := rfl
@[simp] theorem State.raise_dpass (cmd : Instr) (f : Fatal) : (s.raise cmd f).dpass = s.dpass := rfl
@[simp] theorem State.raise_refusals (cmd : Instr) (f : Fatal) : (s.raise cmd f).refusals = s.refusals := rfl
@[simp] theorem State.raise_io (cmd : Instr) (f : Fatal) : (s.raise cmd f).io = s.io := rfl

@[simp] theorem State.refuse_params (v : Verdict) : (s.refuse v).params = s.params := rfl
@[simp] theorem State.refuse_seq (v : Verdict) : (s.refuse v).seq = s.seq := rfl
@[simp] theorem State.refuse_vp (v : Verdict) : (s.refuse v).vp = s.vp := rfl
@[simp] theorem State.refuse_fc (v : Verdict) : (s.refuse v).fc = s.fc := rfl
@[simp] theorem State.refuse_nextSlot (v : Verdict) : (s.refuse v).nextSlot = s.nextSlot := rfl
@[simp] theorem State.refuse_curSlot (v : Verdict) : (s.refuse v).curSlot = s.curSlot := rfl
@[simp] theorem State.refuse_fault (v : Verdict) : (s.refuse v).fault = s.fault := rfl
@[simp] theorem State.refuse_mem (v : Verdict) : (s.refuse v).mem = s.mem := rfl
@[simp] theorem State.refuse_bk (v : Verdict) : (s.refuse v).bk = s.bk := rfl
@[simp] theorem State.refuse_chan (v : Verdict) : (s.refuse v).chan = s.chan := rfl
@[simp] theorem State.refuse_lock (v : Verdict) : (s.refuse v).lock = s.lock := rfl
@[simp] theorem State.refuse_cphase (v : Verdict) : (s.refuse v).cphase = s.cphase := rfl
@[simp] theorem State.refuse_dpass (v : Verdict) : (s.refuse v).dpass = s.dpass := rfl
@[simp] theorem State.refuse_refusals (v : Verdict) : (s.refuse v).refusals = s.refusals ++ [v] := rfl
@[simp] theorem State.refuse_io (v : Verdict) : (s.refuse v).io = s.io := rfl

@[simp] theorem State.answer_params (o : Output) : (s.answer o).params = s.params := rfl
@[simp] theorem State.answer_seq (o : Output) : (s.answer o).seq = s.seq := rfl
@[simp] theorem State.answer_vp (o : Output) : (s.answer o).vp = s.vp := rfl
@[simp] theorem State.answer_fc (o : Output) : (s.answer o).fc = s.fc := rfl
@[simp] theorem State.answer_nextSlot (o : Output) : (s.answer o).nextSlot = s.nextSlot := rfl
@[simp] theorem State.answer_curSlot (o : Output) : (s.answer o).curSlot = s.curSlot := rfl
@[simp] theorem State.answer_fault (o : Output) : (s.answer o).fault = s.fault := rfl
@[simp] theorem State.answer_mem (o : Output) : (s.answer o).mem = s.mem := rfl
@[simp] theorem State.answer_bk (o : Output) : (s.answer o).bk = s.bk := rfl
@[simp] theorem State.answer_chan (o : Output) : (s.answer o).chan = s.chan := rfl
@[simp] theorem State.answer_lock (o : Output) : (s.answer o).lock = s.lock := rfl
@[simp] theorem State.answer_cphase (o : Output) : (s.answer o).cphase = s.cphase := rfl
@[simp] theorem State.answer_dpass (o : Output) : (s.answer o).dpass = s.dpass := rfl
@[simp] theorem State.answer_refusals (o : Output) : (s.answer o).refusals = s.refusals := rfl
@[simp] theorem State.answer_io (o : Output) : (s.answer o).io = { s.io with out := o } := rfl

@[simp] theorem State.emit_params (es : List PixelWrite) : (s.emit es).params = s.params := rfl
@[simp] theorem State.emit_seq (es : List PixelWrite) : (s.emit es).seq = s.seq := rfl
@[simp] theorem State.emit_vp (es : List PixelWrite) : (s.emit es).vp = s.vp := rfl
@[simp] theorem State.emit_fc (es : List PixelWrite) : (s.emit es).fc = s.fc := rfl
@[simp] theorem State.emit_nextSlot (es : List PixelWrite) : (s.emit es).nextSlot = s.nextSlot := rfl
@[simp] theorem State.emit_curSlot (es : List PixelWrite) : (s.emit es).curSlot = s.curSlot := rfl
@[simp] theorem State.emit_fault (es : List PixelWrite) : (s.emit es).fault = s.fault := rfl
@[simp] theorem State.emit_mem (es : List PixelWrite) : (s.emit es).mem = s.mem := rfl
@[simp] theorem State.emit_bk (es : List PixelWrite) : (s.emit es).bk = s.bk := rfl
@[simp] theorem State.emit_chan (es : List PixelWrite) : (s.emit es).chan = s.chan := rfl
@[simp] theorem State.emit_lock (es : List PixelWrite) : (s.emit es).lock = s.lock := rfl
@[simp] theorem State.emit_cphase (es : List PixelWrite) : (s.emit es).cphase = s.cphase := rfl
@[simp] theorem State.emit_dpass (es : List PixelWrite) : (s.emit es).dpass = s.dpass := rfl
@[simp] theorem State.emit_refusals (es : List PixelWrite) : (s.emit es).refusals = s.refusals := rfl
@[simp] theorem State.emit_io (es : List PixelWrite) : (s.emit es).io = { s.io with pixels := s.io.pixels ++ es } := rfl

@[simp] theorem State.setNextFrame_params (f : Slot) : (s.setNextFrame f).params = s.params := rfl
@[simp] theorem State.setNextFrame_seq (f : Slot) : (s.setNextFrame f).seq = s.seq := rfl
@[simp] theorem State.setNextFrame_vp (f : Slot) : (s.setNextFrame f).vp = s.vp := rfl
@[simp] theorem State.setNextFrame_fc (f : Slot) : (s.setNextFrame f).fc = s.fc := rfl
@[simp] theorem State.setNextFrame_nextSlot (f : Slot) : (s.setNextFrame f).nextSlot = s.nextSlot := rfl
@[simp] theorem State.setNextFrame_curSlot (f : Slot) : (s.setNextFrame f).curSlot = s.curSlot := rfl
@[simp] theorem State.setNextFrame_fault (f : Slot) : (s.setNextFrame f).fault = s.fault := rfl
@[simp] theorem State.setNextFrame_mem (f : Slot) : (s.setNextFrame f).mem = s.mem.setSlot s.nextSlot f := rfl
@[simp] theorem State.setNextFrame_bk (f : Slot) : (s.setNextFrame f).bk = s.bk := rfl
@[simp] theorem State.setNextFrame_chan (f : Slot) : (s.setNextFrame f).chan = s.chan := rfl
@[simp] theorem State.setNextFrame_lock (f : Slot) : (s.setNextFrame f).lock = s.lock := rfl
@[simp] theorem State.setNextFrame_cphase (f : Slot) : (s.setNextFrame f).cphase = s.cphase := rfl
@[simp] theorem State.setNextFrame_dpass (f : Slot) : (s.setNextFrame f).dpass = s.dpass := rfl
@[simp] theorem State.setNextFrame_refusals (f : Slot) : (s.setNextFrame f).refusals = s.refusals := rfl
@[simp] theorem State.setNextFrame_io (f : Slot) : (s.setNextFrame f).io = s.io := rfl

@[simp] theorem State.setCurFrame_params (f : Slot) : (s.setCurFrame f).params = s.params := rfl
@[simp] theorem State.setCurFrame_seq (f : Slot) : (s.setCurFrame f).seq = s.seq := rfl
@[simp] theorem State.setCurFrame_vp (f : Slot) : (s.setCurFrame f).vp = s.vp := rfl
@[simp] theorem State.setCurFrame_fc (f : Slot) : (s.setCurFrame f).fc = s.fc := rfl
@[simp] theorem State.setCurFrame_nextSlot (f : Slot) : (s.setCurFrame f).nextSlot = s.nextSlot := rfl
@[simp] theorem State.setCurFrame_curSlot (f : Slot) : (s.setCurFrame f).curSlot = s.curSlot := rfl
@[simp] theorem State.setCurFrame_fault (f : Slot) : (s.setCurFrame f).fault = s.fault := rfl
@[simp] theorem State.setCurFrame_mem (f : Slot) : (s.setCurFrame f).mem = s.mem.setSlot s.curSlot f := rfl
@[simp] theorem State.setCurFrame_bk (f : Slot) : (s.setCurFrame f).bk = s.bk := rfl
@[simp] theorem State.setCurFrame_chan (f : Slot) : (s.setCurFrame f).chan = s.chan := rfl
@[simp] theorem State.setCurFrame_lock (f : Slot) : (s.setCurFrame f).lock = s.lock := rfl
@[simp] theorem State.setCurFrame_cphase (f : Slot) : (s.setCurFrame f).cphase = s.cphase := rfl
@[simp] theorem State.setCurFrame_dpass (f : Slot) : (s.setCurFrame f).dpass = s.dpass := rfl
@[simp] theorem State.setCurFrame_refusals (f : Slot) : (s.setCurFrame f).refusals = s.refusals := rfl
@[simp] theorem State.setCurFrame_io (f : Slot) : (s.setCurFrame f).io = s.io := rfl

@[simp] theorem State.beginStep_params : (s.beginStep).params = s.params := rfl
@[simp] theorem State.beginStep_seq : (s.beginStep).seq = s.seq := rfl
@[simp] theorem State.beginStep_vp : (s.beginStep).vp = s.vp := rfl
@[simp] theorem State.beginStep_fc : (s.beginStep).fc = s.fc := rfl
@[simp] theorem State.beginStep_nextSlot : (s.beginStep).nextSlot = s.nextSlot := rfl
@[simp] theorem State.beginStep_curSlot : (s.beginStep).curSlot = s.curSlot := rfl
@[simp] theorem State.beginStep_fault : (s.beginStep).fault = s.fault := rfl
@[simp] theorem State.beginStep_mem : (s.beginStep).mem = s.mem := rfl
@[simp] theorem State.beginStep_bk : (s.beginStep).bk = s.bk := rfl
@[simp] theorem State.beginStep_chan : (s.beginStep).chan = s.chan := rfl
@[simp] theorem State.beginStep_lock : (s.beginStep).lock = s.lock := rfl
@[simp] theorem State.beginStep_cphase : (s.beginStep).cphase = s.cphase := rfl
@[simp] theorem State.beginStep_dpass : (s.beginStep).dpass = s.dpass := rfl
@[simp] theorem State.beginStep_refusals : (s.beginStep).refusals = s.refusals := rfl
@[simp] theorem State.beginStep_io : (s.beginStep).io = { s.io with sched := s.io.sched.tail, tick := s.io.tick + 1, out := .none } := rfl

@[simp] theorem State.takeCmd_params (rest : List Word) : (s.takeCmd rest).params = s.params := rfl
@[simp] theorem State.takeCmd_seq (rest : List Word) : (s.takeCmd rest).seq = s.seq := rfl
@[simp] theorem State.takeCmd_vp (rest : List Word) : (s.takeCmd rest).vp = s.vp := rfl
@[simp] theorem State.takeCmd_fc (rest : List Word) : (s.takeCmd rest).fc = s.fc := rfl
@[simp] theorem State.takeCmd_nextSlot (rest : List Word) : (s.takeCmd rest).nextSlot = s.nextSlot := rfl
@[simp] theorem State.takeCmd_curSlot (rest : List Word) : (s.takeCmd rest).curSlot = s.curSlot := rfl
@[simp] theorem State.takeCmd_fault (rest : List Word) : (s.takeCmd rest).fault = s.fault := rfl
@[simp] theorem State.takeCmd_mem (rest : List Word) : (s.takeCmd rest).mem = s.mem := rfl
@[simp] theorem State.takeCmd_bk (rest : List Word) : (s.takeCmd rest).bk = s.bk := rfl
@[simp] theorem State.takeCmd_chan (rest : List Word) : (s.takeCmd rest).chan = s.chan := rfl
@[simp] theorem State.takeCmd_lock (rest : List Word) : (s.takeCmd rest).lock = s.lock := rfl
@[simp] theorem State.takeCmd_cphase (rest : List Word) : (s.takeCmd rest).cphase = s.cphase := rfl
@[simp] theorem State.takeCmd_dpass (rest : List Word) : (s.takeCmd rest).dpass = s.dpass := rfl
@[simp] theorem State.takeCmd_refusals (rest : List Word) : (s.takeCmd rest).refusals = s.refusals := rfl
@[simp] theorem State.takeCmd_io (rest : List Word) : (s.takeCmd rest).io = { s.io with cmdIn := rest, cmdPos := s.io.cmdPos + (s.io.cmdIn.length - rest.length) } := rfl

@[simp] theorem State.push_params (c : Instr) : (s.push c).params = s.params := rfl
@[simp] theorem State.push_seq (c : Instr) : (s.push c).seq = s.seq := rfl
@[simp] theorem State.push_vp (c : Instr) : (s.push c).vp = s.vp := rfl
@[simp] theorem State.push_fc (c : Instr) : (s.push c).fc = s.fc := rfl
@[simp] theorem State.push_nextSlot (c : Instr) : (s.push c).nextSlot = s.nextSlot := rfl
@[simp] theorem State.push_curSlot (c : Instr) : (s.push c).curSlot = s.curSlot := rfl
@[simp] theorem State.push_fault (c : Instr) : (s.push c).fault = s.fault := rfl
@[simp] theorem State.push_mem (c : Instr) : (s.push c).mem = s.mem := rfl
@[simp] theorem State.push_bk (c : Instr) : (s.push c).bk = s.bk := rfl
@[simp] theorem State.push_chan (c : Instr) : (s.push c).chan = s.chan ++ [c] := rfl
@[simp] theorem State.push_lock (c : Instr) : (s.push c).lock = s.lock := rfl
@[simp] theorem State.push_cphase (c : Instr) : (s.push c).cphase = s.cphase := rfl
@[simp] theorem State.push_dpass (c : Instr) : (s.push c).dpass = s.dpass := rfl
@[simp] theorem State.push_refusals (c : Instr) : (s.push c).refusals = s.refusals := rfl
@[simp] theorem State.push_io (c : Instr) : (s.push c).io = s.io := rfl

@[simp] theorem swapCommit_params : (swapCommit s).params = s.params := rfl
@[simp] theorem swapCommit_seq : (swapCommit s).seq = s.seq + 1 := rfl
@[simp] theorem swapCommit_vp : (swapCommit s).vp = s.vp := rfl
@[simp] theorem swapCommit_fc : (swapCommit s).fc = s.fc + 1 := rfl
@[simp] theorem swapCommit_nextSlot : (swapCommit s).nextSlot = slotOfCounter (s.fc + 1) := rfl
@[simp] theorem swapCommit_curSlot : (swapCommit s).curSlot = s.nextSlot := rfl
@[simp] theorem swapCommit_fault : (swapCommit s).fault = s.fault := rfl
@[simp] theorem swapCommit_mem : (swapCommit s).mem = s.mem.setSlot (slotOfCounter (s.fc + 1)) Slot.empty := rfl
@[simp] theorem swapCommit_bk : (swapCommit s).bk = s.bk := rfl
@[simp] theorem swapCommit_chan : (swapCommit s).chan = s.chan := rfl
@[simp] theorem swapCommit_lock : (swapCommit s).lock = .free := rfl
@[simp] theorem swapCommit_cphase : (swapCommit s).cphase = .idle := rfl
@[simp] theorem swapCommit_dpass : (swapCommit s).dpass = s.dpass := rfl
@[simp] theorem swapCommit_refusals : (swapCommit s).refusals = s.refusals := rfl
@[simp] theorem swapCommit_io : (swapCommit s).io = s.io := rfl

end Sys2Proof.Machine
end

