-- ==== Sys2Proof/Laws/Memory.lean ====
section
/-! SUPPORT. The laws of the frame storage: a slot reads back what was written to it, the other slot is left alone, and every memory
operation keeps the canonical form. -/

namespace Sys2Proof.Machine

@[simp] theorem Memory.slot_setSlot_same (m : Memory) (k : SlotId) (f : Slot) : (m.setSlot k f).slot k = f := by cases k <;> rfl

theorem Memory.slot_setSlot_other (m : Memory) {j k : SlotId} (h : j ≠ k) (f : Slot) : (m.setSlot k f).slot j = m.slot j := by
  cases j <;> cases k <;> first | rfl | exact absurd rfl h

@[simp] theorem Memory.setSlot_setSlot (m : Memory) (k : SlotId) (f g : Slot) : (m.setSlot k f).setSlot k g = m.setSlot k g := by
  cases k <;> rfl

@[simp] theorem SlotId.other_ne (k : SlotId) : k.other ≠ k := by cases k <;> simp [SlotId.other]

@[simp] theorem SlotId.ne_other (k : SlotId) : k ≠ k.other := by cases k <;> simp [SlotId.other]

@[simp] theorem SlotId.other_other (k : SlotId) : k.other.other = k := by cases k <;> rfl

theorem SlotId.eq_other_of_ne {j k : SlotId} (h : j ≠ k) : j = k.other := by
  cases j <;> cases k <;> first | rfl | exact absurd rfl h

/-- The counter's parity changes at every increment (44 R283). -/
theorem slotOfCounter_succ (fc : Word) : slotOfCounter (fc + 1) = (slotOfCounter fc).other := by
  have h : (fc + 1).getLsbD 0 = !fc.getLsbD 0 := by
    rw [BitVec.getLsbD_add (by decide)]
    simp
  simp only [slotOfCounter, h]
  cases fc.getLsbD 0 <;> rfl

@[simp] theorem State.nextFrame_setNextFrame (s : State) (f : Slot) : (s.setNextFrame f).nextFrame = f := by
  simp [State.nextFrame]

@[simp] theorem State.curFrame_setCurFrame (s : State) (f : Slot) : (s.setCurFrame f).curFrame = f := by
  simp [State.curFrame]

theorem State.curFrame_setNextFrame (s : State) (h : s.curSlot ≠ s.nextSlot) (f : Slot) :
    (s.setNextFrame f).curFrame = s.curFrame := by
  simp [State.curFrame, Memory.slot_setSlot_other _ h]

theorem State.nextFrame_setCurFrame (s : State) (h : s.nextSlot ≠ s.curSlot) (f : Slot) :
    (s.setCurFrame f).nextFrame = s.nextFrame := by
  simp [State.nextFrame, Memory.slot_setSlot_other _ h]

theorem Slot.wf_iff (f : Slot) : f.wf = true ↔ f.verts.length ≤ Config.vcap ∧ f.polys.length ≤ Config.pcap := by
  simp [Slot.wf]

theorem Memory.wf_iff (m : Memory) : m.wf = true ↔ ∀ k, (m.slot k).wf = true := by
  constructor
  · intro h k
    simp only [Memory.wf, Bool.and_eq_true] at h
    cases k
    · exact h.1
    · exact h.2
  · intro h
    simp only [Memory.wf, Bool.and_eq_true]
    exact ⟨h .zero, h .one⟩

@[simp] theorem Slot.wf_empty : Slot.empty.wf = true := by decide

/-- Replacing a slot by one within its capacities keeps the memory's canonical form. -/
theorem Memory.wf_setSlot {m : Memory} (hm : m.wf = true) (k : SlotId) {f : Slot} (hf : f.wf = true) : (m.setSlot k f).wf = true := by
  rw [Memory.wf_iff] at hm ⊢
  intro j
  by_cases h : j = k
  · subst h; simpa using hf
  · rw [Memory.slot_setSlot_other _ h]; exact hm j

/-- Appending a vertex to an array that is not full keeps the slot within its capacities (41 R190). -/
theorem Slot.wf_pushVertex {f : Slot} (hf : f.wf = true) (hn : f.verts.length ≠ Config.vcap) (e : Vertex) :
    (f.pushVertex e).wf = true := by
  rw [Slot.wf_iff] at hf ⊢
  simp only [Slot.pushVertex, List.length_append, List.length_cons, List.length_nil]
  omega

/-- Appending polygons that fit keeps the slot within its capacities (41 R206). -/
theorem Slot.wf_pushPolygons {f : Slot} (hf : f.wf = true) (ps : List Polygon) (hn : f.polys.length + ps.length ≤ Config.pcap) :
    (f.pushPolygons ps).wf = true := by
  rw [Slot.wf_iff] at hf ⊢
  simp only [Slot.pushPolygons, List.length_append]
  omega

/-- Replacing records without changing the arrays' lengths keeps the slot within its capacities. -/
theorem Slot.wf_of_lengths {f g : Slot} (hf : f.wf = true) (hv : g.verts.length = f.verts.length)
    (hp : g.polys.length = f.polys.length) : g.wf = true := by
  rw [Slot.wf_iff] at hf ⊢
  omega

/-- The memory after reset is in canonical form. -/
theorem reset_memory_wf : State.reset.mem.wf = true := by decide

end Sys2Proof.Machine
end

