-- ==== Sys2Proof/Laws/Q12.lean ====
section
/-! SUPPORT. What the Q12 operations answer, as integers. -/

namespace Sys2Proof.Machine

/-- A result that fits is kept exactly (40 R150). -/
theorem wrap32_toInt {n : Int} (h1 : -(2 ^ 31) ≤ n) (h2 : n < 2 ^ 31) : (wrap32 n).toInt = n := by
  rw [wrap32, BitVec.toInt_ofInt]
  exact Int.bmod_eq_of_le (by omega) (by omega)

/-- Every word is an Int32. -/
theorem word_toInt_bounds (a : Word) : -(2 ^ 31) ≤ a.toInt ∧ a.toInt < 2 ^ 31 :=
  ⟨BitVec.le_toInt a, BitVec.toInt_lt⟩

/-- Reading an Int32 back from a word gives the word. -/
@[simp] theorem wrap32_of_toInt (a : Word) : wrap32 a.toInt = a := by simp [wrap32]

/-- QTOI is the floor of a Q12 value, as an integer (40 R146). -/
theorem q12ToI_toInt (a : Word) : (q12ToI a).toInt = a.toInt / 4096 := by
  have h := word_toInt_bounds a
  rw [q12ToI, shiftDown12, q12One]
  exact wrap32_toInt (by omega) (by omega)

/-- QTOI answers an integer from -524288 to 524287 (40 R146). -/
theorem q12ToI_range (a : Word) : -524288 ≤ (q12ToI a).toInt ∧ (q12ToI a).toInt ≤ 524287 := by
  have h := word_toInt_bounds a
  rw [q12ToI_toInt]
  omega

/-- The halving never divides by zero (40 R148). -/
@[simp] theorem q12DivI_two (a : Word) : q12DivI a 2#32 = .ok (q12QuotI a 2#32) := by
  rw [q12DivI, if_neg (by decide)]

/-- A Q12 division whose divisor is not zero has a result (40 R143). -/
theorem q12Div_of_ne_zero (a : Word) {b : Word} (h : b ≠ 0) : q12Div a b = .ok (q12Quot a b) := by
  rw [q12Div, if_neg h]

end Sys2Proof.Machine
end

