-- ==== Sys2Proof/Laws/Setup.lean ====
section
/-! SUPPORT. What the triangle sorter and polygon setup can do, said once (43 R250 to R259). -/

namespace Sys2Proof.Machine

/-- A triple with a function applied to each value. -/
def Triple.map {α β : Type} (f : α → β) (t : Triple α) : Triple β := { v0 := f t.v0, v1 := f t.v1, v2 := f t.v2 }

/-- The three values in slot order. -/
def Triple.toList {α : Type} (t : Triple α) : List α := [t.v0, t.v1, t.v2]

@[simp] theorem Triple.get_map {α β : Type} (f : α → β) (t : Triple α) (k : Pos) : (t.map f).get k = f (t.get k) := by
  cases k <;> rfl

theorem Triple.set_map {α β : Type} (f : α → β) (t : Triple α) (k : Pos) (a : α) : (t.set k a).map f = (t.map f).set k (f a) := by
  cases k <;> rfl

theorem Triple.set_get {α : Type} (t : Triple α) (k : Pos) : t.set k (t.get k) = t := by cases k <;> rfl

/-- One compare-and-swap only moves values. -/
theorem compareSwap_perm {α : Type} (gt : α → α → Bool) (t : Triple α) (ab : Pos × Pos) :
    (compareSwap gt t ab).toList.Perm t.toList := by
  obtain ⟨a, b⟩ := ab
  unfold compareSwap
  split
  · cases a <;> cases b <;> simp only [Triple.get, Triple.set, Triple.toList]
    · exact .refl _
    · exact .swap _ _ _
    · exact ((List.Perm.swap _ _ _).trans (.cons _ (.swap _ _ _))).trans (.swap _ _ _)
    · exact .swap _ _ _
    · exact .refl _
    · exact .cons _ (.swap _ _ _)
    · exact ((List.Perm.swap _ _ _).trans (.cons _ (.swap _ _ _))).trans (.swap _ _ _)
    · exact .cons _ (.swap _ _ _)
    · exact .refl _
  · exact .refl _

/-- The sorter only moves values: the sorted triple holds the same three (43 R251). -/
theorem sortTriple_perm {α : Type} (gt : α → α → Bool) (net : List (Pos × Pos)) (t : Triple α) :
    (sortTriple gt net t).toList.Perm t.toList := by
  unfold sortTriple
  induction net generalizing t with
  | nil => exact .refl _
  | cons ab net ih => exact (ih _).trans (compareSwap_perm gt t ab)

/-- A condition of all three values holds of the sorted three. -/
theorem sortTriple_all {α : Type} {P : α → Prop} (gt : α → α → Bool) (net : List (Pos × Pos)) {t : Triple α}
    (h : ∀ a ∈ t.toList, P a) : ∀ a ∈ (sortTriple gt net t).toList, P a :=
  fun a ha => h a ((sortTriple_perm gt net t).mem_iff.mp ha)

/-- The truth values of "above a threshold": sorting them is what sorting the values does to them. -/
theorem compareSwap_threshold {α : Type} (f : α → Int) (h : Int) (t : Triple α) (ab : Pos × Pos) :
    (compareSwap (fun a b => decide (f a > f b)) t ab).map (fun a => decide (h < f a)) =
      compareSwap (fun a b => a && !b) (t.map fun a => decide (h < f a)) ab := by
  obtain ⟨a, b⟩ := ab
  simp only [compareSwap, Triple.get_map, decide_eq_true_eq, Bool.and_eq_true, Bool.not_eq_true', decide_eq_false_iff_not]
  by_cases hg : f (t.get a) > f (t.get b)
  · rw [if_pos hg, Triple.set_map, Triple.set_map]
    split
    · rfl
    · rename_i hn
      have he : decide (h < f (t.get b)) = decide (h < f (t.get a)) := by
        rw [decide_eq_decide]; omega
      rw [he]
      rw [← Triple.get_map (fun a => decide (h < f a)) t a, Triple.set_get, Triple.get_map, ← he,
        ← Triple.get_map (fun a => decide (h < f a)) t b, Triple.set_get]
  · rw [if_neg hg, if_neg (by omega)]

theorem sortTriple_threshold {α : Type} (f : α → Int) (h : Int) (net : List (Pos × Pos)) (t : Triple α) :
    (sortTriple (fun a b => decide (f a > f b)) net t).map (fun a => decide (h < f a)) =
      sortTriple (fun a b => a && !b) net (t.map fun a => decide (h < f a)) := by
  unfold sortTriple
  induction net generalizing t with
  | nil => rfl
  | cons ab net ih =>
    simp only [List.foldl_cons]
    rw [ih, compareSwap_threshold]

theorem mem_allBoolTriples (t : Triple Bool) : t ∈ allBoolTriples := by
  obtain ⟨a, b, c⟩ := t
  cases a <;> cases b <;> cases c <;> decide

/-- A network the spec admits sorts every triple of values by any integer key (43 R251). -/
theorem sortTriple_sorts {α : Type} (f : α → Int) {net : List (Pos × Pos)} (hn : sortNetWf net = true) (t : Triple α) :
    let r := sortTriple (fun a b => decide (f a > f b)) net t
    f r.v0 ≤ f r.v1 ∧ f r.v1 ≤ f r.v2 := by
  intro r
  have key : ∀ h : Int, risingBools (r.map fun a => decide (h < f a)) = true := by
    intro h
    rw [sortTriple_threshold f h net t]
    simp only [sortNetWf, Bool.and_eq_true, List.all_eq_true] at hn
    exact hn.2 _ (mem_allBoolTriples _)
  have k1 := key (f r.v1)
  have k2 := key (f r.v2)
  simp [risingBools, Triple.map] at k1 k2
  omega

/-- The corner an index names carries that index, so it is read again from it. -/
theorem cornerAt_idx {vs : List Vertex} {i : Word} {c : Corner} (h : cornerAt vs i = .ok c) : c.idx = i := by
  unfold cornerAt at h
  split at h
  · cases h
  · split at h
    · cases h
    · cases h; rfl

/-- A corner is read exactly from a vertex that has screen coordinates. -/
theorem cornerAt_ok_iff {vs : List Vertex} {i : Word} {c : Corner} :
    cornerAt vs i = .ok c ↔ ∃ e p, vs[indexOf i]? = some e ∧ e.screen = some p ∧ c = { idx := i, x := p.sx, y := p.sy } := by
  unfold cornerAt
  constructor
  · intro h
    split at h
    · cases h
    · rename_i e he
      split at h
      · cases h
      · rename_i p hp
        cases h
        exact ⟨e, p, he, hp, rfl⟩
  · rintro ⟨e, p, he, hp, rfl⟩
    simp [he, hp]

theorem cornersOf_ok_iff {vs : List Vertex} {vi : Triple Word} {c : Triple Corner} :
    cornersOf vs vi = .ok c ↔ cornerAt vs vi.v0 = .ok c.v0 ∧ cornerAt vs vi.v1 = .ok c.v1 ∧ cornerAt vs vi.v2 = .ok c.v2 := by
  obtain ⟨c0, c1, c2⟩ := c
  unfold cornersOf
  cases cornerAt vs vi.v0 <;> cases cornerAt vs vi.v1 <;> cases cornerAt vs vi.v2 <;>
    simp [bind, Except.bind, pure, Except.pure]

/-- The references of corners that were read name those corners. -/
theorem cornersOf_idx {vs : List Vertex} {t : Triple Corner} (h : ∀ c ∈ t.toList, cornerAt vs c.idx = .ok c) :
    cornersOf vs { v0 := t.v0.idx, v1 := t.v1.idx, v2 := t.v2.idx } = .ok t :=
  cornersOf_ok_iff.mpr ⟨h _ (by simp [Triple.toList]), h _ (by simp [Triple.toList]), h _ (by simp [Triple.toList])⟩

theorem cornersOf_readable {vs : List Vertex} {vi : Triple Word} {c : Triple Corner} (h : cornersOf vs vi = .ok c) :
    ∀ d ∈ c.toList, cornerAt vs d.idx = .ok d := by
  obtain ⟨h0, h1, h2⟩ := cornersOf_ok_iff.mp h
  intro d hd
  simp only [Triple.toList, List.mem_cons, List.not_mem_nil, or_false] at hd
  rcases hd with rfl | rfl | rfl
  · rwa [cornerAt_idx h0]
  · rwa [cornerAt_idx h1]
  · rwa [cornerAt_idx h2]

/-- Differences of screen coordinates in range do not overflow (43 R252). -/
theorem screenDelta_toInt {a b : Word} (ha : inScreenRange a) (hb : inScreenRange b) : (screenDelta a b).toInt = a.toInt - b.toInt := by
  unfold inScreenRange at ha hb
  exact wrap32_toInt (by omega) (by omega)

/-- SETUP of a polygon whose three corners can be read, are in range and are sorted by an admitted network: it never raises
SORT_ORDER (43 R252), the references are sorted (43 R259), and every setup field is written (43 R258). -/
theorem setupPolygon_ok {net : List (Pos × Pos)} (hn : sortNetWf net = true) {vs : List Vertex} {p : Polygon} {c : Triple Corner}
    (hc : cornersOf vs p.vi = .ok c) (hr : ∀ d ∈ c.toList, inScreenRange d.y) :
    let t := sortTriple lowerOnScreen net c
    setupPolygon net vs p =
        ({ p with vi := { v0 := t.v0.idx, v1 := t.v1.idx, v2 := t.v2.idx },
                  setup := some (setupFields t (screenDelta t.v1.y t.v0.y) (screenDelta t.v2.y t.v1.y)) }, none) ∧
      cornersOf vs { v0 := t.v0.idx, v1 := t.v1.idx, v2 := t.v2.idx } = .ok t ∧
      t.v0.y.toInt ≤ t.v1.y.toInt ∧ t.v1.y.toInt ≤ t.v2.y.toInt := by
  intro t
  have hs : t.v0.y.toInt ≤ t.v1.y.toInt ∧ t.v1.y.toInt ≤ t.v2.y.toInt := sortTriple_sorts (fun d : Corner => d.y.toInt) hn c
  have hrt : ∀ d ∈ t.toList, inScreenRange d.y := sortTriple_all lowerOnScreen net hr
  have hct : ∀ d ∈ t.toList, cornerAt vs d.idx = .ok d := sortTriple_all lowerOnScreen net (cornersOf_readable hc)
  have h0 := hrt t.v0 (by simp [Triple.toList])
  have h1 := hrt t.v1 (by simp [Triple.toList])
  have h2 := hrt t.v2 (by simp [Triple.toList])
  refine ⟨?_, cornersOf_idx hct, hs⟩
  have e1 := screenDelta_toInt h1 h0
  have e2 := screenDelta_toInt h2 h1
  simp only [setupPolygon, hc]
  rw [if_neg]
  change ¬((screenDelta t.v1.y t.v0.y).toInt < 0 ∨ (screenDelta t.v2.y t.v1.y).toInt < 0)
  omega

/-- SETUP writes only the polygon: its last word stays (43 R258). -/
theorem setupPolygon_attr (net : List (Pos × Pos)) (vs : List Vertex) (p : Polygon) : (setupPolygon net vs p).1.attr = p.attr := by
  unfold setupPolygon
  split
  · rfl
  · dsimp only
    split <;> rfl

/-- The number of polygons stays, whatever stops the setups (43 R258). -/
theorem setupAll_length (net : List (Pos × Pos)) (vs : List Vertex) (ps : List Polygon) :
    (setupAll net vs ps).1.length = ps.length := by
  induction ps with
  | nil => rfl
  | cons p ps ih =>
    simp only [setupAll]
    split
    · rfl
    · simp [ih]

/-- When no setup stops, every polygon is set up, each on its own (43 R258, 44 R280). -/
theorem setupAll_of_none {net : List (Pos × Pos)} {vs : List Vertex} {ps : List Polygon}
    (h : ∀ p ∈ ps, (setupPolygon net vs p).2 = none) :
    setupAll net vs ps = (ps.map fun p => (setupPolygon net vs p).1, none) := by
  induction ps with
  | nil => rfl
  | cons p ps ih =>
    have hp := h p (by simp)
    have hps := ih fun q hq => h q (by simp [hq])
    simp only [setupAll]
    split
    · rename_i p' st heq
      rw [heq] at hp; cases hp
    · rename_i p' heq
      rw [hps]
      simp [heq]

end Sys2Proof.Machine
end

