-- ==== Sys2Proof/Laws/Raster.lean ====
section
/-! SUPPORT. What the bucket build, the span fill and the bound advance can do, said once (45 R301 to R316). -/

namespace Sys2Proof.Machine

/-- A polygon is in a line's bucket exactly when its rows include the line (45 R301). -/
theorem mem_bucketFrom {y : Int} {k j : Nat} {rows : List (Int × Int)} :
    j ∈ bucketFrom y k rows ↔ k ≤ j ∧ ∃ r, rows[j - k]? = some r ∧ r.1 ≤ y ∧ y ≤ r.2 := by
  induction rows generalizing k with
  | nil => simp [bucketFrom]
  | cons r rest ih =>
    obtain ⟨top, bot⟩ := r
    have shift : (j ∈ bucketFrom y (k + 1) rest) ↔
        k + 1 ≤ j ∧ ∃ r, ((top, bot) :: rest)[j - k]? = some r ∧ r.1 ≤ y ∧ y ≤ r.2 := by
      rw [ih]
      constructor
      · rintro ⟨hk, r, hr, hy⟩
        refine ⟨hk, r, ?_, hy⟩
        rw [show j - k = (j - (k + 1)) + 1 by omega]
        simpa using hr
      · rintro ⟨hk, r, hr, hy⟩
        refine ⟨hk, r, ?_, hy⟩
        rw [show j - k = (j - (k + 1)) + 1 by omega] at hr
        simpa using hr
    unfold bucketFrom
    split
    · rename_i h
      rw [List.mem_cons, shift]
      constructor
      · rintro (rfl | ⟨hk, hr⟩)
        · exact ⟨Nat.le_refl _, (top, bot), by simp, h⟩
        · exact ⟨by omega, hr⟩
      · rintro ⟨hk, hr⟩
        by_cases he : j = k
        · exact .inl he
        · exact .inr ⟨by omega, hr⟩
    · rename_i h
      rw [shift]
      constructor
      · rintro ⟨hk, hr⟩; exact ⟨by omega, hr⟩
      · rintro ⟨hk, r, hr, hy⟩
        refine ⟨?_, r, hr, hy⟩
        by_cases he : j = k
        · subst he
          simp only [Nat.sub_self, List.getElem?_cons_zero, Option.some.injEq] at hr
          subst hr
          exact absurd hy h
        · omega

/-- Each bucket lists polygon indices in ascending order (45 R301). -/
theorem bucketFrom_ascending (y : Int) (k : Nat) (rows : List (Int × Int)) :
    (bucketFrom y k rows).Pairwise (· < ·) := by
  induction rows generalizing k with
  | nil => exact .nil
  | cons r rest ih =>
    obtain ⟨top, bot⟩ := r
    unfold bucketFrom
    split
    · refine .cons (fun j hj => ?_) (ih _)
      have := (mem_bucketFrom.mp hj).1
      omega
    · exact ih _

/-- The rows depend on the polygons' references alone (45 R301). -/
theorem allRows_congr {vs : List Vertex} {ps qs : List Polygon} (h : ps.map Polygon.vi = qs.map Polygon.vi) :
    allRows vs ps = allRows vs qs := by
  induction ps generalizing qs with
  | nil =>
    cases qs with
    | nil => rfl
    | cons q qs => simp at h
  | cons p ps ih =>
    cases qs with
    | nil => simp at h
    | cons q qs =>
      simp only [List.map_cons, List.cons.injEq] at h
      simp [allRows, rowsOf, h.1, ih h.2]

/-- The buckets depend on the vertices and the polygons' references alone (45 R301). -/
theorem buildBuckets_congr {f g : Slot} (hv : f.verts = g.verts) (hp : f.polys.map Polygon.vi = g.polys.map Polygon.vi) :
    buildBuckets f = buildBuckets g := by
  simp only [buildBuckets, hv, allRows_congr hp]

theorem rowsOf_ok {vs : List Vertex} {p : Polygon} {c : Triple Corner} (h : cornersOf vs p.vi = .ok c) :
    rowsOf vs p = .ok (c.v0.y.toInt, c.v2.y.toInt) := by
  obtain ⟨h0, _, h2⟩ := cornersOf_ok_iff.mp h
  simp [rowsOf, h0, h2, bind, Except.bind, pure, Except.pure]

/-- The rows of polygons whose corners can be read, one pair a polygon (45 R301). -/
theorem allRows_ok {vs : List Vertex} {ps : List Polygon} (h : ∀ p ∈ ps, ∃ c, cornersOf vs p.vi = .ok c) :
    ∃ rows, allRows vs ps = .ok rows ∧ rows.length = ps.length := by
  induction ps with
  | nil => exact ⟨[], rfl, rfl⟩
  | cons p ps ih =>
    obtain ⟨c, hc⟩ := h p (by simp)
    obtain ⟨rows, hr, hl⟩ := ih fun q hq => h q (by simp [hq])
    exact ⟨(c.v0.y.toInt, c.v2.y.toInt) :: rows,
      by simp [allRows, rowsOf_ok hc, hr, bind, Except.bind, pure, Except.pure], by simp [hl]⟩

/-- The bucket array of a frame whose rows are known: one bucket a display line (45 R301). -/
theorem buildBuckets_of_rows {f : Slot} {rows : List (Int × Int)} (h : allRows f.verts f.polys = .ok rows) :
    buildBuckets f = .ok ((List.range Config.dispH).map fun (y : Nat) => bucketFrom (y : Int) 0 rows) := by
  simp [buildBuckets, h, bind, Except.bind, pure, Except.pure]

/-- A frame whose polygons' corners can be read has buckets (45 R301). -/
theorem buildBuckets_ok {f : Slot} (h : ∀ p ∈ f.polys, ∃ c, cornersOf f.verts p.vi = .ok c) : ∃ b, buildBuckets f = .ok b := by
  obtain ⟨rows, hr, _⟩ := allRows_ok h
  exact ⟨_, buildBuckets_of_rows hr⟩

theorem allRows_length {vs : List Vertex} {ps : List Polygon} {rows : List (Int × Int)} (h : allRows vs ps = .ok rows) :
    rows.length = ps.length := by
  induction ps generalizing rows with
  | nil => cases h; rfl
  | cons p ps ih =>
    simp only [allRows, bind, Except.bind, pure, Except.pure] at h
    cases hr : rowsOf vs p with
    | error e => simp [hr] at h
    | ok r =>
      cases hs : allRows vs ps with
      | error e => simp [hr, hs] at h
      | ok rs =>
        simp only [hr, hs, Except.ok.injEq] at h
        subst h
        simp [ih hs]

/-- Every line of the display has a bucket, and its indices name polygons of the frame (45 R301). -/
theorem buildBuckets_line {f : Slot} {b : List (List Nat)} (h : buildBuckets f = .ok b) {y : Nat} (hy : y < Config.dispH) :
    ∃ js, b[y]? = some js ∧ ∀ j ∈ js, j < f.polys.length := by
  simp only [buildBuckets, bind, Except.bind, pure, Except.pure] at h
  cases hr : allRows f.verts f.polys with
  | error e => simp [hr] at h
  | ok rows =>
    simp only [hr, Except.ok.injEq] at h
    subst h
    refine ⟨bucketFrom (y : Int) 0 rows, by simp [hy], fun j hj => ?_⟩
    obtain ⟨_, r, hj, _⟩ := mem_bucketFrom.mp hj
    rw [List.getElem?_eq_some_iff] at hj
    obtain ⟨hlt, _⟩ := hj
    have := allRows_length hr
    omega

/-- The polygon's fields that no pass writes (45 R310, R321): all but the two bounds. -/
def passFixed (p : Polygon) : Polygon :=
  { p with setup := p.setup.map fun k => { k with cx0 := 0, cx1 := 0 } }

/-- Advancing the bounds writes the bounds only (45 R312). -/
theorem advanceBounds_fixed (k : Setup) (y : Nat) : { advanceBounds k y with cx0 := 0, cx1 := 0 } = { k with cx0 := 0, cx1 := 0 } := by
  unfold advanceBounds
  split <;> rfl

/-- The columns of a span lie on the display (45 R311). -/
theorem spanColumns_lt {k : Setup} {x : Nat} (h : x ∈ spanColumns k) : x < Config.dispW := by
  simp only [spanColumns, List.mem_filter, List.mem_range] at h
  exact h.1

/-- What a line's work can do: the polygons keep everything but their bounds, and every event is a visible pixel of the line
with the value of some polygon of the bucket (45 R310, R311, R321). -/
theorem fillLine_frame {debug : List Word} {y : Nat} {js : List Nat} {ps : List Polygon} {r : List Polygon × List PixelWrite}
    (h : fillLine debug y js ps = .ok r) :
    r.1.map passFixed = ps.map passFixed ∧ ∀ e ∈ r.2, e.y = y ∧ e.x < Config.dispW := by
  induction js generalizing ps r with
  | nil =>
    simp only [fillLine, Except.ok.injEq] at h
    subst h
    exact ⟨rfl, by simp⟩
  | cons j js ih =>
    simp only [fillLine] at h
    cases hj : ps[j]? with
    | none => simp [hj] at h
    | some p =>
      cases hk : p.setup with
      | none => simp [hj, hk] at h
      | some k =>
        simp only [hj, hk, bind, Except.bind] at h
        cases hr : fillLine debug y js (ps.set j { p with setup := some (advanceBounds k y) }) with
        | error e => simp [hr] at h
        | ok r' =>
          simp only [hr, pure, Except.pure, Except.ok.injEq] at h
          obtain ⟨h1, h2⟩ := ih hr
          subst h
          refine ⟨?_, fun e he => ?_⟩
          · rw [h1, List.map_set]
            have hp : passFixed { p with setup := some (advanceBounds k y) } = passFixed p := by
              simp only [passFixed, hk, Option.map_some]
              rw [advanceBounds_fixed k y]
            rw [hp]
            apply List.ext_getElem?
            intro i
            rw [List.getElem?_set]
            split
            · rename_i hij
              subst hij
              split
              · simp [hj]
              · rename_i hn
                simp only [List.length_map] at hn
                rw [List.getElem?_eq_some_iff] at hj
                exact absurd hj.1 hn
            · rfl
          · rcases List.mem_append.mp he with he | he
            · simp only [spanEvents, List.mem_map] at he
              obtain ⟨x, hx, rfl⟩ := he
              exact ⟨rfl, spanColumns_lt hx⟩
            · exact h2 e he

/-- A line's work over a bucket without repeats: the polygons of the bucket advance their bounds, the others stay, and the events
are those of the bucket's polygons in its order (45 R310, R312, R313). -/
theorem fillLine_work {debug : List Word} {y : Nat} {js : List Nat} {ps : List Polygon} {r : List Polygon × List PixelWrite}
    (hn : js.Nodup) (h : fillLine debug y js ps = .ok r) :
    r.1.length = ps.length ∧
      (∀ (j : Nat) (p : Polygon), ps[j]? = some p →
        (j ∈ js → r.1[j]? = some { p with setup := p.setup.map fun k => advanceBounds k y }) ∧ (j ∉ js → r.1[j]? = some p)) ∧
      r.2 = js.flatMap fun j =>
        (ps[j]?.map fun p => (p.setup.map fun k => spanEvents debug k p.attr y).getD []).getD [] := by
  induction js generalizing ps r with
  | nil =>
    simp only [fillLine, Except.ok.injEq] at h
    subst h
    simp
  | cons j js ih =>
    obtain ⟨hjn, hn⟩ := List.nodup_cons.mp hn
    simp only [fillLine] at h
    cases hj : ps[j]? with
    | none => simp [hj] at h
    | some p =>
      cases hk : p.setup with
      | none => simp [hj, hk] at h
      | some k =>
        simp only [hj, hk, bind, Except.bind] at h
        cases hr : fillLine debug y js (ps.set j { p with setup := some (advanceBounds k y) }) with
        | error e => simp [hr] at h
        | ok r' =>
          simp only [hr, pure, Except.pure, Except.ok.injEq] at h
          obtain ⟨h0, h1, h2⟩ := ih hn hr
          have hlt : j < ps.length := (List.getElem?_eq_some_iff.mp hj).1
          subst h
          refine ⟨by simpa using h0, fun i q hq => ?_, ?_⟩
          · by_cases hij : j = i
            · subst hij
              rw [hj] at hq
              cases hq
              have := (h1 j { p with setup := some (advanceBounds k y) } (by simp [hlt])).2 hjn
              exact ⟨fun _ => by rw [this, hk]; rfl, by simp⟩
            · obtain ⟨a, b⟩ := h1 i q (by simpa [List.getElem?_set, hij] using hq)
              refine ⟨fun hm => a ((List.mem_cons.mp hm).resolve_left (Ne.symm hij)), fun hm => b ?_⟩
              exact fun hm' => hm (List.mem_cons_of_mem _ hm')
          · simp only [List.flatMap_cons, hj, hk, Option.map_some, Option.getD_some]
            congr 1
            rw [h2]
            refine List.flatMap_congr fun i hi => ?_
            have : j ≠ i := by rintro rfl; exact hjn hi
            simp [this]

/-- A line's work completes when its bucket names polygons that are set up (45 R310). -/
theorem fillLine_ok (debug : List Word) (y : Nat) (js : List Nat) (ps : List Polygon) (hj : ∀ j ∈ js, j < ps.length)
    (hs : ∀ p ∈ ps, p.setup.isSome = true) : ∃ r, fillLine debug y js ps = .ok r := by
  induction js generalizing ps with
  | nil => exact ⟨_, rfl⟩
  | cons j js ih =>
    have hlt := hj j (by simp)
    have hp : ps[j]? = some ps[j] := by simp [hlt]
    obtain ⟨k, hk⟩ := Option.isSome_iff_exists.mp (hs ps[j] (by simp))
    obtain ⟨r, hr⟩ := ih (ps.set j { ps[j] with setup := some (advanceBounds k y) })
      (fun i hi => by simpa using hj i (by simp [hi]))
      (fun p hp => by
        rcases List.mem_or_eq_of_mem_set hp with h | rfl
        · exact hs p h
        · rfl)
    refine ⟨(r.1, spanEvents debug k ps[j].attr y ++ r.2), ?_⟩
    simp [fillLine, hp, hk, hr, bind, Except.bind, pure, Except.pure]

/-- Polygons that agree in the fields no pass writes agree in their references and in being set up. -/
theorem passFixed_eq {p q : Polygon} (h : passFixed p = passFixed q) :
    p.vi = q.vi ∧ p.attr = q.attr ∧ p.setup.isSome = q.setup.isSome ∧ p.setup.map Setup.hy = q.setup.map Setup.hy := by
  simp only [passFixed, Polygon.mk.injEq] at h
  obtain ⟨h1, h2, h3⟩ := h
  refine ⟨h1, h2, ?_, ?_⟩ <;>
    · cases hp : p.setup <;> cases hq : q.setup <;> simp_all

/-- Restoring the bounds writes the bounds only, and succeeds when the polygons are set up (45 R300). -/
theorem restoreAll_ok (ps : List Polygon) (hs : ∀ p ∈ ps, p.setup.isSome = true) :
    ∃ qs, restoreAll ps = .ok qs ∧ qs.map passFixed = ps.map passFixed := by
  induction ps with
  | nil => exact ⟨[], rfl, rfl⟩
  | cons p ps ih =>
    obtain ⟨k, hk⟩ := Option.isSome_iff_exists.mp (hs p (by simp))
    obtain ⟨qs, hq, hm⟩ := ih fun q hq => hs q (by simp [hq])
    refine ⟨{ p with setup := some { k with cx0 := k.cx0Init, cx1 := k.cx1Init } } :: qs,
      by simp [restoreAll, restoreBounds, hk, hq, bind, Except.bind, pure, Except.pure], ?_⟩
    simp [hm, passFixed, hk]

/-- The bounds a pass starts from differ from those before it in the bounds only (45 R300, R316). -/
theorem passBounds_ok (reinit : Bool) (ps : List Polygon) (hs : ∀ p ∈ ps, p.setup.isSome = true) :
    ∃ qs, passBounds reinit ps = .ok qs ∧ qs.map passFixed = ps.map passFixed := by
  unfold passBounds
  cases reinit
  · exact ⟨ps, rfl, rfl⟩
  · exact restoreAll_ok ps hs

end Sys2Proof.Machine
end

