-- ==== Sys2Proof/Laws/Transform.lean ====
section
/-! SUPPORT. What the vertex transform can do, said once (42 R230 to R237). -/

namespace Sys2Proof.Machine

/-- Setting the transformed bit leaves the clip flags alone (42 R230). -/
theorem clipBits_setTransformed (f : BitVec 7) : (setTransformed f).extractLsb' 0 6 = f.extractLsb' 0 6 := by
  revert f; decide

/-- Setting the transformed bit sets it. -/
theorem transformed_setTransformed (f : BitVec 7) : (setTransformed f).getLsbD 6 = true := by
  revert f; decide

/-- The screen coordinates of a vertex whose `cw` is not zero (42 R230). -/
def screenOf (vp : Viewport) (e : Vertex) : Screen :=
  { sx := project e.cx e.cw (q12Quot (q12QuotI (q12FromI (viewportWidth vp)) 2#32) e.cw) vp.vx0
    sy := project e.cy e.cw (q12Quot (q12QuotI (q12FromI (viewportHeight vp)) 2#32) e.cw) vp.vy0
    sz := q12ToI (q12Quot (q12QuotI (q12Add e.cz e.cw) 2#32) e.cw) }

/-- The transform of a vertex already transformed does nothing (42 R237). -/
theorem transformVertex_done (vp : Viewport) {e : Vertex} (h : e.transformed = true) : transformVertex vp e = .ok e := by
  simp [transformVertex, h]

/-- The transform of a vertex not yet transformed, with a divisor that is not zero (42 R230, R236). -/
theorem transformVertex_new (vp : Viewport) {e : Vertex} (h : e.transformed = false) (hw : e.cw ≠ 0) :
    transformVertex vp e = .ok { e with flags := setTransformed e.flags, screen := some (screenOf vp e) } := by
  simp [transformVertex, h, halfOver, projectDepth, q12Div_of_ne_zero _ hw, bind, Except.bind, pure, Except.pure, screenOf]

/-- The transform of a vertex not yet transformed whose `cw` is zero raises DIV_ZERO, before any write (40 R143). -/
theorem transformVertex_zero (vp : Viewport) {e : Vertex} (h : e.transformed = false) (hw : e.cw = 0) :
    transformVertex vp e = .error (divZero (q12QuotI (q12FromI (viewportWidth vp)) 2#32)) := by
  simp [transformVertex, h, halfOver, q12Div, hw, bind, Except.bind]

/-- Everything a transform that succeeds can have done. -/
theorem transformVertex_cases {vp : Viewport} {e e' : Vertex} (h : transformVertex vp e = .ok e') :
    (e.transformed = true ∧ e' = e) ∨
      (e.transformed = false ∧ e.cw ≠ 0 ∧ e' = { e with flags := setTransformed e.flags, screen := some (screenOf vp e) }) := by
  by_cases ht : e.transformed = true
  · rw [transformVertex_done vp ht] at h
    exact .inl ⟨ht, by simpa using h.symm⟩
  · have ht : e.transformed = false := by simpa using ht
    by_cases hw : e.cw = 0
    · rw [transformVertex_zero vp ht hw] at h; cases h
    · rw [transformVertex_new vp ht hw] at h
      exact .inr ⟨ht, hw, by simpa using h.symm⟩

/-- A vertex the rules produce that carries no clip flag has a `cw` that is not zero (41 R192, 42 R236). -/
theorem VertexOk.cw_ne_zero {z : Bool} {e : Vertex} (h : VertexOk z e) (hc : e.clipped = false) : e.cw ≠ 0 := by
  intro hw
  have hf := h.flags
  rw [clipFlags, if_pos hw] at hf
  simp [Vertex.clipped, hf] at hc

/-- The transform keeps a vertex one the rules produce. -/
theorem VertexOk.transform {z : Bool} {vp : Viewport} {e e' : Vertex} (h : VertexOk z e) (hc : e.clipped = false)
    (ht : transformVertex vp e = .ok e') : VertexOk z e' := by
  rcases transformVertex_cases ht with ⟨_, rfl⟩ | ⟨_, _, rfl⟩
  · exact h
  · refine ⟨?_, ?_, ?_, ?_⟩
    · simpa [Vertex.clipBits, clipBits_setTransformed] using h.flags
    · simp [Vertex.transformed, transformed_setTransformed]
    · intro _
      simpa [Vertex.clipped, Vertex.clipBits, clipBits_setTransformed] using hc
    · intro p hp
      simp only [Option.some.injEq] at hp
      subst hp
      exact ⟨q12ToI_range _, q12ToI_range _, q12ToI_range _⟩

/-- The vertex at an index after a transform of others: unchanged, or newly transformed. -/
def grownFrom (e e' : Vertex) : Prop := e' = e ∨ (e.transformed = false ∧ e'.transformed = true)

/-- What the transforms of a list of vertices can do to the array, whatever stops them: its length stays, and every vertex is
unchanged or newly transformed (41 R205, 60 R341). -/
theorem transformAll_frame (vp : Viewport) (is : List Nat) (vs : List Vertex) :
    (transformAll vp is vs).1.length = vs.length ∧
      ∀ (i : Nat) (e : Vertex), vs[i]? = some e → ∃ e', (transformAll vp is vs).1[i]? = some e' ∧ grownFrom e e' := by
  induction is generalizing vs with
  | nil => exact ⟨rfl, fun i e h => ⟨e, h, .inl rfl⟩⟩
  | cons j js ih =>
    simp only [transformAll]
    cases hj : vs[j]? with
    | none => exact ⟨rfl, fun i e h => ⟨e, h, .inl rfl⟩⟩
    | some d =>
      cases ht : transformVertex vp d with
      | error st =>
        simp only [ht]
        exact ⟨trivial, fun i e h => ⟨e, h, .inl rfl⟩⟩
      | ok d' =>
        simp only [ht]
        obtain ⟨hl, hg⟩ := ih (vs.set j d')
        refine ⟨by simpa using hl, fun i e h => ?_⟩
        have hlt : j < vs.length := by
          rw [List.getElem?_eq_some_iff] at hj; exact hj.1
        by_cases hij : j = i
        · subst hij
          obtain ⟨e', he', hge⟩ := hg j d' (by simp [hlt])
          refine ⟨e', he', ?_⟩
          rw [hj] at h; cases h
          rcases transformVertex_cases ht with ⟨_, rfl⟩ | ⟨hf, _, rfl⟩
          · exact hge
          · right
            refine ⟨hf, ?_⟩
            rcases hge with rfl | ⟨h1, h2⟩
            · simp [Vertex.transformed, transformed_setTransformed]
            · exact h2
        · exact hg i e (by simpa [List.getElem?_set, hij] using h)

/-- A condition of vertex records that every transform in the list keeps holds of the array afterwards. -/
theorem transformAll_all {P : Vertex → Prop} {vp : Viewport}
    (keep : ∀ e e', P e → e.clipped = false → transformVertex vp e = .ok e' → P e')
    (clip : ∀ e e', transformVertex vp e = .ok e' → e'.clipped = e.clipped)
    (is : List Nat) (vs : List Vertex) (hP : ∀ e ∈ vs, P e) (hc : ∀ i ∈ is, ∀ e, vs[i]? = some e → e.clipped = false) :
    ∀ e ∈ (transformAll vp is vs).1, P e := by
  induction is generalizing vs with
  | nil => exact hP
  | cons j js ih =>
    simp only [transformAll]
    cases hj : vs[j]? with
    | none => exact hP
    | some d =>
      cases ht : transformVertex vp d with
      | error st => simpa only [ht] using hP
      | ok d' =>
        simp only [ht]
        have hd : d ∈ vs := List.mem_of_getElem? hj
        have hcd := hc j (by simp) d hj
        apply ih
        · intro e he
          rcases List.mem_or_eq_of_mem_set he with h | rfl
          · exact hP e h
          · exact keep d _ (hP d hd) hcd ht
        · intro i hi e he
          rw [List.getElem?_set] at he
          split at he
          · split at he
            · cases he
              exact (clip d _ ht).trans hcd
            · cases he
          · exact hc i (by simp [hi]) e he

/-- The transform does not change whether a vertex is clipped (42 R230). -/
theorem transformVertex_clipped {vp : Viewport} {e e' : Vertex} (h : transformVertex vp e = .ok e') : e'.clipped = e.clipped := by
  rcases transformVertex_cases h with ⟨_, rfl⟩ | ⟨_, _, rfl⟩
  · rfl
  · simp [Vertex.clipped, Vertex.clipBits, clipBits_setTransformed]

/-- The transforms of vertices that exist and have divisors that are not zero all succeed, and afterwards every vertex named is
transformed (41 R205, 42 R236). -/
theorem transformAll_succeeds (vp : Viewport) (is : List Nat) (vs : List Vertex)
    (h : ∀ i ∈ is, ∃ e, vs[i]? = some e ∧ (e.transformed = true ∨ e.cw ≠ 0)) :
    (transformAll vp is vs).2 = none ∧
      ∀ i ∈ is, ∃ e, (transformAll vp is vs).1[i]? = some e ∧ e.transformed = true := by
  induction is generalizing vs with
  | nil => exact ⟨rfl, by simp⟩
  | cons j js ih =>
    obtain ⟨d, hj, hd⟩ := h j (by simp)
    have hlt : j < vs.length := by
      rw [List.getElem?_eq_some_iff] at hj; exact hj.1
    obtain ⟨d', ht, hd'⟩ : ∃ d', transformVertex vp d = .ok d' ∧ d'.transformed = true := by
      by_cases hx : d.transformed = true
      · exact ⟨d, transformVertex_done vp hx, hx⟩
      · have hx : d.transformed = false := by simpa using hx
        refine ⟨_, transformVertex_new vp hx (hd.resolve_left (by simp [hx])), ?_⟩
        simp [Vertex.transformed, transformed_setTransformed]
    simp only [transformAll, hj, ht]
    have hstep : ∀ i ∈ js, ∃ e, (vs.set j d')[i]? = some e ∧ (e.transformed = true ∨ e.cw ≠ 0) := by
      intro i hi
      obtain ⟨e, he, hor⟩ := h i (by simp [hi])
      by_cases hij : j = i
      · subst hij; exact ⟨d', by simp [hlt], .inl hd'⟩
      · exact ⟨e, by simpa [List.getElem?_set, hij] using he, hor⟩
    obtain ⟨h1, h2⟩ := ih (vs.set j d') hstep
    refine ⟨h1, fun i hi => ?_⟩
    rcases List.mem_cons.mp hi with rfl | hi
    · obtain ⟨e', he', hg⟩ := (transformAll_frame vp js (vs.set i d')).2 i d' (by simp [hlt])
      refine ⟨e', he', ?_⟩
      rcases hg with rfl | ⟨_, h⟩
      · exact hd'
      · exact h
    · exact h2 i hi

/-- Transforming a vertex again changes nothing (42 R237). -/
theorem transformVertex_again {vp : Viewport} {e e' : Vertex} (h : transformVertex vp e = .ok e') :
    transformVertex vp e' = .ok e' := by
  rcases transformVertex_cases h with ⟨_, rfl⟩ | ⟨_, _, rfl⟩
  · exact h
  · exact transformVertex_done _ (by simp [Vertex.transformed, transformed_setTransformed])

/-- What transforms that all succeed do: each vertex named is transformed, every other vertex stays (41 R205). -/
theorem transformAll_work (vp : Viewport) (is : List Nat) (vs : List Vertex) (h : (transformAll vp is vs).2 = none) :
    ∀ (j : Nat) (e : Vertex), vs[j]? = some e → ∃ e', (transformAll vp is vs).1[j]? = some e' ∧
      (j ∈ is → transformVertex vp e = .ok e') ∧ (j ∉ is → e' = e) := by
  induction is generalizing vs with
  | nil => exact fun j e he => ⟨e, he, by simp, by simp⟩
  | cons i is ih =>
    simp only [transformAll] at h ⊢
    cases hi : vs[i]? with
    | none => simp [hi] at h
    | some d =>
      cases ht : transformVertex vp d with
      | error st => simp [hi, ht] at h
      | ok d' =>
        simp only [hi, ht] at h ⊢
        intro j e he
        have hlt : i < vs.length := (List.getElem?_eq_some_iff.mp hi).1
        by_cases hij : i = j
        · subst hij
          rw [hi] at he
          cases he
          obtain ⟨e', h1, h2, h3⟩ := ih _ h i d' (by simp [hlt])
          refine ⟨e', h1, fun _ => ?_, by simp⟩
          by_cases hm : i ∈ is
          · have := h2 hm
            rw [transformVertex_again ht] at this
            cases this
            exact ht
          · rw [h3 hm]; exact ht
        · obtain ⟨e', h1, h2, h3⟩ := ih _ h j e (by simpa [List.getElem?_set, hij] using he)
          refine ⟨e', h1, fun hm => h2 ((List.mem_cons.mp hm).resolve_left (Ne.symm hij)), fun hm => h3 ?_⟩
          exact fun hm' => hm (List.mem_cons_of_mem _ hm')

end Sys2Proof.Machine
end

