-- ==== Sys2Proof/Laws/Invariant.lean ====
section
/-! SUPPORT. How the parts of the invariant survive the named operations, said once each. -/

namespace Sys2Proof.Machine

/-- The invariant does not read the model's own input and output fields. -/
theorem Inv.io {s : State} (h : Inv s) (x : Ports) : Inv { s with io := x } :=
  ⟨h.params, h.slots, h.lock, h.chan, h.next, h.cur, h.curSetUp, h.nextSetUp, h.buckets⟩

/-- Completing a command keeps the invariant. -/
theorem Inv.complete {s : State} (h : Inv s) : Inv s.complete :=
  ⟨h.params, h.slots, h.lock, h.chan, h.next, h.cur, h.curSetUp, h.nextSetUp, h.buckets⟩

/-- Raising a fatal fault keeps the invariant. -/
theorem Inv.raise {s : State} (h : Inv s) (c : Instr) (f : Fatal) : Inv (s.raise c f) :=
  ⟨h.params, h.slots, h.lock, h.chan, h.next, h.cur, h.curSetUp, h.nextSetUp, h.buckets⟩

/-- A refusal keeps the invariant. -/
theorem Inv.refuse {s : State} (h : Inv s) (v : Verdict) : Inv (s.refuse v) :=
  ⟨h.params, h.slots, h.lock, h.chan, h.next, h.cur, h.curSetUp, h.nextSetUp, h.buckets⟩

/-- "current" and "next" are different slots (10 R43). -/
theorem Inv.ne {s : State} (h : Inv s) : s.curSlot ≠ s.nextSlot := by
  rw [h.slots.2]; simp

/-- Replacing "next" by a slot the rules produce keeps the invariant. -/
theorem Inv.setNext {s : State} (h : Inv s) {f : Slot} (hf : SlotOk s.params.zclip f)
    (hs : s.cphase = .swapWait → allSetUp f) : Inv (s.setNextFrame f) := by
  have hc := State.curFrame_setNextFrame s h.ne f
  refine ⟨h.params, h.slots, h.lock, h.chan, ?_, ?_, ?_, ?_, ?_⟩
  · simpa using hf
  · rw [hc]; exact h.cur
  · rw [hc]; exact h.curSetUp
  · simpa using hs
  · rw [hc]; exact h.buckets

/-- Corners stay readable when vertices with screen coordinates keep them. -/
theorem cornersOf_mono {vs ws : List Vertex} {vi : Triple Word} {c : Triple Corner} (h : cornersOf vs vi = .ok c)
    (hw : ∀ (i : Nat) (e : Vertex), vs[i]? = some e → e.screen.isSome = true → ∃ e', ws[i]? = some e' ∧ e'.screen = e.screen) :
    cornersOf ws vi = .ok c := by
  rw [cornersOf_ok_iff] at h ⊢
  have k : ∀ {i d}, cornerAt vs i = .ok d → cornerAt ws i = .ok d := by
    intro i d hd
    rw [cornerAt_ok_iff] at hd ⊢
    obtain ⟨e, p, he, hp, rfl⟩ := hd
    obtain ⟨e', he', hs⟩ := hw _ e he (by simp [hp])
    exact ⟨e', p, he', hs.trans hp, rfl⟩
  exact ⟨k h.1, k h.2.1, k h.2.2⟩

/-- Appending a vertex the rules produce keeps the slot one the rules produce (41 R190). -/
theorem SlotOk.pushVertex {z : Bool} {f : Slot} (h : SlotOk z f) (hn : f.verts.length ≠ Config.vcap) {e : Vertex}
    (he : VertexOk z e) : SlotOk z (f.pushVertex e) := by
  refine ⟨Slot.wf_pushVertex h.wf hn e, ?_, ?_⟩
  · intro d hd
    simp only [Slot.pushVertex, List.mem_append, List.mem_singleton] at hd
    rcases hd with hd | rfl
    · exact h.verts d hd
    · exact he
  · intro p hp
    obtain ⟨c, hc, hk⟩ := h.polys p hp
    refine ⟨c, cornersOf_mono hc ?_, hk⟩
    intro i d hd _
    exact ⟨d, by rw [Slot.pushVertex, List.getElem?_append_left (List.getElem?_eq_some_iff.mp hd).1, hd], rfl⟩

/-- The record VERTEX appends is one the rules produce (41 R190). -/
theorem newVertex_ok (zclip : Bool) (x y z w : Word) : VertexOk zclip (newVertex zclip x y z w) := by
  refine ⟨?_, ?_, ?_, ?_⟩
  · simp only [newVertex, Vertex.clipBits]
    generalize clipFlags zclip x y z w = f
    revert f; decide
  · have : (newVertex zclip x y z w).transformed = false := by
      simp only [newVertex, Vertex.transformed]
      generalize clipFlags zclip x y z w = f
      revert f; decide
    simp [this]; rfl
  · have : (newVertex zclip x y z w).transformed = false := by
      simp only [newVertex, Vertex.transformed]
      generalize clipFlags zclip x y z w = f
      revert f; decide
    simp [this]
  · intro p hp; cases hp

/-- When no index is out of range, every index is in range (41 R203). -/
theorem firstOut_none {len k : Nat} {is : List Nat} (h : firstOutOfRange len k is = none) : ∀ i ∈ is, i < len := by
  induction is generalizing k with
  | nil => simp
  | cons i is ih =>
    unfold firstOutOfRange at h
    split at h
    · cases h
    · intro j hj
      rcases List.mem_cons.mp hj with rfl | hj
      · omega
      · exact ih h j hj

/-- The transforms of a POLYGON that is not dropped all succeed, keep the slot one the rules produce, and leave every vertex named
transformed (41 R205, 42 R236). -/
theorem SlotOk.transformed {z : Bool} {f : Slot} {vp : Viewport} {is : List Nat} (h : SlotOk z f)
    (hr : ∀ i ∈ is, i < f.verts.length) (hc : is.any (clippedAt f.verts) = false) :
    (transformAll vp is f.verts).2 = none ∧ SlotOk z { f with verts := (transformAll vp is f.verts).1 } ∧
      ∀ i ∈ is, ∃ e, (transformAll vp is f.verts).1[i]? = some e ∧ e.transformed = true := by
  have hcl : ∀ i ∈ is, ∀ e, f.verts[i]? = some e → e.clipped = false := by
    intro i hi e he
    rw [List.any_eq_false] at hc
    have := hc i hi
    simpa [clippedAt, he] using this
  have hs := transformAll_succeeds vp is f.verts (by
    intro i hi
    have := hr i hi
    exact ⟨f.verts[i], by simp [this], .inr ((h.verts _ (by simp)).cw_ne_zero (hcl i hi _ (by simp [this])))⟩)
  have hfr := transformAll_frame vp is f.verts
  refine ⟨hs.1, ⟨Slot.wf_of_lengths h.wf hfr.1 rfl, ?_, ?_⟩, hs.2⟩
  · exact transformAll_all (fun e e' he hc ht => he.transform hc ht) (fun e e' ht => transformVertex_clipped ht) is f.verts h.verts hcl
  · intro p hp
    obtain ⟨c, hc, hk⟩ := h.polys p hp
    refine ⟨c, cornersOf_mono hc ?_, hk⟩
    intro i e he hsome
    obtain ⟨e', he', hg⟩ := hfr.2 i e he
    refine ⟨e', he', ?_⟩
    rcases hg with rfl | ⟨h1, _⟩
    · rfl
    · have := (h.verts e (List.mem_of_getElem? he)).screen.mpr hsome
      rw [this] at h1; cases h1

/-- The screen Ys of corners read from a slot the rules produce are in range (43 R252). -/
theorem corner_range {z : Bool} {vs : List Vertex} {vi : Triple Word} {c : Triple Corner} (hv : ∀ e ∈ vs, VertexOk z e)
    (hc : cornersOf vs vi = .ok c) : ∀ d ∈ c.toList, inScreenRange d.y := by
  intro d hd
  obtain ⟨e, p, he, hp, h⟩ := cornerAt_ok_iff.mp (cornersOf_readable hc d hd)
  rw [h]
  exact ((hv e (List.mem_of_getElem? he)).range p hp).2.1

/-- A pass's writes keep the references (45 R321). -/
theorem vi_of_pass {ps qs : List Polygon} (h : ps.map passFixed = qs.map passFixed) :
    ps.map Polygon.vi = qs.map Polygon.vi := by
  have := congrArg (List.map Polygon.vi) h
  simpa [Function.comp_def, passFixed] using this

/-- A pass's writes keep a slot one the rules produce (45 R321). -/
theorem SlotOk.pass {z : Bool} {f : Slot} {ps : List Polygon} (h : SlotOk z f)
    (hm : ps.map passFixed = f.polys.map passFixed) : SlotOk z { f with polys := ps } := by
  have hlen : ps.length = f.polys.length := by simpa using congrArg List.length hm
  refine ⟨Slot.wf_of_lengths h.wf rfl hlen, h.verts, ?_⟩
  intro p hp
  obtain ⟨i, hi, rfl⟩ := List.getElem_of_mem hp
  have hi' : i < f.polys.length := hlen ▸ hi
  have he : passFixed ps[i] = passFixed f.polys[i] := by
    have := congrArg (fun l => l[i]?) hm
    simpa [hi, hi'] using this
  obtain ⟨e1, e2, e3, e4⟩ := passFixed_eq he
  obtain ⟨c, hc, hk⟩ := h.polys f.polys[i] (by simp)
  refine ⟨c, by rw [e1]; exact hc, ?_⟩
  intro k hk'
  rw [hk'] at e4
  simp only [Option.map_some] at e4
  cases hq : f.polys[i].setup with
  | none => simp [hq] at e4
  | some k' =>
    rw [hq] at e4
    simp only [Option.map_some, Option.some.injEq] at e4
    obtain ⟨a, b, c⟩ := hk k' hq
    exact ⟨a, b, by rw [e4, c]⟩

/-- A pass's writes keep every polygon set up. -/
theorem allSetUp.pass {f : Slot} {ps : List Polygon} (h : allSetUp f) (hm : ps.map passFixed = f.polys.map passFixed) :
    allSetUp { f with polys := ps } := by
  have hlen : ps.length = f.polys.length := by simpa using congrArg List.length hm
  intro p hp
  obtain ⟨i, hi, rfl⟩ := List.getElem_of_mem hp
  have hi' : i < f.polys.length := hlen ▸ hi
  have he : passFixed ps[i] = passFixed f.polys[i] := by
    have := congrArg (fun l => l[i]?) hm
    simpa [hi, hi'] using this
  rw [(passFixed_eq he).2.2.1]
  exact h _ (by simp)

/-- A pass's writes to "current" keep the invariant (45 R310, R321). -/
theorem Inv.setCur {s : State} (h : Inv s) {ps : List Polygon} (hm : ps.map passFixed = s.curFrame.polys.map passFixed) :
    Inv (s.setCurFrame { s.curFrame with polys := ps }) := by
  have hn := State.nextFrame_setCurFrame s h.ne.symm { s.curFrame with polys := ps }
  refine ⟨h.params, h.slots, h.lock, h.chan, ?_, ?_, ?_, ?_, ?_⟩
  · rw [hn]; exact h.next
  · simp only [State.curFrame_setCurFrame]; exact h.cur.pass hm
  · simp only [State.curFrame_setCurFrame]; exact h.curSetUp.pass hm
  · rw [hn]; exact h.nextSetUp
  · intro ha
    obtain ⟨b, h1, h2⟩ := h.buckets ha
    refine ⟨b, h1, ?_⟩
    simp only [State.curFrame_setCurFrame]
    rw [buildBuckets_congr (f := { s.curFrame with polys := ps }) (g := s.curFrame) rfl (vi_of_pass hm)]; exact h2

end Sys2Proof.Machine
end

