-- ==== Sys2Proof/Laws/PerInstr.lean ====
section
/-! SUPPORT. One lemma per constructor: an instruction is well-formed at its own port and at no other, and its bytes are four a word
(30 R110, 20 R82). -/

namespace Sys2Proof.Laws.PortForm

/-- An instruction is well-formed at its own port only, and its byte form has four bytes a word. -/
def Statement (i : Instr) : Prop :=
  (∀ p : Port, i.wellFormedAt p = true ↔ p = i.port) ∧ (encodeBytes i).length = 4 * (encode i).length

theorem port_iff (i : Instr) (p : Port) : i.wellFormedAt p = true ↔ p = i.port := by
  simp only [Instr.wellFormedAt, beq_iff_eq]
  exact ⟨Eq.symm, Eq.symm⟩

theorem bytes_length (ws : List Word) : (bytesOfWords ws).length = 4 * ws.length := by
  induction ws with
  | nil => rfl
  | cons w ws ih =>
    simp only [bytesOfWords, List.flatMap_cons, List.length_append] at ih ⊢
    simp only [ih, bytesOfWord, List.length_cons, List.length_nil]
    omega

theorem statement_of (i : Instr) : Statement i := ⟨port_iff i, bytes_length _⟩

theorem setViewport (a b c d : Word) : Statement (.setViewport a b c d) := statement_of _
theorem vertex (x y z w : Word) : Statement (.vertex x y z w) := statement_of _
theorem polygon (i0 i1 i2 i3 attr : Word) : Statement (.polygon i0 i1 i2 i3 attr) := statement_of _
theorem swapBuffers : Statement .swapBuffers := statement_of _
theorem beginFrame : Statement .beginFrame := statement_of _
theorem nextLine : Statement .nextLine := statement_of _
theorem endFrame : Statement .endFrame := statement_of _
theorem qadd (a b : Word) : Statement (.qadd a b) := statement_of _
theorem qsub (a b : Word) : Statement (.qsub a b) := statement_of _
theorem qmul (a b : Word) : Statement (.qmul a b) := statement_of _
theorem qdiv (a b : Word) : Statement (.qdiv a b) := statement_of _
theorem qneg (a b : Word) : Statement (.qneg a b) := statement_of _
theorem qfromi (a b : Word) : Statement (.qfromi a b) := statement_of _
theorem qtoi (a b : Word) : Statement (.qtoi a b) := statement_of _
theorem qaddi (a b : Word) : Statement (.qaddi a b) := statement_of _
theorem qdivi (a b : Word) : Statement (.qdivi a b) := statement_of _
theorem qlt (a b : Word) : Statement (.qlt a b) := statement_of _

end Sys2Proof.Laws.PortForm
end

