-- ==== Sys2Proof/Laws/Step.lean ====
section
/-! SUPPORT. What one instruction and one step can do, said once, so that rules about the whole machine need not unfold them. -/

namespace Sys2Proof.Machine

/-- A live block runs the meaning; a halted one answers no next state (60 R341). -/
theorem live_next {s t : State} {k : Host.Outcome State Fault Refusal} : live s k = .next t ↔ s.fault = none ∧ k = .next t := by
  unfold live
  cases s.fault <;> simp

@[simp] theorem live_of_none {s : State} (h : s.fault = none) (k : Host.Outcome State Fault Refusal) : live s k = k := by
  simp [live, h]

theorem live_of_some {s : State} (h : s.fault ≠ none) (k : Host.Outcome State Fault Refusal) : live s k = .fault .halted := by
  cases hf : s.fault
  · exact absurd hf h
  · simp [live, hf]

/-- How a computation that may be cut short can answer a next state: by a fatal fault raised, or by going on (60 R341). -/
theorem finish_next {cmd : Instr} {s t : State} {stop : Option Stop} {k : Host.Outcome State Fault Refusal}
    (h : finish cmd s stop k = .next t) : (∃ f, stop = some (.fatal f) ∧ t = s.raise cmd f) ∨ (stop = none ∧ k = .next t) := by
  unfold finish at h
  split at h
  · exact .inl ⟨_, rfl, by simpa using h.symm⟩
  · cases h
  · exact .inr ⟨rfl, h⟩

/-- Everything a BEGINFRAME that answers a next state can have done: held, refused, or begun the pass (45 R300). -/
theorem execBeginFrame_cases {s t : State} (h : execBeginFrame s = .next t) :
    t = s ∨ t = s.refuse .nestedBegin ∨
      (s.dpass.active = false ∧ s.lock = .free ∧ ∃ ps b, passBounds s.params.reinitBounds s.curFrame.polys = .ok ps ∧
        buildBuckets { s.curFrame with polys := ps } = .ok b ∧
        t = { s.setCurFrame { s.curFrame with polys := ps } with
                bk := some b, lock := .display, dpass := { active := true, line := 0 } }) := by
  obtain ⟨-, h⟩ := live_next.mp h
  split at h
  · cases h; exact .inr (.inl rfl)
  · rename_i ha
    split at h
    · rename_i hl
      simp only [beginPass] at h
      split at h
      · cases h
      · rename_i ps hp
        split at h
        · cases h
        · rename_i b hb
          cases h
          exact .inr (.inr ⟨by simpa using ha, hl, ps, b, hp, hb, rfl⟩)
    · cases h; exact .inl rfl

/-- Everything a NEXTLINE that answers a next state can have done: answered END, refused, or yielded a line (45 R310). -/
theorem execNextLine_cases {s t : State} (h : execNextLine s = .next t) :
    t = s.answer .endOfPass ∨ t = s.refuse .notInPass ∨
      (s.dpass.active = true ∧ s.dpass.line ≠ Config.dispH ∧ ∃ js ps es, bucketOf s.bk s.dpass.line = .ok js ∧
        fillLine Config.debugSnapshot s.dpass.line js s.curFrame.polys = .ok (ps, es) ∧
        t = (({ s.setCurFrame { s.curFrame with polys := ps } with
                  dpass := { active := s.dpass.active, line := s.dpass.line + 1 } }).emit es).answer (.line s.dpass.line es)) := by
  obtain ⟨-, h⟩ := live_next.mp h
  split at h
  · rename_i ha
    split at h
    · cases h; exact .inl rfl
    · rename_i hl
      simp only [yieldLine] at h
      split at h
      · cases h
      · rename_i js hj
        split at h
        · cases h
        · rename_i ps es hr
          cases h
          exact .inr (.inr ⟨ha, hl, js, ps, es, hj, hr, rfl⟩)
  · cases h; exact .inr (.inl rfl)

/-- Everything an ENDFRAME that answers a next state can have done: refused, or ended the pass (45 R320). -/
theorem execEndFrame_cases {s t : State} (h : execEndFrame s = .next t) :
    t = s.refuse .notInPass ∨
      (s.dpass.active = true ∧ t = { s with lock := .free, dpass := { active := false, line := 0 } }) := by
  obtain ⟨-, h⟩ := live_next.mp h
  split at h
  · rename_i ha
    cases h
    exact .inr ⟨ha, rfl⟩
  · cases h; exact .inl rfl

/-- What no instruction writes: the parameters, the counter and the slot roles, the channel, the words waiting; the refusal mark
and the events only grow; at most one command is counted. -/
structure Kept (s t : State) : Prop where
  params : t.params = s.params
  fc : t.fc = s.fc
  nextSlot : t.nextSlot = s.nextSlot
  curSlot : t.curSlot = s.curSlot
  chan : t.chan = s.chan
  streams : t.io.cmdIn = s.io.cmdIn ∧ t.io.dispIn = s.io.dispIn ∧ t.io.unitIn = s.io.unitIn
  refusals : s.refusals <+: t.refusals
  pixels : s.io.pixels <+: t.io.pixels
  seq : t.seq = s.seq ∨ t.seq = s.seq + 1

theorem Kept.refl (s : State) : Kept s s :=
  ⟨rfl, rfl, rfl, rfl, rfl, ⟨rfl, rfl, rfl⟩, List.prefix_refl _, List.prefix_refl _, .inl rfl⟩

theorem unitResult_kept {r : Word} {s t : State} (h : unitResult r s = .next t) : Kept s t := by
  obtain ⟨-, h⟩ := live_next.mp h
  cases h
  exact ⟨rfl, rfl, rfl, rfl, rfl, ⟨rfl, rfl, rfl⟩, List.prefix_refl _, List.prefix_refl _, .inl rfl⟩

theorem unitDivide_kept {cmd : Instr} {r : Except Stop Word} {s t : State} (h : unitDivide cmd r s = .next t) : Kept s t := by
  obtain ⟨-, h⟩ := live_next.mp h
  split at h
  · cases h
    exact ⟨rfl, rfl, rfl, rfl, rfl, ⟨rfl, rfl, rfl⟩, List.prefix_refl _, List.prefix_refl _, .inl rfl⟩
  · rcases finish_next h with ⟨f, -, rfl⟩ | ⟨h, -⟩
    · exact ⟨rfl, rfl, rfl, rfl, rfl, ⟨rfl, rfl, rfl⟩, List.prefix_refl _, List.prefix_refl _, .inl rfl⟩
    · cases h

theorem execVertex_kept {x y z w : Word} {s t : State} (h : execVertex x y z w s = .next t) : Kept s t := by
  obtain ⟨-, h⟩ := live_next.mp h
  split at h <;> cases h
  · exact ⟨rfl, rfl, rfl, rfl, rfl, ⟨rfl, rfl, rfl⟩, List.prefix_refl _, List.prefix_refl _, .inl rfl⟩
  · exact ⟨rfl, rfl, rfl, rfl, rfl, ⟨rfl, rfl, rfl⟩, List.prefix_refl _, List.prefix_refl _, .inr rfl⟩

theorem execPolygon_kept {i0 i1 i2 i3 attr : Word} {s t : State} (h : execPolygon i0 i1 i2 i3 attr s = .next t) : Kept s t := by
  obtain ⟨-, h⟩ := live_next.mp h
  split at h
  · cases h
    exact ⟨rfl, rfl, rfl, rfl, rfl, ⟨rfl, rfl, rfl⟩, List.prefix_refl _, List.prefix_refl _, .inl rfl⟩
  · split at h
    · cases h
      exact ⟨rfl, rfl, rfl, rfl, rfl, ⟨rfl, rfl, rfl⟩, List.prefix_refl _, List.prefix_refl _, .inr rfl⟩
    · rcases finish_next h with ⟨f, -, rfl⟩ | ⟨-, h⟩
      · exact ⟨rfl, rfl, rfl, rfl, rfl, ⟨rfl, rfl, rfl⟩, List.prefix_refl _, List.prefix_refl _, .inl rfl⟩
      · unfold storeTriangles at h
        split at h <;> cases h
        · exact ⟨rfl, rfl, rfl, rfl, rfl, ⟨rfl, rfl, rfl⟩, List.prefix_refl _, List.prefix_refl _, .inl rfl⟩
        · exact ⟨rfl, rfl, rfl, rfl, rfl, ⟨rfl, rfl, rfl⟩, List.prefix_refl _, List.prefix_refl _, .inr rfl⟩

theorem execSwapBuffers_kept {s t : State} (h : execSwapBuffers s = .next t) : Kept s t := by
  obtain ⟨-, h⟩ := live_next.mp h
  rcases finish_next h with ⟨f, -, rfl⟩ | ⟨-, h⟩
  · exact ⟨rfl, rfl, rfl, rfl, rfl, ⟨rfl, rfl, rfl⟩, List.prefix_refl _, List.prefix_refl _, .inl rfl⟩
  · cases h
    exact ⟨rfl, rfl, rfl, rfl, rfl, ⟨rfl, rfl, rfl⟩, List.prefix_refl _, List.prefix_refl _, .inl rfl⟩

theorem execBeginFrame_kept {s t : State} (h : execBeginFrame s = .next t) : Kept s t := by
  obtain ⟨-, h⟩ := live_next.mp h
  split at h
  · cases h
    exact ⟨rfl, rfl, rfl, rfl, rfl, ⟨rfl, rfl, rfl⟩, List.prefix_append _ _, List.prefix_refl _, .inl rfl⟩
  · split at h
    · unfold beginPass at h
      split at h
      · cases h
      · dsimp only at h
        split at h <;> cases h
        exact ⟨rfl, rfl, rfl, rfl, rfl, ⟨rfl, rfl, rfl⟩, List.prefix_refl _, List.prefix_refl _, .inl rfl⟩
    · cases h; exact .refl _

theorem execNextLine_kept {s t : State} (h : execNextLine s = .next t) : Kept s t := by
  obtain ⟨-, h⟩ := live_next.mp h
  split at h
  · split at h
    · cases h
      exact ⟨rfl, rfl, rfl, rfl, rfl, ⟨rfl, rfl, rfl⟩, List.prefix_refl _, List.prefix_refl _, .inl rfl⟩
    · unfold yieldLine at h
      dsimp only at h
      split at h
      · cases h
      · split at h <;> cases h
        exact ⟨rfl, rfl, rfl, rfl, rfl, ⟨rfl, rfl, rfl⟩, List.prefix_refl _, List.prefix_append _ _, .inl rfl⟩
  · cases h
    exact ⟨rfl, rfl, rfl, rfl, rfl, ⟨rfl, rfl, rfl⟩, List.prefix_append _ _, List.prefix_refl _, .inl rfl⟩

theorem execEndFrame_kept {s t : State} (h : execEndFrame s = .next t) : Kept s t := by
  obtain ⟨-, h⟩ := live_next.mp h
  split at h <;> cases h
  · exact ⟨rfl, rfl, rfl, rfl, rfl, ⟨rfl, rfl, rfl⟩, List.prefix_refl _, List.prefix_refl _, .inl rfl⟩
  · exact ⟨rfl, rfl, rfl, rfl, rfl, ⟨rfl, rfl, rfl⟩, List.prefix_append _ _, List.prefix_refl _, .inl rfl⟩

/-- What no instruction writes, whichever it is. -/
theorem exec_kept {i : Instr} {s t : State} (h : exec i s = .next t) : Kept s t := by
  cases i with
  | setViewport =>
    obtain ⟨-, h⟩ := live_next.mp h
    cases h
    exact ⟨rfl, rfl, rfl, rfl, rfl, ⟨rfl, rfl, rfl⟩, List.prefix_refl _, List.prefix_refl _, .inr rfl⟩
  | vertex => exact execVertex_kept h
  | polygon => exact execPolygon_kept h
  | swapBuffers => exact execSwapBuffers_kept h
  | beginFrame => exact execBeginFrame_kept h
  | nextLine => exact execNextLine_kept h
  | endFrame => exact execEndFrame_kept h
  | qdiv => exact unitDivide_kept h
  | qdivi => exact unitDivide_kept h
  | qadd => exact unitResult_kept h
  | qsub => exact unitResult_kept h
  | qmul => exact unitResult_kept h
  | qneg => exact unitResult_kept h
  | qfromi => exact unitResult_kept h
  | qtoi => exact unitResult_kept h
  | qaddi => exact unitResult_kept h
  | qlt => exact unitResult_kept h

/-- Everything a step that answers a next state can be: a hold, a push, a refused word, a swap's critical section, or one
instruction at its port (60 R350). -/
theorem step_cases {s t : State} (h : step s = .next t) :
    s.fault = none ∧
      (t = s.beginStep ∨
        (s.turn = .producer ∧ ∃ c rest, decode .cmd s.io.cmdIn = .ok c rest ∧ s.chan.length < s.params.chanCap ∧
          t = (s.beginStep.takeCmd rest).push c) ∨
        (s.turn = .producer ∧ ∃ e, decode .cmd s.io.cmdIn = .refused e ∧
          t = (s.beginStep.refuse (.badCommand s.io.cmdPos)).takeCmd s.io.cmdIn.tail) ∨
        (s.turn = .consumer ∧ s.cphase = .swapWait ∧ s.lock = .free ∧ t = swapCommit s.beginStep) ∨
        (s.turn = .consumer ∧ s.cphase = .idle ∧ ∃ c rest, s.chan = c :: rest ∧ c.wellFormedAt .cmd = true ∧
          exec c { s.beginStep with chan := rest } = .next t) ∨
        (s.turn = .display ∧ ∃ r rest, decode .dport s.io.dispIn = .ok r rest ∧
          exec r { s.beginStep with io := { s.beginStep.io with dispIn := rest } } = .next t) ∨
        (s.turn = .display ∧ ∃ e, decode .dport s.io.dispIn = .refused e ∧
          t = { s.beginStep with io := { s.beginStep.io with dispIn := s.io.dispIn.tail } }.refuse .badRequest) ∨
        (s.turn = .unit ∧ ∃ r rest, decode .q12alu s.io.unitIn = .ok r rest ∧
          exec r { s.beginStep with io := { s.beginStep.io with unitIn := rest } } = .next t)) := by
  obtain ⟨hf, h⟩ := live_next.mp h
  refine ⟨hf, ?_⟩
  cases ht : s.turn with
  | producer =>
    rw [ht] at h
    simp only [turnOf, producerTurn] at h
    split at h
    · rename_i c rest hd
      split at h
      · rename_i hl
        exact .inr (.inl ⟨rfl, c, rest, hd, hl, by simpa using h.symm⟩)
      · exact .inl (by simpa using h.symm)
    · exact .inl (by simpa using h.symm)
    · rename_i e hd
      exact .inr (.inr (.inl ⟨rfl, e, hd, by simpa using h.symm⟩))
  | consumer =>
    rw [ht] at h
    simp only [turnOf, consumerTurn] at h
    split at h
    · rename_i hc
      split at h
      · rename_i hl
        exact .inr (.inr (.inr (.inl ⟨rfl, hc, hl, by simpa using h.symm⟩)))
      · exact .inl (by simpa using h.symm)
    · rename_i hc
      split at h
      · exact .inl (by simpa using h.symm)
      · rename_i c rest hch
        split at h
        · rename_i hw
          exact .inr (.inr (.inr (.inr (.inl ⟨rfl, hc, c, rest, hch, hw, h⟩))))
        · cases h
  | display =>
    rw [ht] at h
    simp only [turnOf, displayTurn] at h
    split at h
    · rename_i r rest hd
      split at h
      · exact .inl (by simpa using h.symm)
      · exact .inr (.inr (.inr (.inr (.inr (.inl ⟨rfl, r, rest, hd, h⟩)))))
    · exact .inl (by simpa using h.symm)
    · rename_i e hd
      exact .inr (.inr (.inr (.inr (.inr (.inr (.inl ⟨rfl, e, hd, by simpa using h.symm⟩))))))
  | unit =>
    rw [ht] at h
    simp only [turnOf, unitTurn] at h
    split at h
    · rename_i r rest hd
      exact .inr (.inr (.inr (.inr (.inr (.inr (.inr ⟨rfl, r, rest, hd, h⟩))))))
    · exact .inl (by simpa using h.symm)
    · cases h

end Sys2Proof.Machine
end

