-- ==== Sys2Proof/Laws/Runs.lean ====
section
/-! SUPPORT. The small facts of runs, swaps and fairness (60 R350 to R353). -/

namespace Sys2Proof.Machine

theorem State.swapsNow_iff (s : State) :
    s.swapsNow = true ↔ s.turn = .consumer ∧ s.cphase = .swapWait ∧ s.lock = .free := by
  simp [State.swapsNow, and_assoc]

@[simp] theorem swapsIn_zero (r : Nat → State) : swapsIn r 0 = 0 := rfl

theorem swapsIn_succ (r : Nat → State) (n : Nat) : swapsIn r (n + 1) = swapsIn r n + if (r n).swapsNow then 1 else 0 := rfl

/-- A state that answers a next state is not halted (60 R341). -/
theorem fault_of_step {s t : State} (h : step s = .next t) : s.fault = none := (step_cases h).1

/-- No state of a run that never ends is halted. -/
theorem isRun.fault {r : Nat → State} (h : isRun r) (n : Nat) : (r n).fault = none := fault_of_step (h n)

@[simp] theorem mem_agents (t : Turn) : t ∈ agents ↔ t ≠ .unit := by cases t <;> simp [agents]

/-- An idle consumer is able to step exactly while commands wait (41 R181). -/
theorem State.canStep_idle {s : State} (hf : s.fault = none) (hc : s.cphase = .idle) :
    s.canStep .consumer = true ↔ s.chan ≠ [] := by
  simp [State.canStep, hf, hc]

/-- A consumer whose swap waits is able to step exactly while the lock is free (44 R281). -/
theorem State.canStep_swapWait {s : State} (hf : s.fault = none) (hc : s.cphase = .swapWait) :
    s.canStep .consumer = true ↔ s.lock = .free := by
  simp [State.canStep, hf, hc]

/-- A producer is able to step when its next command finds room (41 R180). -/
theorem State.canStep_producer {s : State} {c : Instr} {rest : List Word} (hf : s.fault = none)
    (hd : decode .cmd s.io.cmdIn = .ok c rest) : s.canStep .producer = true ↔ s.chan.length < s.params.chanCap := by
  simp [State.canStep, hf, hd]

/-- A display is able to step when its next request does not wait for the lock (45 R300). -/
theorem State.canStep_display {s : State} {i : Instr} {rest : List Word} (hf : s.fault = none)
    (hd : decode .dport s.io.dispIn = .ok i rest) :
    s.canStep .display = true ↔ (i = .beginFrame → s.dpass.active = true ∨ s.lock = .free) := by
  simp only [State.canStep, hf, hd, State.beginHolds]
  by_cases h : i = .beginFrame <;> simp [h, Bool.or_eq_true]

end Sys2Proof.Machine
end

