-- ==== Sys2Proof/Machine/Asm.lean ====
section
/-! DEFINITION. The spec's way of writing command programs: one command a line, operands separated by commas, a comment after a
semicolon, decimal or hexadecimal integers, q(r) literals for the operands of VERTEX, and the pseudo-instructions (30 R122, R123;
00 R22). Notation only: no step of the machine uses it (92 D21; log 26). -/

namespace Sys2Proof.Machine

/-- A blank of the notation. -/
def isBlank (c : Char) : Bool := c == ' ' || c == '\t'

/-- A text without the blanks around it. -/
def trimBlanks (cs : List Char) : List Char := ((cs.dropWhile isBlank).reverse.dropWhile isBlank).reverse

/-- A text cut at every occurrence of a character. -/
def cutAt (c : Char) : List Char → List (List Char)
  | [] => [[]]
  | d :: ds =>
    if d == c then [] :: cutAt c ds
    else match cutAt c ds with
      | [] => [[d]]
      | w :: ws => (d :: w) :: ws

/-- The value of a digit: decimal, or hexadecimal with letters of either case. -/
def digitValue (c : Char) : Option Nat :=
  if '0' ≤ c ∧ c ≤ '9' then some (c.toNat - 48)
  else if 'a' ≤ c ∧ c ≤ 'f' then some (c.toNat - 87)
  else if 'A' ≤ c ∧ c ≤ 'F' then some (c.toNat - 55)
  else none

/-- Digits of a base read on from a value. -/
def digitsFrom (base : Nat) : Nat → List Char → Option Nat
  | n, [] => some n
  | n, c :: cs =>
    match digitValue c with
    | none => none
    | some d => if d < base then digitsFrom base (n * base + d) cs else none

/-- A number of at least one digit. -/
def numberIn (base : Nat) : List Char → Option Nat
  | [] => none
  | cs => digitsFrom base 0 cs

/-- An unsigned integer, decimal or `0x` hexadecimal. -/
def unsignedOf : List Char → Option Nat
  | '0' :: 'x' :: cs => numberIn 16 cs
  | cs => numberIn 10 cs

/-- An integer, with or without a minus sign. -/
def integerOf : List Char → Option Int
  | '-' :: cs => (unsignedOf cs).map fun n => -(n : Int)
  | cs => (unsignedOf cs).map fun n => (n : Int)

/-- The word of an integer operand, which must be an Int32 or a Word32 (30 R115). -/
def wordOf (n : Int) : Option Word := if -(2 ^ 31) ≤ n ∧ n < 2 ^ 32 then some (BitVec.ofInt 32 n) else none

/-- The raw value of `q(r)` for `r` the exact quotient `num / den`: legal only when `r * 4096` is an integer in the Int32 range
(00 R22, 30 R122). -/
def qLiteral (num : Int) (den : Nat) : Option Word :=
  let raw := num * 4096
  if den ≠ 0 ∧ raw % (den : Int) = 0 ∧ -(2 ^ 31) ≤ raw / (den : Int) ∧ raw / (den : Int) < 2 ^ 31 then
    some (BitVec.ofInt 32 (raw / (den : Int)))
  else none

/-- The `r` of a q literal without its sign: digits, and perhaps a point and more digits; as a quotient. -/
def decimalOf (cs : List Char) : Option (Nat × Nat) :=
  match cutAt '.' cs with
  | [whole] => (numberIn 10 whole).map fun n => (n, 1)
  | [whole, frac] =>
    match numberIn 10 whole, numberIn 10 frac with
    | some n, some m => some (n * 10 ^ frac.length + m, 10 ^ frac.length)
    | _, _ => none
  | _ => none

/-- The text between the parentheses of a q literal. -/
def qInside : List Char → Option (List Char)
  | 'q' :: '(' :: cs =>
    match cs.reverse with
    | ')' :: inside => some (trimBlanks inside.reverse)
    | _ => none
  | _ => none

/-- The word of a q literal's inside. -/
def qWord : List Char → Option Word
  | '-' :: cs => (decimalOf cs).bind fun r => qLiteral (-(r.1 : Int)) r.2
  | cs => (decimalOf cs).bind fun r => qLiteral (r.1 : Int) r.2

/-- An integer operand. -/
def integerOperand (cs : List Char) : Option Word := (integerOf cs).bind wordOf

/-- An operand of VERTEX: a raw integer or a q literal (30 R122). -/
def q12Operand (cs : List Char) : Option Word :=
  match qInside cs with
  | some inside => qWord inside
  | none => integerOperand cs

/-- Operands read one by one, all or none. -/
def operandsBy (read : List Char → Option Word) : List (List Char) → Option (List Word)
  | [] => some []
  | c :: cs =>
    match read c, operandsBy read cs with
    | some w, some ws => some (w :: ws)
    | _, _ => none

/-- The mnemonic of a line, and its operands. -/
def splitLine (cs : List Char) : List Char × List (List Char) :=
  let name := cs.takeWhile fun c => !isBlank c
  let rest := trimBlanks (cs.drop name.length)
  (name, if rest.isEmpty then [] else (cutAt ',' rest).map trimBlanks)

/-- The instruction of a mnemonic and its operand texts (30 R122, R123). -/
def assembleParts (name : List Char) (args : List (List Char)) : Option Instr :=
  if name = "VERTEX".toList then
    match operandsBy q12Operand args with
    | some [x, y, z, w] => some (.vertex x y z w)
    | _ => none
  else
    match operandsBy integerOperand args with
    | none => none
    | some ws =>
      if name = "SETVIEWPORT".toList then
        match ws with
        | [a, b, c, d] => some (.setViewport a b c d)
        | _ => none
      else if name = "POLYGON".toList then
        match ws with
        | [i0, i1, i2, i3, attr] => some (.polygon i0 i1 i2 i3 attr)
        | _ => none
      else if name = "TRI".toList then
        match ws with
        | [i0, i1, i2] => (Pseudo.tri i0 i1 i2 none).expand
        | [i0, i1, i2, attr] => (Pseudo.tri i0 i1 i2 (some attr)).expand
        | _ => none
      else if name = "QUAD".toList then
        match ws with
        | [i0, i1, i2, i3] => (Pseudo.quad i0 i1 i2 i3 none).expand
        | [i0, i1, i2, i3, attr] => (Pseudo.quad i0 i1 i2 i3 (some attr)).expand
        | _ => none
      else if ws ≠ [] then none
      else if name = "SWAPBUFFERS".toList then some .swapBuffers
      else if name = "BEGINFRAME".toList then some .beginFrame
      else if name = "NEXTLINE".toList then some .nextLine
      else if name = "ENDFRAME".toList then some .endFrame
      else none

/-- One line: nothing for a line of blanks or comment, else its instruction; none where the assembler rejects it. -/
def assembleLine (line : List Char) : Option (List Instr) :=
  match trimBlanks (line.takeWhile fun c => c != ';') with
  | [] => some []
  | cs => (assembleParts (splitLine cs).1 (splitLine cs).2).map fun i => [i]

/-- The instructions of a program's lines, in order; none where a line is rejected. -/
def assemble : List (List Char) → Option (List Instr)
  | [] => some []
  | l :: ls =>
    match assembleLine l, assemble ls with
    | some is, some js => some (is ++ js)
    | _, _ => none

end Sys2Proof.Machine
end

