-- ==== Sys2Proof/Tests/Slice0.lean ====
section
/-! SUPPORT. Tests of the model against the spec's own examples (95_test_vectors.md, 30 R124), and the witnesses of the
obligations' hypotheses. Every expected value is the spec's. -/

namespace Sys2Proof.Tests

open Sys2Proof.Machine

/-! ## Small states -/

/-- Reset with the viewport of 95 and a channel of two commands. -/
def base : State :=
  { State.reset with
    params := { Config.defaults with chanCap := 2 }
    vp := { vx0 := 0, vy0 := 0, vx1 := 255, vy1 := 191 } }

/-- A state whose next turn is the one named. -/
def atTurn (t : Turn) (s : State) : State := { s with io := { s.io with sched := [t] } }

/-- A state with words waiting at a port. -/
def withWords (p : Port) (ws : List Word) (s : State) : State :=
  match p with
  | .cmd => { s with io := { s.io with cmdIn := ws } }
  | .dport => { s with io := { s.io with dispIn := ws } }
  | .q12alu => { s with io := { s.io with unitIn := ws } }

/-- The next state of an outcome. -/
def nextOf (o : Host.Outcome State Fault Refusal) : Option State :=
  match o with
  | .next t => some t
  | .fault _ => none
  | .refused _ => none

/-- What an instruction puts out on `base`. -/
def outOf (i : Instr) : Option Output := (nextOf (exec i base)).map fun t => t.io.out

/-- The fatal fault an instruction raises. -/
def faultOf (i : Instr) (s : State) : Option Fatal :=
  (nextOf (exec i s)).bind fun t => t.fault.map fun r => { code := r.code, info := r.info }

/-- A Q12 raw value or Int32 as a word. -/
def q (n : Int) : Word := BitVec.ofInt 32 n

/-- The three vertices of program P1, before the transform. -/
def triVerts : List Vertex :=
  [newVertex false (q (-896)) (q (-3669)) 0 4096, newVertex false (q (-2496)) (q (-1962)) 0 4096,
    newVertex false 704 (q (-1962)) 0 4096]

/-- The three vertices of program P1, transformed (V-XF-1, V-XF-2, V-XF-4). -/
def triDone : List Vertex :=
  [{ cx := q (-896), cy := q (-3669), cz := 0, cw := 4096, flags := 0x40#7, screen := some { sx := 100, sy := 10, sz := 0 } },
    { cx := q (-2496), cy := q (-1962), cz := 0, cw := 4096, flags := 0x40#7, screen := some { sx := 50, sy := 50, sz := 0 } },
    { cx := 704, cy := q (-1962), cz := 0, cw := 4096, flags := 0x40#7, screen := some { sx := 150, sy := 50, sz := 0 } }]

/-- The polygon of program P1 before setup. -/
def triRaw : Polygon := { vi := ⟨0, 1, 2⟩, attr := 0, setup := none }

/-- The polygon of program P1 after setup (V-SET-1). -/
def triSet : Polygon :=
  { vi := ⟨0, 1, 2⟩, attr := 0
    setup := some { hy := 50, dl0 := q (-5120), dl1 := 409600, dr0 := 5120, dr1 := 5120, cx0 := 409600, cx1 := 409600,
                    cx0Init := 409600, cx1Init := 409600 } }

/-- `base` with program P1's vertices in "next". -/
def vertsState : State := { base with mem := { base.mem with slot0 := { verts := triVerts, polys := [] } } }

/-- `base` with program P1's triangle stored in "next". -/
def storedState : State := { base with mem := { base.mem with slot0 := { verts := triDone, polys := [triRaw] } } }

/-- A swap waiting for the lock, "next" set up. -/
def waitState : State :=
  { base with mem := { base.mem with slot0 := { verts := triDone, polys := [triSet] } }, cphase := .swapWait }

/-- Program P1's frame as "current", no pass. -/
def shownState : State := { base with mem := { base.mem with slot1 := { verts := triDone, polys := [triSet] } } }

/-- A pass over program P1's frame at a line. -/
def passState (y : Nat) : State :=
  { shownState with
    bk := (buildBuckets shownState.curFrame).toOption
    lock := .display
    dpass := { active := true, line := y } }

/-- A vertex that carries every clip flag (V-CLIP-8). -/
def clippedState : State := { base with mem := { base.mem with slot0 := { verts := [newVertex false 0 0 0 0], polys := [] } } }

/-- A halted block. -/
def haltedState : State := base.raise .swapBuffers { code := .divZero, info := [4096] }

/-! ## Well-formedness: an ill-formed term for each check -/

theorem test_wellFormed_ports :
    (Instr.vertex 1 2 3 4).wellFormedAt .cmd = true ∧ Instr.nextLine.wellFormedAt .dport = true ∧
      (Instr.qadd 1 2).wellFormedAt .q12alu = true := by decide

theorem test_wellFormed_refuses_foreign_ports :
    (Instr.qadd 1 2).wellFormedAt .cmd = false ∧ Instr.nextLine.wellFormedAt .cmd = false ∧
      Instr.swapBuffers.wellFormedAt .dport = false ∧ (Instr.vertex 1 2 3 4).wellFormedAt .q12alu = false := by decide

theorem test_wellFormed_refuses_tri_with_quad_flag :
    (Pseudo.tri 0 1 2 (some 0x80000000#32)).wellFormed = false ∧ (Pseudo.tri 0 1 2 (some 7)).wellFormed = true ∧
      (Pseudo.tri 0 1 2 (some 0x80000000#32)).expand = none := by decide

/-! ## Decoding: words written out from 30 R111, R113, R114 -/

theorem test_decode_setViewport :
    decode .cmd [0b00000000000000000000000000000001#32, 0, 0, 0x7F, 0x5F] = .ok (.setViewport 0 0 127 95) [] := by decide

theorem test_decode_vertex :
    decode .cmd [0b00000000000000000000000000000010#32, 0xFFFFFC80, 0xFFFFF1AB, 0, 0x1000, 4] =
      .ok (.vertex (q (-896)) (q (-3669)) 0 4096) [4] := by decide

theorem test_decode_polygon :
    decode .cmd [0b00000000000000000000000000000011#32, 0, 1, 2, 3, 0x80000000] = .ok (.polygon 0 1 2 3 0x80000000) [] := by
  decide

theorem test_decode_swapBuffers : decode .cmd [0b00000000000000000000000000000100#32] = .ok .swapBuffers [] := by decide

theorem test_decode_display_requests :
    decode .dport [0b01#32, 2] = .ok .beginFrame [2] ∧ decode .dport [0b10#32] = .ok .nextLine [] ∧
      decode .dport [0b11#32] = .ok .endFrame [] := by decide

theorem test_decode_unit_first_five :
    decode .q12alu [0b0000#32, 7, 9] = .ok (.qadd 7 9) [] ∧ decode .q12alu [0b0001#32, 7, 9] = .ok (.qsub 7 9) [] ∧
      decode .q12alu [0b0010#32, 7, 9] = .ok (.qmul 7 9) [] ∧ decode .q12alu [0b0011#32, 7, 9] = .ok (.qdiv 7 9) [] ∧
      decode .q12alu [0b0100#32, 7, 9] = .ok (.qneg 7 9) [] := by decide

theorem test_decode_unit_last_five :
    decode .q12alu [0b0101#32, 7, 9] = .ok (.qfromi 7 9) [] ∧ decode .q12alu [0b0110#32, 7, 9] = .ok (.qtoi 7 9) [] ∧
      decode .q12alu [0b0111#32, 7, 9] = .ok (.qaddi 7 9) [] ∧ decode .q12alu [0b1000#32, 7, 9] = .ok (.qdivi 7 9) [] ∧
      decode .q12alu [0b1001#32, 7, 9] = .ok (.qlt 7 9) [] := by decide

/-- V-FLT-8 to V-FLT-12, 30 R120. -/
theorem test_decode_refuses_reserved :
    decode .cmd [0x00000005] = .refused .badCommand ∧ decode .cmd [0x00000012] = .refused .badCommand ∧
      decode .cmd [0x00000000] = .refused .badCommand ∧ decode .dport [0x00000000] = .refused .badRequest ∧
      decode .dport [0x00000005] = .refused .badRequest ∧ decode .q12alu [0xA, 1, 2] = .refused .reservedSelector ∧
      decode .q12alu [0xF, 1, 2] = .refused .reservedSelector := by decide

/-- V-ENC-7. -/
theorem test_decode_incomplete : decode .cmd [0x00000002, 0x00000000] = .incomplete := by decide

/-- V-ENC-1 and V-ENC-2, the bytes. -/
theorem test_encode_bytes :
    encodeBytes .swapBuffers = [0x04, 0x00, 0x00, 0x00] ∧
      encodeBytes (.vertex (q (-896)) (q (-3669)) 0 4096) =
        [0x02, 0x00, 0x00, 0x00, 0x80, 0xFC, 0xFF, 0xFF, 0xAB, 0xF1, 0xFF, 0xFF, 0x00, 0x00, 0x00, 0x00, 0x00, 0x10, 0x00, 0x00] := by
  decide

theorem test_decode_bytes :
    decodeBytes .cmd [0x04, 0x00, 0x00, 0x00, 0x02] = .ok .swapBuffers [] ∧
      decodeBytes .dport [0x03, 0x00, 0x00, 0x00] = .ok .endFrame [] := by decide

theorem test_table_words :
    decodeTableWord 32 3 = some (.polygon 0 0 0 0 0) ∧ decodeTableWord 32 5 = none ∧ decodeTableWord 8 9 = some (.qlt 0 0) ∧
      decodeTableWord 8 0xA = none := by decide

/-- V-ENC-3 to V-ENC-5. -/
theorem test_assemble_pseudo :
    assembleLine "QUAD 0, 1, 2, 3".toList = some [.polygon 0 1 2 3 0x80000000] ∧
      assembleLine "TRI 4, 5, 6, 7 ; a triangle".toList = some [.polygon 4 5 6 0 7] := by decide

/-- 00 R22: the examples of q literals, and one that is no multiple of 1/4096. -/
theorem test_assemble_literals :
    q12Operand "q(-0.21875)".toList = some (q (-896)) ∧ q12Operand "q(1.25)".toList = some 5120 ∧
      q12Operand "-0x10".toList = some (q (-16)) ∧ q12Operand "q(0.1)".toList = none := by decide

/-! ## The arithmetic unit (95 section 2.1) -/

/-- V-ALU-1, V-ALU-2. -/
theorem test_qadd : outOf (.qadd 4096 6144) = some (.result 10240) ∧
    outOf (.qadd (q 2147483647) 1) = some (.result (q (-2147483648))) := by decide

/-- V-ALU-4, V-ALU-6. -/
theorem test_qsub : outOf (.qsub 4096 6144) = some (.result (q (-2048))) ∧
    outOf (.qsub 0 (q (-2147483648))) = some (.result (q (-2147483648))) := by decide

/-- V-ALU-8, V-ALU-15. -/
theorem test_qmul : outOf (.qmul (q (-1)) 1) = some (.result (q (-1))) ∧
    outOf (.qmul (q 2147483647) (q 2147483647)) = some (.result (q (-1048576))) := by decide

/-- V-ALU-18, V-ALU-21. -/
theorem test_qdiv : outOf (.qdiv (q (-4096)) 12288) = some (.result (q (-1365))) ∧
    outOf (.qdiv (q (-2147483648)) (q (-1))) = some (.result 0) := by decide

/-- V-ALU-24. -/
theorem test_qdiv_by_zero : faultOf (.qdiv 4096 0) base = some { code := .divZero, info := [4096] } := by decide

/-- V-ALU-25, V-ALU-26. -/
theorem test_qneg : outOf (.qneg 4096 77) = some (.result (q (-4096))) ∧
    outOf (.qneg (q (-2147483648)) 0) = some (.result (q (-2147483648))) := by decide

/-- V-ALU-28, V-ALU-29. -/
theorem test_qfromi : outOf (.qfromi 524288 0) = some (.result (q (-2147483648))) ∧
    outOf (.qfromi (q (-524289)) 0) = some (.result (q 2147479552)) := by decide

/-- V-ALU-32, V-ALU-34. -/
theorem test_qtoi : outOf (.qtoi (q (-1)) 0) = some (.result (q (-1))) ∧
    outOf (.qtoi (q (-4097)) 0) = some (.result (q (-2))) := by decide

/-- V-ALU-36, V-ALU-37. -/
theorem test_qaddi : outOf (.qaddi 5120 3) = some (.result 17408) ∧
    outOf (.qaddi (q 2147483647) 1) = some (.result (q (-2147479553))) := by decide

/-- V-ALU-39, V-ALU-41. -/
theorem test_qdivi : outOf (.qdivi (q (-5)) 2) = some (.result (q (-2))) ∧
    outOf (.qdivi (q (-2147483648)) (q (-1))) = some (.result (q (-2147483648))) := by decide

/-- V-ALU-44. -/
theorem test_qdivi_by_zero : faultOf (.qdivi 7 0) base = some { code := .divZero, info := [7] } := by decide

/-- V-ALU-46, V-ALU-47. -/
theorem test_qlt : outOf (.qlt (q (-4096)) (q (-4096))) = some (.result 0) ∧
    outOf (.qlt (q (-2147483648)) (q 2147483647)) = some (.result 1) := by decide

/-! ## Clip flags and the transform (95 sections 2.2 and 2.3) -/

/-- V-CLIP-3, V-CLIP-4, V-CLIP-5, V-CLIP-6. -/
theorem test_clip_edges :
    clipFlags false 4096 (q (-4096)) 0 4096 = 0 ∧ clipFlags true 4097 0 0 4096 = 0b000010#6 ∧
      clipFlags false 0 (q (-4097)) 0 4096 = 0b000100#6 ∧ clipFlags true 0 0 5000 4096 = 0b100000#6 := by decide

/-- V-CLIP-7 to V-CLIP-10. -/
theorem test_clip_degenerate :
    clipFlags true 0 0 0 (q (-4096)) = 0b111111#6 ∧ clipFlags false 7 7 7 0 = 0b111111#6 ∧
      clipFlags true 0 0 0 (q (-2147483648)) = 0b101010#6 ∧
      clipFlags false (q (-2147483648)) (q (-2147483648)) 0 (q (-2147483648)) = 0 := by decide

/-- The screen position a transform answers. -/
def screenAt (vp : Viewport) (x y z w : Word) : Option Screen :=
  match transformVertex vp (newVertex false x y z w) with
  | .ok e => e.screen
  | .error _ => none

/-- V-XF-1, V-XF-6. -/
theorem test_transform_full_screen :
    screenAt base.vp (q (-896)) (q (-3669)) 0 4096 = some { sx := 100, sy := 10, sz := 0 } ∧
      screenAt base.vp 4096 4096 4096 4096 = some { sx := 256, sy := 192, sz := 1 } := by decide

/-- V-XF-9, V-XF-10, V-XF-12. -/
theorem test_transform_corners :
    screenAt base.vp 1 1 0 3 = some { sx := 170, sy := 128, sz := 0 } ∧
      screenAt { vx0 := 10, vy0 := 20, vx1 := 109, vy1 := 69 } 0 0 0 4096 = some { sx := 60, sy := 45, sz := 0 } ∧
      screenAt base.vp 0 0 0 1 = some { sx := q (-128), sy := 96, sz := 0 } := by decide

/-! ## Setup and rasterizer (95 sections 2.4 and 2.6) -/

/-- A triangle's setup from three screen positions. -/
def setupOf (net : List (Pos × Pos)) (a b c : Int × Int) : Option Setup :=
  let at' (p : Int × Int) : Vertex :=
    { cx := 0, cy := 0, cz := 0, cw := 4096, flags := 0x40#7, screen := some { sx := q p.1, sy := q p.2, sz := 0 } }
  (setupPolygon net [at' a, at' b, at' c] { vi := ⟨0, 1, 2⟩, attr := 0, setup := none }).1.setup

/-- The slopes and bounds of a setup, in the order of 95 section 2.4. -/
def setupRow (k : Setup) : List Int :=
  [k.hy.toInt, k.dl0.toInt, k.dl1.toInt, k.dr0.toInt, k.dr1.toInt, k.cx0.toInt, k.cx1.toInt]

/-- V-SET-2, V-SET-3. -/
theorem test_setup_sort_and_swap :
    (setupOf Config.sortNetDefault (50, 50) (100, 10) (150, 50)).map setupRow =
        some [50, -5120, 409600, 5120, 5120, 409600, 409600] ∧
      (setupOf Config.sortNetDefault (50, 10) (150, 10) (100, 50)).map setupRow =
        some [10, 5120, 5120, 409600, -5120, 209920, 614400] := by decide

/-- V-SET-6, V-SET-6b. -/
theorem test_setup_networks :
    (setupOf Config.sortNetDefault (50, 10) (150, 10) (100, 5)).map setupRow =
        some [10, -40960, -40960, 40960, -409600, 409600, 409600] ∧
      (setupOf [(.p0, .p1), (.p1, .p2), (.p0, .p1)] (50, 10) (150, 10) (100, 5)).map setupRow =
        some [10, -40960, 409600, 40960, 40960, 409600, 409600] := by decide

theorem test_sort_networks_admitted :
    sortNetWf Config.sortNetDefault = true ∧ sortNetWf [(.p0, .p1), (.p1, .p2), (.p0, .p1)] = true ∧
      sortNetWf [(.p0, .p1), (.p0, .p1), (.p0, .p1)] = false := by decide

/-- The columns a set-up triangle draws on a line, from its bounds after setup. -/
def columnsOn (k : Setup) (first y : Nat) : List Nat :=
  spanColumns ((List.range (y - first)).foldl (fun k i => advanceBounds k (first + i)) k)

/-- V-RAS-5: lines 1 and 3; V-RAS-8: line 181 of a triangle whose lower corners are below the display. -/
theorem test_raster_spans :
    (setupOf Config.sortNetDefault (20, 0) (10, 4) (30, 4)).map (fun k => (columnsOn k 0 1, columnsOn k 0 3)) =
        some (List.range' 17 6, List.range' 12 16) ∧
      (setupOf Config.sortNetDefault (0, 180) (255, 192) (0, 192)).map (fun k => columnsOn k 180 181) =
        some (List.range' 0 22) := by decide +kernel

/-- V-RAS-6: the part of a span right of the display is skipped. -/
theorem test_raster_skips_offscreen :
    (setupOf Config.sortNetDefault (-10, 0) (300, 0) (100, 10)).map (fun k => (columnsOn k 0 1, columnsOn k 0 10)) =
      some (List.range' 12 244, []) := by decide +kernel

/-! ## The commands and the display requests -/

theorem test_setViewport :
    (nextOf (exec (.setViewport 0 0 127 95) base)).map (fun t => (t.vp, t.seq)) =
      some ({ vx0 := 0, vy0 := 0, vx1 := 127, vy1 := 95 }, 1) := by decide

/-- P1's first vertex. -/
theorem test_vertex :
    (nextOf (exec (.vertex (q (-896)) (q (-3669)) 0 4096) base)).map (fun t => t.nextFrame.verts) = some [triVerts[0]] := by decide

/-- "next" with a full vertex array, the same vertex 4096 times. -/
def fullVerts : List Vertex := List.replicate 4096 (newVertex false 0 0 0 4096)

theorem fullVerts_length : fullVerts.length = 4096 := List.length_replicate

/-- V-FLT-1: the array is full. -/
theorem test_vertex_overflow (vs : List Vertex) (h : vs.length = 4096) :
    let s := { base with mem := { base.mem with slot0 := { verts := vs, polys := [] } } }
    exec (.vertex 0 0 0 4096) s = .next (s.raise (.vertex 0 0 0 4096) { code := .vertexOverflow, info := [4096] }) := by
  have h' : vs.length = Config.vcap := h
  have e : (vs.length : Int) = 4096 := by omega
  exact (if_pos h').trans (congrArg (fun n : Int => Host.Outcome.next (State.raise _ _ { code := .vertexOverflow, info := [n] })) e)

/-- P1: the triangle is transformed and stored. -/
theorem test_polygon_stores :
    (nextOf (exec (.polygon 0 1 2 0xFFFFFFFF 0) vertsState)).map (fun t => t.nextFrame) =
      some { verts := triDone, polys := [triRaw] } := by decide

/-- V-FLT-2, V-FLT-3, V-FLT-7. -/
theorem test_polygon_refuses_indices :
    faultOf (.polygon 0 5 0 0 0) clippedState = some { code := .polyIndexRange, info := [1, 5, 1] } ∧
      (nextOf (exec (.polygon 0 0 0 0 0) clippedState)).map (fun t => (t.nextFrame, t.seq)) =
        some (clippedState.nextFrame, 1) ∧
      faultOf (.polygon 0 1 2 0xFFFFFFFF 0x80000000) vertsState =
        some { code := .polyIndexRange, info := [3, 4294967295, 3] } := by decide

/-- P1: phase 1 sets the triangle up. -/
theorem test_swapBuffers :
    (nextOf (exec .swapBuffers storedState)).map (fun t => (t.nextFrame.polys, t.cphase, t.fc)) =
      some ([triSet], .swapWait, 0) := by decide

/-- V-SWP-4: the counter wraps. -/
theorem test_swapCommit_wraps :
    let s := atTurn .consumer { waitState with fc := 0xFFFFFFFF#32, nextSlot := .one, curSlot := .zero }
    (nextOf (step s)).map (fun t => (t.fc, t.nextSlot, t.curSlot, t.cphase, t.seq)) =
      some (0, .zero, .one, .idle, 1) := by decide

/-- P1: which buckets name the triangle. -/
theorem test_beginFrame :
    (nextOf (exec .beginFrame shownState)).map
        (fun t => (t.lock, t.dpass, t.bk.map fun b => (b.map List.length, b.getD 10 []))) =
      some (.display, { active := true, line := 0 },
        some (List.replicate 10 0 ++ List.replicate 41 1 ++ List.replicate 141 0, [0])) := by decide +kernel

/-- V-FLT-13, V-FLT-14. -/
theorem test_display_refusals :
    (nextOf (exec .beginFrame (passState 0))).map (fun t => t.refusals) = some [.nestedBegin] ∧
      (nextOf (exec .nextLine shownState)).map (fun t => t.refusals) = some [.notInPass] ∧
      (nextOf (exec .endFrame shownState)).map (fun t => t.refusals) = some [.notInPass] := by decide

/-- V-RAS-1, line 10: one pixel at column 100, and the bounds of line 11. -/
theorem test_nextLine :
    (nextOf (exec .nextLine (passState 10))).map (fun t => (t.dpass.line, t.io.pixels.map fun e => (e.y, e.x))) =
        some (11, [(10, 100)]) ∧
      (nextOf (exec .nextLine (passState 10))).map
          (fun t => t.curFrame.polys.map fun p => p.setup.map fun k => (k.cx0, k.cx1)) =
        some [some (404480#32, 414720#32)] := by decide

/-- V-RAS-14. -/
theorem test_nextLine_end :
    (nextOf (exec .nextLine (passState 192))).map (fun t => (t.io.out, t.dpass.line)) = some (.endOfPass, 192) := by decide

theorem test_endFrame :
    (nextOf (exec .endFrame (passState 7))).map (fun t => (t.lock, t.dpass)) =
      some (.free, { active := false, line := 0 }) := by decide

/-- V-FLT-15: no step after a fault. -/
theorem test_halted : nextOf (step haltedState) = none ∧ nextOf (exec (.qadd 1 1) haltedState) = none := by decide

/-! ## Steps and the host's placing -/

/-- V-SCH-1: a full channel makes the producer hold. -/
theorem test_producer_step :
    (nextOf (step (atTurn .producer (withWords .cmd [4, 4] base)))).map (fun t => (t.chan, t.io.cmdIn, t.io.cmdPos)) =
        some ([.swapBuffers], [4], 1) ∧
      (nextOf (step (atTurn .producer (withWords .cmd [4] { base with chan := [.swapBuffers, .swapBuffers] })))).map
          (fun t => (t.chan.length, t.io.cmdIn)) = some (2, [4]) := by decide

/-- V-SCH-4: while the display holds the lock the swap waits. -/
theorem test_swap_waits_for_the_lock :
    (nextOf (step (atTurn .consumer { waitState with lock := .display }))).map (fun t => (t.cphase, t.fc)) =
      some (.swapWait, 0) := by decide

theorem test_withFetchWord :
    (nextOf (step (base.withFetchWord 32 2))).map (fun t => t.nextFrame.verts.length) = some 1 ∧
      (nextOf (step (base.withFetchWord 8 9))).map (fun t => t.io.out) = some (.result 0) ∧
      (nextOf (step (base.withFetchWord 32 4))).map (fun t => t.cphase) = some .swapWait := by decide

/-! ## Witnesses: concrete states and operands that meet the hypotheses of the obligations -/

/-! ### Decoding and the turns -/

theorem witness_bytesDecodeLikeWords : ([1, 2, 3] : List Byte).length < 4 ∧ ([] : List Byte).length < 4 := by decide

theorem witness_pseudosExpandToOnePolygon : (0x7FFFFFFF#32).getLsbD 31 = false ∧ (0x80000000#32).getLsbD 31 = true := by decide

/-- Both clauses, the first with tag 5 and with a reserved bit. -/
theorem witness_refusedWordsSetTheMark :
    (let s := atTurn .producer (withWords .cmd [5, 4] base)
     s.fault = none ∧ s.turn = .producer ∧ s.io.cmdIn = 5 :: [4] ∧ decode .cmd [5, 4] = .refused .badCommand) ∧
    (let s := atTurn .display (withWords .dport [0, 1] base)
     s.fault = none ∧ s.turn = .display ∧ s.io.dispIn = 0 :: [1] ∧ decode .dport [0, 1] = .refused .badRequest) := by decide

/-- No word yet, and all but the last word of a POLYGON. -/
theorem witness_incompletePacketWaits :
    (let s := atTurn .producer base
     s.fault = none ∧ s.turn = .producer ∧ s.io.cmdIn = (encode .swapBuffers).take 0 ∧ 0 < (encode .swapBuffers).length) ∧
    (let s := atTurn .producer (withWords .cmd [3, 0, 1, 2, 3] base)
     s.fault = none ∧ s.turn = .producer ∧ (Instr.polygon 0 1 2 3 4).port = .cmd ∧
        s.io.cmdIn = (encode (.polygon 0 1 2 3 4)).take 5 ∧ 5 < (encode (.polygon 0 1 2 3 4)).length) := by decide

/-- One place left, no place left, and a halted block. -/
theorem witness_producerPushesInOrder :
    (let s := atTurn .producer (withWords .cmd [4] { base with chan := [.swapBuffers] })
     s.turn = .producer ∧ decode .cmd s.io.cmdIn = .ok .swapBuffers [] ∧ s.fault = none ∧ s.chan.length < s.params.chanCap) ∧
    (let s := atTurn .producer (withWords .cmd [4] { base with chan := [.swapBuffers, .swapBuffers] })
     s.turn = .producer ∧ decode .cmd s.io.cmdIn = .ok .swapBuffers [] ∧ s.fault = none ∧ ¬ s.chan.length < s.params.chanCap) ∧
    (let s := atTurn .producer (withWords .cmd [4] haltedState)
     s.turn = .producer ∧ decode .cmd s.io.cmdIn = .ok .swapBuffers [] ∧ s.fault ≠ none) := by decide

theorem witness_consumerPopsTheHead :
    (let s := atTurn .consumer { base with chan := [.swapBuffers, .vertex 0 0 0 0] }
     s.turn = .consumer ∧ s.fault = none ∧ s.cphase = .idle ∧ s.chan = .swapBuffers :: [.vertex 0 0 0 0] ∧
        Instr.swapBuffers.port = .cmd) ∧
    (let s := atTurn .consumer base
     s.turn = .consumer ∧ s.fault = none ∧ s.cphase = .idle ∧ s.chan = []) ∧
    (let s := atTurn .consumer { waitState with lock := .display }
     s.turn = .consumer ∧ s.fault = none ∧ s.cphase = .swapWait ∧ s.lock ≠ .free) ∧
    (let s := atTurn .consumer haltedState
     s.turn = .consumer ∧ s.fault ≠ none) := by decide

/-- A request served, a BEGINFRAME served with the lock free and inside a pass, and a BEGINFRAME that waits. -/
theorem witness_displayStepRunsItsRequest :
    (let s := atTurn .display (withWords .dport [2] base)
     s.fault = none ∧ s.turn = .display ∧ decode .dport s.io.dispIn = .ok .nextLine [] ∧
        (Instr.nextLine = .beginFrame → s.dpass.active = true ∨ s.lock = .free)) ∧
    (let s := atTurn .display (withWords .dport [1] base)
     s.fault = none ∧ s.turn = .display ∧ decode .dport s.io.dispIn = .ok .beginFrame [] ∧
        (Instr.beginFrame = .beginFrame → s.dpass.active = true ∨ s.lock = .free)) ∧
    (let s := atTurn .display (withWords .dport [1] { base with lock := .consumer })
     s.fault = none ∧ s.turn = .display ∧ decode .dport s.io.dispIn = .ok .beginFrame [] ∧
        s.dpass.active = false ∧ s.lock ≠ .free) := by decide

theorem witness_unitStepRunsItsRequest :
    (let s := atTurn .unit (withWords .q12alu [9, 1, 2] base)
     s.fault = none ∧ s.turn = .unit ∧ decode .q12alu s.io.unitIn = .ok (.qlt 1 2) []) ∧
    (let s := atTurn .unit (withWords .q12alu [0xA, 1, 2] base)
     s.fault = none ∧ s.turn = .unit ∧ s.io.unitIn = 0xA :: [1, 2] ∧ 0xA ≤ (0xA#32).toNat) := by decide

theorem witness_haltedBlockHasNoStep : haltedState.fault ≠ none := by decide

theorem witness_arithmeticUnitIsPure : (Instr.qadd 1 2).port = .q12alu ∧ (Instr.qdiv 1 0).port = .q12alu := by decide

/-! ### The swap -/

/-- SwapCriticalSection and SwapExchangesTheRoles, in a state with something to swap. -/
theorem witness_swap :
    let s := atTurn .consumer waitState
    s.fault = none ∧ s.turn = .consumer ∧ s.cphase = .swapWait ∧ s.lock = .free ∧ slotsMatch s ∧
      s.nextFrame.polys = [triSet] := by decide

/-- A step that does not swap, and one that does. -/
theorem witness_onlySwapChangesTheRoles :
    (∃ t, step (atTurn .producer base) = .next t) ∧ (∃ t, step (atTurn .consumer waitState) = .next t) :=
  ⟨⟨_, rfl⟩, ⟨_, rfl⟩⟩

/-! ### Vertices and polygons -/

/-- A live block: ArithmeticRequestsAnswer, DivisionByZeroIsFatal, SetViewportReplacesTheViewport. -/
theorem witness_live : base.fault = none := by decide

theorem witness_divisionsRoundTowardZero : base.fault = none ∧ (q (-1)) ≠ 0 := by decide

/-- Each clause of ClipFlagsCompareSigned and DegenerateWIsClipped at its boundary values. -/
theorem witness_clip_clauses :
    (1 : Word) ≠ 0 ∧ (0 : Word) = 0 ∧ ((q (-1)).toInt < 0 ∧ (q (-1)).toInt ≠ -2147483648) ∧
      ((q (-2147483647)).toInt < 0 ∧ (q (-2147483647)).toInt ≠ -2147483648) ∧ (q (-2147483648)).toInt = -2147483648 := by decide

/-- An array with room, and a full one. -/
theorem witness_vertexAppendsOrOverflows :
    (base.fault = none ∧ base.nextFrame.verts.length ≠ 4096) ∧
    (let s := { base with mem := { base.mem with slot0 := { verts := fullVerts, polys := [] } } }
     s.fault = none ∧ s.nextFrame.verts.length = 4096) :=
  ⟨⟨rfl, (by omega : 0 ≠ 4096)⟩, rfl, fullVerts_length⟩

/-- The second of four indices, and the fourth, are the first out of range (V-FLT-2, V-FLT-7). -/
theorem witness_polygonReportsFirstBadIndex :
    (([0, 5, 0] : List Word)[1]? = some 5 ∧ clippedState.nextFrame.verts.length ≤ (5 : Word).toNat ∧
      ∀ (j : Nat) (w : Word), j < 1 → ([0, 5, 0] : List Word)[j]? = some w → w.toNat < clippedState.nextFrame.verts.length) ∧
    (([0, 1, 2, 0xFFFFFFFF] : List Word)[3]? = some 0xFFFFFFFF ∧ vertsState.nextFrame.verts.length ≤ (0xFFFFFFFF : Word).toNat ∧
      ∀ (j : Nat) (w : Word), j < 3 → ([0, 1, 2, 0xFFFFFFFF] : List Word)[j]? = some w →
        w.toNat < vertsState.nextFrame.verts.length) := by
  refine ⟨⟨rfl, by decide, ?_⟩, rfl, by decide, ?_⟩
  · intro j w hj hw
    obtain rfl : j = 0 := by omega
    cases hw
    decide
  · intro j w hj hw
    match j, hj with
    | 0, _ => cases hw; decide
    | 1, _ => cases hw; decide
    | 2, _ => cases hw; decide

/-- V-FLT-3. -/
theorem witness_polygonWithClippedVertexIsDropped :
    clippedState.fault = none ∧ (∀ w ∈ ([0, 0, 0] : List Word), w.toNat < clippedState.nextFrame.verts.length) ∧
      ∃ w ∈ ([0, 0, 0] : List Word), ∃ e, clippedState.nextFrame.verts[w.toNat]? = some e ∧ e.flags.extractLsb' 0 6 ≠ 0 :=
  ⟨rfl, List.forall_iff_forall_mem.mp (by decide : List.Forall (fun w : Word => w.toNat < clippedState.nextFrame.verts.length) [0, 0, 0]),
    0, by simp, newVertex false 0 0 0 0, rfl, by decide⟩

theorem triVerts_ok : ∀ e ∈ triVerts, VertexOk false e := by
  intro e he
  simp only [triVerts, List.mem_cons, List.not_mem_nil, or_false] at he
  rcases he with rfl | rfl | rfl <;> exact newVertex_ok _ _ _ _ _

/-- A record with its transformed bit and coordinates in range is one the rules produce when its position is not clipped. -/
theorem vertexOk_of_screen (x y z w : Word) (p : Screen) (h : clipFlags false x y z w = 0)
    (hp : inScreenRange p.sx ∧ inScreenRange p.sy ∧ inScreenRange p.sz) :
    VertexOk false { cx := x, cy := y, cz := z, cw := w, flags := 0x40#7, screen := some p } :=
  ⟨h.symm ▸ (by decide : (0x40#7).extractLsb' 0 6 = 0), by simp [Vertex.transformed],
    fun _ => (by decide : ((0x40#7).extractLsb' 0 6 != 0) = false), by intro r hr; cases hr; exact hp⟩

theorem triDone_ok : ∀ e ∈ triDone, VertexOk false e := by
  intro e he
  simp only [triDone, List.mem_cons, List.not_mem_nil, or_false] at he
  rcases he with rfl | rfl | rfl <;> exact vertexOk_of_screen _ _ _ _ _ (by decide) (by unfold inScreenRange; decide)

/-- PolygonTransformsAndStores: the array with room, with one place left for two triangles, and exactly filled (V-FLT-4, V-FLT-5). -/
theorem witness_polygonTransformsAndStores :
    vertsState.fault = none ∧ (∀ e ∈ vertsState.nextFrame.verts, VertexOk vertsState.params.zclip e) ∧
      (∀ w ∈ ([0, 1, 2] : List Word), w.toNat < vertsState.nextFrame.verts.length) ∧
      (∀ w ∈ ([0, 1, 2] : List Word), ∀ e, vertsState.nextFrame.verts[w.toNat]? = some e → e.flags.extractLsb' 0 6 = 0) ∧
      vertsState.nextFrame.polys.length + 1 ≤ 4096 ∧
      (List.replicate 4095 triRaw).length + 1 ≤ 4096 ∧ 4096 < (List.replicate 4095 triRaw).length + 2 := by
  refine ⟨rfl, triVerts_ok, List.forall_iff_forall_mem.mp
    (by decide : List.Forall (fun w : Word => w.toNat < vertsState.nextFrame.verts.length) [0, 1, 2]), ?_, (by omega : 0 + 1 ≤ 4096), ?_, ?_⟩
  · intro w hw e he
    simp only [List.mem_cons, List.not_mem_nil, or_false] at hw
    rcases hw with rfl | rfl | rfl <;> (cases he; decide)
  · exact le_of_eq (congrArg (· + 1) List.length_replicate)
  · exact lt_of_lt_of_eq (by omega : 4096 < 4095 + 2) (congrArg (· + 2) List.length_replicate).symm

theorem witness_quadSplitsIntoTwoTriangles : (0x80000000#32).getLsbD 31 = true := by decide

/-- Each clause of TransformFollowsTheFormulas. -/
theorem witness_transformFollowsTheFormulas :
    (triDone[0]).flags.getLsbD 6 = true ∧ (triVerts[0]).flags.getLsbD 6 = false ∧ (triVerts[0]).cw ≠ 0 := by decide

/-- A VERTEX beside transformed vertices. -/
theorem witness_transformedVertexKeepsItsPosition :
    ∃ t, exec (.vertex 0 0 0 4096) storedState = .next t ∧ (storedState.mem.slot .zero).verts[2]? = some triDone[2] ∧
      (triDone[2]).transformed = true :=
  ⟨_, rfl, rfl, by decide⟩

/-- 256 by 192 with `cw` 4096 and with the least `cw` that fits, 2 (V-XF-3, V-XF-13). -/
theorem witness_centreVertexLandsOnCentrePixel :
    (0 < 256 ∧ 256 < 524288 ∧ 0 < 192 ∧ 192 < 524288 ∧ 0 < 4096 ∧ 4096 < 2147483648 ∧ 4096 ∣ 256 * 8388608 ∧
      256 * 8388608 / 4096 < 2147483648 ∧ 4096 ∣ 192 * 8388608 ∧ 192 * 8388608 / 4096 < 2147483648) ∧
    (2 ∣ 256 * 8388608 ∧ 256 * 8388608 / 2 < 2147483648 ∧ 2 ∣ 192 * 8388608 ∧ 192 * 8388608 / 2 < 2147483648) := by omega

/-! ### Setup -/

/-- The corners of program P1's triangle. -/
def triCorners : Triple Corner :=
  { v0 := { idx := 0, x := 100, y := 10 }, v1 := { idx := 1, x := 50, y := 50 }, v2 := { idx := 2, x := 150, y := 50 } }

theorem triCorners_of : cornersOf triDone ⟨0, 1, 2⟩ = .ok triCorners := rfl

theorem triRaw_ok : PolygonOk triDone triRaw := ⟨triCorners, rfl, by intro k hk; cases hk⟩

theorem triSet_ok : PolygonOk triDone triSet := ⟨triCorners, rfl, by intro k hk; cases hk; decide⟩

theorem triFrame_ok (p : Polygon) (hp : PolygonOk triDone p) : SlotOk false { verts := triDone, polys := [p] } := by
  refine ⟨rfl, triDone_ok, fun r hr => ?_⟩
  simp only [List.mem_cons, List.not_mem_nil, or_false] at hr
  subst hr
  exact hp

theorem emptyFrame_ok : SlotOk false Slot.empty := ⟨by decide, by simp [Slot.empty], by simp [Slot.empty]⟩

theorem witness_setupComputesSlopesAndBounds :
    sortNetWf Config.sortNetDefault = true ∧ cornersOf triDone triRaw.vi = .ok triCorners ∧
      ∀ d ∈ [triCorners.v0, triCorners.v1, triCorners.v2], inScreenRange d.x ∧ inScreenRange d.y := by
  refine ⟨by decide, rfl, ?_⟩
  unfold inScreenRange
  decide

theorem witness_spanBoundsStartInOrder :
    cornersOf triDone triRaw.vi = .ok triCorners ∧
      (∀ d ∈ [triCorners.v0, triCorners.v1, triCorners.v2], -65536 ≤ d.x.toInt ∧ d.x.toInt ≤ 65536) ∧
      setupPolygon Config.sortNetDefault triDone triRaw = (triSet, none) ∧ triSet.setup.isSome = true :=
  ⟨rfl, by decide, rfl, rfl⟩

/-! ### The invariant in states where something is going on -/

theorem base_params : paramsWf base.params = true := by decide

/-- SwapBuffersSetsUpNext, SetupSortsEveryTriangle, StepKeepsTheInvariant: a triangle waits for setup. -/
theorem witness_inv_stored : Inv storedState ∧ storedState.fault = none ∧ storedState.nextFrame.polys[0]? = some triRaw ∧
    ∃ t, exec .swapBuffers storedState = .next t :=
  ⟨⟨base_params, by decide, by decide, ⟨by decide, by decide⟩, triFrame_ok _ triRaw_ok, emptyFrame_ok,
    (by intro p hp; cases hp), (by intro h; cases h), (by intro h; cases h)⟩, rfl, rfl, _, rfl⟩

/-- A swap waits for the lock. -/
theorem witness_inv_wait : Inv waitState := by
  refine ⟨base_params, by decide, by decide, ⟨by decide, by decide⟩, triFrame_ok _ triSet_ok, emptyFrame_ok,
    (by intro p hp; cases hp), fun _ p hp => ?_, (by intro h; cases h)⟩
  obtain rfl : p = triSet := by simpa [State.nextFrame, waitState, base, Memory.slot, State.reset] using hp
  rfl

theorem shown_allSetUp : allSetUp shownState.curFrame := by
  intro p hp
  obtain rfl : p = triSet := by simpa [State.curFrame, shownState, base, Memory.slot, State.reset] using hp
  rfl

/-- BeginFrameStartsThePass, either way of the bounds. -/
theorem witness_inv_shown (reinit : Bool) :
    let s := { shownState with params := { shownState.params with reinitBounds := reinit } }
    Inv s ∧ s.fault = none ∧ s.dpass.active = false ∧ s.lock = .free :=
  ⟨⟨base_params, (by decide : slotsMatch shownState), (by decide : passMatchesLock shownState), (by decide : channelOk shownState), emptyFrame_ok,
    triFrame_ok _ triSet_ok, shown_allSetUp,
    (by intro h; cases h), (by intro h; cases h)⟩, rfl, rfl, rfl⟩

/-- NextLineFillsAndAdvances and NextLineAfterTheLastIsEnd: a pass at any line, the first, the last and the end among them. -/
theorem witness_inv_pass (y : Nat) (hy : y ≤ 192) :
    Inv (passState y) ∧ (passState y).fault = none ∧ (passState y).dpass.active = true ∧ (passState y).dpass.line = y := by
  refine ⟨⟨base_params, (by decide : slotsMatch shownState), ⟨nofun, ⟨fun _ => rfl, fun _ => rfl⟩, nofun, hy⟩,
    (by decide : channelOk shownState), emptyFrame_ok, triFrame_ok _ triSet_ok, shown_allSetUp, (by intro h; cases h), fun _ => ?_⟩, rfl, rfl, rfl⟩
  obtain ⟨b, hb⟩ := buildBuckets_ok (f := shownState.curFrame) fun p hp => by
    obtain rfl : p = triSet := by simpa [State.curFrame, shownState, base, Memory.slot, State.reset] using hp
    exact ⟨triCorners, rfl⟩
  have hp : (passState y).bk = some b := by
    show (buildBuckets shownState.curFrame).toOption = some b
    rw [hb]
    rfl
  exact ⟨b, hp, hb⟩

theorem witness_nextLine_lines : (0 ≠ 192 ∧ 0 ≤ 192) ∧ (191 ≠ 192 ∧ 191 ≤ 192) ∧ 192 ≤ 192 := by decide

/-- DisplayMisuseIsRefused and EndFrameReleasesTheLock: inside a pass and outside one. -/
theorem witness_display_modes :
    ((passState 0).fault = none ∧ (passState 0).dpass.active = true) ∧
      (shownState.fault = none ∧ shownState.dpass.active = false) := by decide

/-- BucketsListCoveringPolygons: a frame with buckets, and a line of them. -/
theorem witness_bucketsListCoveringPolygons :
    ∃ b js, buildBuckets shownState.curFrame = .ok b ∧ b[191]? = some js := by
  refine ⟨_, _, rfl, rfl⟩

/-- BoundsAdvanceByTheSlopes: the last line above `hy` and the line of `hy`. -/
theorem witness_boundsAdvanceByTheSlopes :
    (triSet.setup.map fun k => (decide (((49 : Nat) : Int) < k.hy.toInt), decide (((50 : Nat) : Int) < k.hy.toInt))) =
      some (true, false) := by decide

/-- PixelEventsAreOnScreen, CursorVisitsLinesInOrder, UnreachableFaultsStayUnreached and the other rules of every step: a step that
yields a line. -/
theorem witness_step_yields : passMatchesLock (passState 10) ∧
    ∃ t, step (atTurn .display (withWords .dport [2] (passState 10))) = .next t ∧ t.io.pixels ≠ [] := by
  refine ⟨by decide, ?_⟩
  have h : ((nextOf (step (atTurn .display (withWords .dport [2] (passState 10))))).map fun t => t.io.pixels.length) = some 1 := by
    decide
  cases hs : step (atTurn .display (withWords .dport [2] (passState 10))) with
  | next t =>
    rw [hs] at h
    refine ⟨t, rfl, fun he => ?_⟩
    simp [nextOf, he] at h
  | fault r => rw [hs] at h; cases h
  | refused r => rw [hs] at h; cases h

/-- UnreachableFaultsStayUnreached: a step that sets the fault register, in a state that meets the invariant. -/
theorem witness_step_faults :
    let s := atTurn .unit (withWords .q12alu [3, 4096, 0] storedState)
    Inv s ∧ ∃ t r, step s = .next t ∧ t.fault = some r :=
  ⟨witness_inv_stored.1.io _, _, _, rfl, rfl⟩

/-- EveryTurnHasANextState: both cases. -/
theorem witness_everyTurnHasANextState :
    (Inv (atTurn .consumer waitState) ∧ (atTurn .consumer waitState).fault = none) ∧
      (let s := atTurn .unit (withWords .q12alu [0xA] storedState)
       Inv s ∧ s.fault = none ∧ s.turn = .unit ∧ step s = .refused .reservedSelector) :=
  ⟨⟨witness_inv_wait.io _, rfl⟩, witness_inv_stored.1.io _, rfl, rfl, rfl⟩

/-- FaultRecordNamesItsCommand: a division by zero, and a SETVIEWPORT without a fault. -/
theorem witness_faultRecordNamesItsCommand :
    (∃ t, exec (.qdivi 7 0) base = .next t ∧ t.fault.isSome = true) ∧
      ∃ t, exec (.setViewport 0 0 0 0) base = .next t ∧ t.fault = none :=
  ⟨⟨_, rfl, rfl⟩, ⟨_, rfl, rfl⟩⟩

/-- CommandsLeaveTheDisplaySideAlone and DisplayWritesOnlyBounds. -/
theorem witness_sides :
    (Instr.swapBuffers.port = .cmd ∧ slotsMatch storedState ∧ ∃ t, exec .swapBuffers storedState = .next t) ∧
      (Instr.nextLine.port = .dport ∧ slotsMatch (passState 192) ∧ ∃ t, exec .nextLine (passState 192) = .next t) :=
  ⟨⟨rfl, by decide, _, rfl⟩, rfl, by decide, _, rfl⟩

/-- PassBeforeFirstSwapIsEmpty: a step that is no swap, a pass that can begin, and a pass on the first and on the last line. -/
theorem witness_passBeforeFirstSwapIsEmpty :
    (slotsMatch storedState ∧ storedState.curFrame.polys = [] ∧ ∃ t, step (atTurn .consumer storedState) = .next t) ∧
    (storedState.fault = none ∧ storedState.dpass.active = false ∧ storedState.lock = .free) ∧
    (let s (y : Nat) : State := { base with bk := some (List.replicate 192 []), lock := .display, dpass := { active := true, line := y } }
     ∀ y, y = 0 ∨ y = 191 → (s y).fault = none ∧ (s y).dpass.active = true ∧ (s y).dpass.line < 192 ∧
       (s y).bk = some (List.replicate 192 [])) := by
  refine ⟨⟨by decide, rfl, _, rfl⟩, ⟨rfl, rfl, rfl⟩, fun y hy => ⟨rfl, rfl, ?_, rfl⟩⟩
  show y < 192
  omega

/-- SwapParityAfterNSwaps: a step that is no swap and one that is, from states whose selectors match, and two runs of one step with
the counter at 0 at their start. -/
theorem witness_swapParityAfterNSwaps :
    (slotsMatch base ∧ base.fc = 0 ∧ (atTurn .producer base).swapsNow = false ∧ ∃ t, step (atTurn .producer base) = .next t) ∧
    (slotsMatch waitState ∧ waitState.fc = 0 ∧ (atTurn .consumer waitState).swapsNow = true ∧
      ∃ t, step (atTurn .consumer waitState) = .next t) :=
  ⟨⟨by decide, rfl, by decide, _, rfl⟩, ⟨by decide, rfl, by decide, _, rfl⟩⟩

/-! ### Fair runs: an agent moves, and then nothing waits anywhere, whatever the free schedule says -/

/-- The run from a state; where no next state follows it stays. -/
def runFrom (s : State) : Nat → State
  | 0 => s
  | n + 1 => (nextOf (step (runFrom s n))).getD (runFrom s n)

theorem runFrom_succ {s t : State} {n : Nat} (h : step (runFrom s n) = .next t) : runFrom s (n + 1) = t := by
  rw [runFrom, h]
  rfl

/-- A live state in which nothing waits. -/
def nothingWaits (s : State) : Prop :=
  s.fault = none ∧ s.chan = [] ∧ s.cphase = .idle ∧ s.io.cmdIn = [] ∧ s.io.dispIn = [] ∧ s.io.unitIn = []

theorem nothingWaits.canStep {s : State} (h : nothingWaits s) (t : Turn) : s.canStep t = false := by
  obtain ⟨hf, hc, hp, h1, h2, h3⟩ := h
  cases t <;> simp [State.canStep, hf, hc, hp, h1, h2, h3, decode, decodeCommand, decodeRequest, decodeUnit]

theorem nothingWaits.step {s : State} (h : nothingWaits s) : step s = .next s.beginStep := by
  obtain ⟨hf, hc, hp, h1, h2, h3⟩ := h
  simp only [Machine.step, live_of_none hf]
  cases s.turn <;>
    simp [turnOf, producerTurn, consumerTurn, displayTurn, unitTurn, hc, hp, h1, h2, h3, decode, decodeCommand, decodeRequest,
      decodeUnit]

theorem runFrom_quiet {s : State} {n : Nat} (h : nothingWaits (runFrom s n)) {m : Nat} (hm : n ≤ m) :
    nothingWaits (runFrom s m) ∧ (runFrom s m).lock = (runFrom s n).lock := by
  induction m, hm using Nat.le_induction with
  | base => exact ⟨h, rfl⟩
  | succ m _ ih =>
    rw [runFrom_succ ih.1.step]
    exact ih

/-- A run in which nothing waits from some state on never ends and is weakly fair. -/
theorem runFrom_fair {s : State} {n : Nat} (hs : ∀ k, k < n → ∃ t, step (runFrom s k) = .next t) (h : nothingWaits (runFrom s n)) :
    isRun (runFrom s) ∧ weaklyFair (runFrom s) := by
  refine ⟨fun k => ?_, fun t _ k hk => ?_⟩
  · have hn : ∃ t, step (runFrom s k) = .next t := by
      by_cases hkn : k < n
      · exact hs k hkn
      · exact ⟨_, (runFrom_quiet h (by omega : n ≤ k)).1.step⟩
    obtain ⟨t, ht⟩ := hn
    rw [runFrom_succ ht, ht]
  · have := hk (max k n) (by omega)
    rw [(runFrom_quiet h (by omega : n ≤ max k n)).1.canStep] at this
    cases this

/-- The starts of four runs: a producer with a command to push, an idle consumer with one to pop, a consumer whose swap waits with
the lock free, a display with a request. -/
def producerStart : State :=
  let s := withWords .cmd [1, 0, 0, 9, 9] base
  { s with io := { s.io with sched := [.producer, .consumer] } }

def consumerStart : State := atTurn .consumer { base with chan := [.setViewport 1 2 3 4] }

def swapStart : State := atTurn .consumer waitState

def displayStart : State := atTurn .display (withWords .dport [2] base)

theorem fair_after_one {s : State} (h : ∃ t, step s = .next t) (hq : nothingWaits (runFrom s 1)) :
    isRun (runFrom s) ∧ weaklyFair (runFrom s) :=
  runFrom_fair (n := 1) (fun _ hk => Nat.lt_one_iff.mp hk ▸ h) hq

theorem swapStart_quiet : nothingWaits (runFrom swapStart 1) := ⟨rfl, rfl, rfl, rfl, rfl, rfl⟩

/-- FairAgentsTakeTheirTurn, first clause: a live state whose agent is not able to step. -/
theorem witness_fairAgents_hold : base.fault = none ∧ base.canStep base.turn = false :=
  ⟨rfl, nothingWaits.canStep ⟨rfl, rfl, rfl, rfl, rfl, rfl⟩ _⟩

/-- FairAgentsTakeTheirTurn, second clause, each agent: weakly fair runs that never end, with the agent able to step at the start. -/
theorem witness_fairAgents_producer :
    isRun (runFrom producerStart) ∧ weaklyFair (runFrom producerStart) ∧ (runFrom producerStart 0).canStep .producer = true := by
  obtain ⟨h1, h2⟩ := runFrom_fair (s := producerStart) (n := 2)
    (fun k hk => match k, hk with
      | 0, _ => ⟨_, rfl⟩
      | 1, _ => ⟨_, rfl⟩) ⟨rfl, rfl, rfl, rfl, rfl, rfl⟩
  exact ⟨h1, h2, by decide⟩

theorem witness_fairAgents_consumer :
    isRun (runFrom consumerStart) ∧ weaklyFair (runFrom consumerStart) ∧ (runFrom consumerStart 0).canStep .consumer = true ∧
      (runFrom consumerStart 0).cphase = .idle := by
  obtain ⟨h1, h2⟩ := fair_after_one (s := consumerStart) ⟨_, rfl⟩ ⟨rfl, rfl, rfl, rfl, rfl, rfl⟩
  exact ⟨h1, h2, by decide, rfl⟩

theorem witness_fairAgents_swap :
    isRun (runFrom swapStart) ∧ weaklyFair (runFrom swapStart) ∧ (runFrom swapStart 0).canStep .consumer = true ∧
      (runFrom swapStart 0).cphase = .swapWait ∧ ∀ m, 0 ≤ m → (runFrom swapStart m).lock = .free := by
  obtain ⟨h1, h2⟩ := fair_after_one (s := swapStart) ⟨_, rfl⟩ swapStart_quiet
  refine ⟨h1, h2, by decide, rfl, fun m _ => ?_⟩
  cases m with
  | zero => rfl
  | succ m => exact (runFrom_quiet swapStart_quiet (by omega : 1 ≤ m + 1)).2

theorem witness_fairAgents_display :
    isRun (runFrom displayStart) ∧ weaklyFair (runFrom displayStart) ∧ (runFrom displayStart 0).canStep .display = true := by
  obtain ⟨h1, h2⟩ := fair_after_one (s := displayStart) ⟨_, rfl⟩ ⟨rfl, rfl, rfl, rfl, rfl, rfl⟩
  exact ⟨h1, h2, by decide⟩

/-- Q12AlgebraicLaws: the ends of the ranges. -/
theorem witness_q12AlgebraicLaws :
    (-524288 ≤ (q (-524288)).toInt ∧ (q (-524288)).toInt ≤ 524287) ∧ (-524288 ≤ (524287 : Word).toInt ∧ (524287 : Word).toInt ≤ 524287) ∧
      (-2147483648 ≤ (q 4095).toInt + (524287 : Word).toInt * 4096 ∧ (q 4095).toInt + (524287 : Word).toInt * 4096 ≤ 2147483647) ∧
      (-2147483648 ≤ (0 : Word).toInt + (q (-524288)).toInt * 4096) := by decide

end Sys2Proof.Tests
end

section
/-! SUPPORT. What each meaning can do, said once: the arithmetic unit's two effects, and the inversion of the three commands that
write "next". -/

namespace Sys2Proof.Machine

/-- An instruction that answers a next state ran in a live block (60 R341). -/
theorem exec_live {i : Instr} {s t : State} (h : exec i s = .next t) : s.fault = none := by
  cases i <;> exact (live_next.mp h).1

/-- The two effects a request to the arithmetic unit can have, the same one in every live state (10 R30, 40 R139). -/
def PureRequest (i : Instr) : Prop :=
  (∃ r : Word, ∀ s : State, s.fault = none → exec i s = .next (s.answer (.result r))) ∨
    ∃ n : Int, ∀ s : State, s.fault = none → exec i s = .next (s.raise i { code := .divZero, info := [n] })

/-- A request that always has a result is pure. -/
theorem PureRequest.ofResult {i : Instr} {r : Word} (h : ∀ s, exec i s = unitResult r s) : PureRequest i :=
  .inl ⟨r, fun s hs => by rw [h, unitResult, live_of_none hs]⟩

/-- A division request is pure: whether it has a result depends on its divisor alone (40 R143, R148). -/
theorem PureRequest.ofDivision {i : Instr} {a b q : Word}
    (h : ∀ s, exec i s = unitDivide i (if b = 0 then .error (divZero a) else .ok q) s) : PureRequest i := by
  by_cases hb : b = 0
  · exact .inr ⟨a.toInt, fun s hs => by rw [h, if_pos hb, unitDivide, live_of_none hs]; rfl⟩
  · exact .inl ⟨q, fun s hs => by rw [h, if_neg hb, unitDivide, live_of_none hs]⟩

/-- Every request to the arithmetic unit is pure (10 R30). -/
theorem pureRequest_of_port {i : Instr} (hp : i.port = .q12alu) : PureRequest i := by
  cases i with
  | setViewport | vertex | polygon | swapBuffers | beginFrame | nextLine | endFrame => cases hp
  | qdiv | qdivi => exact .ofDivision fun _ => rfl
  | qadd | qsub | qmul | qneg | qfromi | qtoi | qaddi | qlt => exact .ofResult fun _ => rfl

/-- Everything a request to the arithmetic unit that answers a next state can have done: put its result out, or raised a fault. -/
theorem execUnit_cases {i : Instr} {s t : State} (hp : i.port = .q12alu) (h : exec i s = .next t) :
    (∃ r, t = s.answer (.result r)) ∨ ∃ f, t = s.raise i f := by
  rcases pureRequest_of_port hp with ⟨r, hr⟩ | ⟨n, hn⟩
  · rw [hr s (exec_live h)] at h
    exact .inl ⟨r, by simpa using h.symm⟩
  · rw [hn s (exec_live h)] at h
    exact .inr ⟨_, by simpa using h.symm⟩

/-- Everything a VERTEX that answers a next state can have done: raised VERTEX_OVERFLOW, or appended its record (41 R190). -/
theorem execVertex_cases {x y z w : Word} {s t : State} (h : execVertex x y z w s = .next t) :
    (∃ f, t = s.raise (.vertex x y z w) f) ∨
      (s.nextFrame.verts.length ≠ Config.vcap ∧
        t = (s.setNextFrame (s.nextFrame.pushVertex (newVertex s.params.zclip x y z w))).complete) := by
  obtain ⟨-, h⟩ := live_next.mp h
  split at h
  · exact .inl ⟨_, by simpa using h.symm⟩
  · rename_i hn
    exact .inr ⟨hn, by simpa using h.symm⟩

/-- The state after the transforms of the vertices a POLYGON names, whatever stopped them (41 R205). -/
def State.transformNext (s : State) (idx : List Nat) : State :=
  s.setNextFrame { s.nextFrame with verts := (transformAll s.vp idx s.nextFrame.verts).1 }

/-- Everything a store of triangles that answers a next state can have done: raised POLY_OVERFLOW, or appended the records
(41 R206). -/
theorem storeTriangles_cases {cmd : Instr} {attr : Word} {tris : List (Triple Word)} {s t : State}
    (h : storeTriangles cmd attr tris s = .next t) :
    (∃ f, t = s.raise cmd f) ∨
      (s.nextFrame.polys.length + tris.length ≤ Config.pcap ∧
        t = (s.setNextFrame (s.nextFrame.pushPolygons (newPolygons attr tris))).complete) := by
  unfold storeTriangles at h
  split at h
  · exact .inl ⟨_, by simpa using h.symm⟩
  · rename_i hn
    exact .inr ⟨Nat.le_of_not_lt hn, by simpa using h.symm⟩

/-- Everything a POLYGON that answers a next state can have done: raised POLY_INDEX_RANGE, been dropped, or transformed its
vertices and then raised a fault or stored its triangles (41 R203 to R206). -/
theorem execPolygon_cases {i0 i1 i2 i3 attr : Word} {s t : State} (h : execPolygon i0 i1 i2 i3 attr s = .next t) :
    (∃ f, t = s.raise (.polygon i0 i1 i2 i3 attr) f) ∨ t = s.complete ∨
      ∃ idx, idx = (polyIndices i0 i1 i2 i3 attr).map indexOf ∧
        firstOutOfRange s.nextFrame.verts.length 0 idx = none ∧ idx.any (clippedAt s.nextFrame.verts) = false ∧
        ((∃ f, t = (s.transformNext idx).raise (.polygon i0 i1 i2 i3 attr) f) ∨
          storeTriangles (.polygon i0 i1 i2 i3 attr) attr (polyTriangles i0 i1 i2 i3 attr) (s.transformNext idx) = .next t) := by
  obtain ⟨-, h⟩ := live_next.mp h
  split at h
  · exact .inl ⟨_, by simpa using h.symm⟩
  · rename_i hr
    split at h
    · exact .inr (.inl (by simpa using h.symm))
    · rename_i hc
      refine .inr (.inr ⟨_, rfl, hr, by simpa using hc, ?_⟩)
      rcases finish_next h with ⟨f, -, ht⟩ | ⟨-, hk⟩
      · exact .inl ⟨f, ht⟩
      · exact .inr hk

/-- The state after phase 1 has set up the polygons of "next", whatever stopped it (44 R280). -/
def State.setUpNext (s : State) : State :=
  s.setNextFrame { s.nextFrame with polys := (setupAll s.params.sortNet s.nextFrame.verts s.nextFrame.polys).1 }

/-- Everything a SWAPBUFFERS that answers a next state can have done: set up the polygons of "next", and then raised a fault or gone
to wait for the lock (44 R280). -/
theorem execSwapBuffers_cases {s t : State} (h : execSwapBuffers s = .next t) :
    (∃ f, t = s.setUpNext.raise .swapBuffers f) ∨ t = { s.setUpNext with cphase := .swapWait } := by
  obtain ⟨-, h⟩ := live_next.mp h
  rcases finish_next h with ⟨f, -, ht⟩ | ⟨-, h⟩
  · exact .inl ⟨f, ht⟩
  · cases h
    exact .inr rfl

end Sys2Proof.Machine
end

section
/-! SUPPORT. The invariant survives every operation of the state, every instruction and every turn (10 R34 to R48). -/

namespace Sys2Proof.Machine

/-- A push that finds room keeps the invariant (41 R180). -/
theorem Inv.push {s : State} (h : Inv s) {c : Instr} (hc : c.wellFormedAt .cmd = true) (hl : s.chan.length < s.params.chanCap) :
    Inv (s.push c) := by
  have hch : channelOk (s.push c) := by
    refine ⟨by simpa using hl, fun d hd => ?_⟩
    rcases List.mem_append.mp hd with hd | hd
    · exact h.chan.2 d hd
    · rw [List.mem_singleton.mp hd]; exact hc
  exact ⟨h.params, h.slots, h.lock, hch, h.next, h.cur, h.curSetUp, h.nextSetUp, h.buckets⟩

/-- A pop keeps the invariant (41 R181). -/
theorem Inv.pop {s : State} (h : Inv s) {c : Instr} {rest : List Instr} (hc : s.chan = c :: rest) :
    Inv { s with chan := rest } := by
  obtain ⟨hlen, hcmd⟩ := h.chan
  rw [hc] at hlen hcmd
  have hch : channelOk { s with chan := rest } :=
    ⟨(Nat.le_succ _).trans hlen, fun d hd => hcmd d (List.mem_cons_of_mem _ hd)⟩
  exact ⟨h.params, h.slots, h.lock, hch, h.next, h.cur, h.curSetUp, h.nextSetUp, h.buckets⟩

/-- A slot truncated to empty is one the rules produce (44 R282). -/
theorem SlotOk.empty (z : Bool) : SlotOk z Slot.empty :=
  ⟨Slot.wf_empty, by simp [Slot.empty], by simp [Slot.empty]⟩

/-- With the lock free no pass is active (10 R48). -/
theorem Inv.noPass_of_free {s : State} (h : Inv s) (hl : s.lock = .free) : s.dpass.active = false := by
  obtain ⟨-, hp, -⟩ := h.lock
  simpa [hl] using hp

/-- The swap makes the slot that was "next" the "current" frame (44 R282). -/
theorem Inv.curFrame_swapCommit {s : State} (h : Inv s) : (swapCommit s).curFrame = s.nextFrame := by
  have hne : s.nextSlot ≠ slotOfCounter (s.fc + 1) := by
    rw [slotOfCounter_succ, ← h.slots.1]; exact SlotId.ne_other _
  exact Memory.slot_setSlot_other _ hne _

/-- The swap's critical section keeps the invariant (44 R282, R283). -/
theorem Inv.swapCommit {s : State} (h : Inv s) (hw : s.cphase = .swapWait) (hl : s.lock = .free) : Inv (swapCommit s) := by
  have hcur := h.curFrame_swapCommit
  have hnext : (Machine.swapCommit s).nextFrame = Slot.empty := Memory.slot_setSlot_same _ _ _
  have hp := h.noPass_of_free hl
  obtain ⟨-, -, hline, hle⟩ := h.lock
  refine ⟨h.params, ⟨rfl, ?_⟩, ⟨by simp, by simp [hp], hline, hle⟩, h.chan, ?_, ?_, ?_, by simp, ?_⟩
  · show s.nextSlot = (slotOfCounter (s.fc + 1)).other
    rw [slotOfCounter_succ, SlotId.other_other]; exact h.slots.1
  · rw [hnext]; exact .empty _
  · rw [hcur]; exact h.next
  · rw [hcur]; exact h.nextSetUp hw
  · intro ha
    rw [swapCommit_dpass, hp] at ha
    cases ha

/-- An idle consumer's write of a slot the rules produce to "next" keeps the invariant: no swap waits for its polygons. -/
theorem Inv.setNext_idle {s : State} (h : Inv s) (hi : s.cphase = .idle) {f : Slot} (hf : SlotOk s.params.zclip f) :
    Inv (s.setNextFrame f) :=
  h.setNext hf fun hw => by rw [hi] at hw; cases hw

/-- Vertices with the transformed bit set can be read as a triangle's corners (10 R36, 41 R205). -/
theorem cornersOf_transformed {z : Bool} {vs : List Vertex} (hv : ∀ e ∈ vs, VertexOk z e) {vi : Triple Word}
    (h : ∀ w ∈ vi.toList, ∃ e, vs[indexOf w]? = some e ∧ e.transformed = true) : ∃ c, cornersOf vs vi = .ok c := by
  have corner : ∀ w ∈ vi.toList, ∃ d, cornerAt vs w = .ok d := by
    intro w hw
    obtain ⟨e, he, ht⟩ := h w hw
    obtain ⟨p, hp⟩ := Option.isSome_iff_exists.mp ((hv e (List.mem_of_getElem? he)).screen.mp ht)
    exact ⟨_, cornerAt_ok_iff.mpr ⟨e, p, he, hp, rfl⟩⟩
  obtain ⟨a, ha⟩ := corner vi.v0 (by simp [Triple.toList])
  obtain ⟨b, hb⟩ := corner vi.v1 (by simp [Triple.toList])
  obtain ⟨c, hc⟩ := corner vi.v2 (by simp [Triple.toList])
  exact ⟨⟨a, b, c⟩, cornersOf_ok_iff.mpr ⟨ha, hb, hc⟩⟩

/-- The triangles a POLYGON stores use the indices it names and no others (41 R202, R207). -/
theorem polyTriangles_indices {i0 i1 i2 i3 attr : Word} {vi : Triple Word} (ht : vi ∈ polyTriangles i0 i1 i2 i3 attr) :
    ∀ w ∈ vi.toList, w ∈ polyIndices i0 i1 i2 i3 attr := by
  unfold polyTriangles at ht
  unfold polyIndices
  split at ht
  · rename_i hq
    rw [if_pos hq]
    rcases List.mem_pair.mp ht with rfl | rfl <;> simp [Triple.toList]
  · rename_i hq
    rw [if_neg hq, List.mem_singleton.mp ht]
    simp [Triple.toList]

/-- Storing triangles of transformed vertices, where they fit, keeps the slot one the rules produce (41 R206). -/
theorem SlotOk.pushPolygons {z : Bool} {f : Slot} (h : SlotOk z f) {attr : Word} {tris : List (Triple Word)}
    (hn : f.polys.length + tris.length ≤ Config.pcap)
    (ht : ∀ vi ∈ tris, ∀ w ∈ vi.toList, ∃ e, f.verts[indexOf w]? = some e ∧ e.transformed = true) :
    SlotOk z (f.pushPolygons (newPolygons attr tris)) := by
  refine ⟨Slot.wf_pushPolygons h.wf _ (by simpa [newPolygons] using hn), h.verts, fun p hp => ?_⟩
  rcases List.mem_append.mp hp with hp | hp
  · exact h.polys p hp
  · obtain ⟨vi, hvi, rfl⟩ := List.mem_map.mp hp
    obtain ⟨c, hc⟩ := cornersOf_transformed h.verts (ht vi hvi)
    exact ⟨c, hc, by simp⟩

/-- A VERTEX of an idle consumer keeps the invariant (41 R190). -/
theorem Inv.execVertex {s t : State} (h : Inv s) (hi : s.cphase = .idle) {x y z w : Word}
    (hx : execVertex x y z w s = .next t) : Inv t := by
  rcases execVertex_cases hx with ⟨f, rfl⟩ | ⟨hn, rfl⟩
  · exact h.raise _ f
  · exact (h.setNext_idle hi (h.next.pushVertex hn (newVertex_ok _ x y z w))).complete

/-- A POLYGON of an idle consumer keeps the invariant (41 R203 to R206). -/
theorem Inv.execPolygon {s t : State} (h : Inv s) (hi : s.cphase = .idle) {i0 i1 i2 i3 attr : Word}
    (hx : execPolygon i0 i1 i2 i3 attr s = .next t) : Inv t := by
  rcases execPolygon_cases hx with ⟨f, rfl⟩ | rfl | ⟨idx, rfl, hr, hc, ht⟩
  · exact h.raise _ f
  · exact h.complete
  · obtain ⟨-, hok, htr⟩ := h.next.transformed (vp := s.vp) (firstOut_none hr) hc
    have h1 := h.setNext_idle hi hok
    rcases ht with ⟨f, rfl⟩ | ht
    · exact h1.raise _ f
    · rcases storeTriangles_cases ht with ⟨f, rfl⟩ | ⟨hn, rfl⟩
      · exact h1.raise _ f
      · refine (h1.setNext_idle hi (h1.next.pushPolygons hn fun vi hvi w hw => ?_)).complete
        simpa using htr _ (List.mem_map_of_mem (polyTriangles_indices hvi w hw))

/-- SETUP of a polygon of a slot the rules produce: it never stops, and leaves the polygon one the rules produce and set up
(43 R252, R258, R259). -/
theorem PolygonOk.setup {net : List (Pos × Pos)} (hn : sortNetWf net = true) {z : Bool} {vs : List Vertex}
    (hv : ∀ e ∈ vs, VertexOk z e) {p : Polygon} (h : PolygonOk vs p) :
    (setupPolygon net vs p).2 = none ∧ PolygonOk vs (setupPolygon net vs p).1 ∧
      (setupPolygon net vs p).1.setup.isSome = true := by
  obtain ⟨c, hc, -⟩ := h
  obtain ⟨heq, hct, h01, h12⟩ := setupPolygon_ok hn hc (corner_range hv hc)
  rw [heq]
  refine ⟨rfl, ⟨_, hct, fun k hk => ?_⟩, rfl⟩
  cases hk
  exact ⟨h01, h12, rfl⟩

/-- SETUP of every polygon keeps the slot one the rules produce and leaves every polygon set up (44 R280). -/
theorem SlotOk.setupAll {net : List (Pos × Pos)} (hn : sortNetWf net = true) {z : Bool} {f : Slot} (h : SlotOk z f) :
    SlotOk z { f with polys := (setupAll net f.verts f.polys).1 } ∧
      allSetUp { f with polys := (setupAll net f.verts f.polys).1 } := by
  have each := fun p hp => (h.polys p hp).setup hn h.verts
  have hwf : Slot.wf { f with polys := (Machine.setupAll net f.verts f.polys).1 } = true :=
    Slot.wf_of_lengths h.wf rfl (setupAll_length net f.verts f.polys)
  rw [setupAll_of_none fun p hp => (each p hp).1] at hwf ⊢
  constructor
  · refine ⟨hwf, h.verts, fun q hq => ?_⟩
    obtain ⟨p, hp, rfl⟩ := List.mem_map.mp hq
    exact (each p hp).2.1
  · intro q hq
    obtain ⟨p, hp, rfl⟩ := List.mem_map.mp hq
    exact (each p hp).2.2

/-- SWAPBUFFERS's first phase keeps the invariant (44 R280). -/
theorem Inv.execSwapBuffers {s t : State} (h : Inv s) (hx : execSwapBuffers s = .next t) : Inv t := by
  have hn : sortNetWf s.params.sortNet = true := by
    have hp := h.params
    simp only [paramsWf, Bool.and_eq_true] at hp
    exact hp.2
  obtain ⟨hok, hset⟩ := h.next.setupAll hn
  have h1 : Inv s.setUpNext := h.setNext hok fun _ => hset
  rcases execSwapBuffers_cases hx with ⟨f, rfl⟩ | rfl
  · exact h1.raise _ f
  · have hwait : allSetUp s.setUpNext.nextFrame := by
      rw [State.setUpNext, State.nextFrame_setNextFrame]; exact hset
    exact ⟨h1.params, h1.slots, h1.lock, h1.chan, h1.next, h1.cur, h1.curSetUp, fun _ => hwait, h1.buckets⟩

/-- A BEGINFRAME keeps the invariant (45 R300, R301). -/
theorem Inv.execBeginFrame {s t : State} (h : Inv s) (hx : execBeginFrame s = .next t) : Inv t := by
  rcases execBeginFrame_cases hx with rfl | rfl | ⟨-, -, ps, b, hps, hb, rfl⟩
  · exact h
  · exact h.refuse _
  · obtain ⟨qs, hqs, hm⟩ := passBounds_ok s.params.reinitBounds s.curFrame.polys h.curSetUp
    obtain rfl : qs = ps := by rw [hps] at hqs; cases hqs; rfl
    have h1 := h.setCur hm
    have hlock : passMatchesLock { s.setCurFrame { s.curFrame with polys := qs } with
        lock := .display, dpass := { active := true, line := 0 } } :=
      ⟨by simp, by simp, fun _ => rfl, Nat.zero_le _⟩
    have hbk : buildBuckets (s.setCurFrame { s.curFrame with polys := qs }).curFrame = .ok b := by
      rw [State.curFrame_setCurFrame]; exact hb
    exact ⟨h1.params, h1.slots, hlock, h1.chan, h1.next, h1.cur, h1.curSetUp, h1.nextSetUp, fun _ => ⟨b, rfl, hbk⟩⟩

/-- A NEXTLINE keeps the invariant (45 R310, R321). -/
theorem Inv.execNextLine {s t : State} (h : Inv s) (hx : execNextLine s = .next t) : Inv t := by
  rcases execNextLine_cases hx with rfl | rfl | ⟨ha, hl, js, ps, es, -, hfill, rfl⟩
  · exact h.io _
  · exact h.refuse _
  · obtain ⟨hm, -⟩ := fillLine_frame hfill
    have h1 := h.setCur hm
    obtain ⟨hfree, hiff, -, hle⟩ := h.lock
    have hlock : passMatchesLock { s.setCurFrame { s.curFrame with polys := ps } with
        dpass := { active := s.dpass.active, line := s.dpass.line + 1 } } :=
      ⟨hfree, hiff, fun hn => (by simp [ha] at hn), Nat.lt_of_le_of_ne hle hl⟩
    have h2 : Inv { s.setCurFrame { s.curFrame with polys := ps } with
        dpass := { active := s.dpass.active, line := s.dpass.line + 1 } } :=
      ⟨h1.params, h1.slots, hlock, h1.chan, h1.next, h1.cur, h1.curSetUp, h1.nextSetUp, h1.buckets⟩
    exact h2.io _

/-- An ENDFRAME keeps the invariant (45 R320). -/
theorem Inv.execEndFrame {s t : State} (h : Inv s) (hx : execEndFrame s = .next t) : Inv t := by
  rcases execEndFrame_cases hx with rfl | ⟨-, rfl⟩
  · exact h.refuse _
  · have hlock : passMatchesLock { s with lock := .free, dpass := { active := false, line := 0 } } :=
      ⟨by simp, by simp, fun _ => rfl, Nat.zero_le _⟩
    exact ⟨h.params, h.slots, hlock, h.chan, h.next, h.cur, h.curSetUp, h.nextSetUp, by simp⟩

/-- Every instruction keeps the invariant; a command runs only while no swap waits (41 R181, 44 R281). -/
theorem Inv.exec {i : Instr} {s t : State} (h : Inv s) (hi : i.port = .cmd → s.cphase = .idle) (hx : exec i s = .next t) :
    Inv t := by
  cases hp : i.port with
  | q12alu =>
    rcases execUnit_cases hp hx with ⟨r, rfl⟩ | ⟨f, rfl⟩
    · exact h.io _
    · exact h.raise _ f
  | dport =>
    cases i with
    | beginFrame => exact h.execBeginFrame hx
    | nextLine => exact h.execNextLine hx
    | endFrame => exact h.execEndFrame hx
    | _ => cases hp
  | cmd =>
    cases i with
    | setViewport =>
      obtain ⟨-, hx⟩ := live_next.mp hx
      cases hx
      exact ⟨h.params, h.slots, h.lock, h.chan, h.next, h.cur, h.curSetUp, h.nextSetUp, h.buckets⟩
    | vertex => exact h.execVertex (hi hp) hx
    | polygon => exact h.execPolygon (hi hp) hx
    | swapBuffers => exact h.execSwapBuffers hx
    | _ => cases hp

/-- Every step keeps the invariant (10 R34 to R48). -/
theorem Inv.step {s t : State} (h : Inv s) (hx : step s = .next t) : Inv t := by
  have h0 : Inv s.beginStep := h.io _
  obtain ⟨-, hcases⟩ := step_cases hx
  rcases hcases with rfl | ⟨-, c, rest, hd, hl, rfl⟩ | ⟨-, e, -, rfl⟩ | ⟨-, hw, hl, rfl⟩ | ⟨-, hidle, c, rest, hc, -, hx⟩ |
    ⟨-, r, rest, hd, hx⟩ | ⟨-, e, -, rfl⟩ | ⟨-, r, rest, hd, hx⟩
  · exact h0
  · exact (h0.io _).push (decode_wellFormedAt hd) hl
  · exact (h0.refuse _).io _
  · exact h0.swapCommit hw hl
  · exact (h0.pop hc).exec (fun _ => hidle) hx
  · exact (h0.io _).exec (fun hp => absurd (hp.symm.trans (decodeRequest_port hd)) (by decide)) hx
  · exact (h0.io _).refuse _
  · exact (h0.io _).exec (fun hp => absurd (hp.symm.trans (decodeUnit_port hd)) (by decide)) hx

end Sys2Proof.Machine
end

section
/-! SUPPORT. What a step does to the fault register, the count of completed commands and the parameters (10 R31, R38, R49). -/

namespace Sys2Proof.Machine

/-- The fault register is clear, or it names the instruction and the commands completed before it, which is not itself counted
(10 R38). -/
def FaultNames (i : Instr) (s t : State) : Prop :=
  t.fault = none ∨ ∃ (code : FaultCode) (info : List Int),
    t.fault = some { code := code, seq := s.seq, cmd := i, info := info } ∧ t.seq = s.seq

/-- A fault raised over writes that left the count alone names its instruction (60 R341). -/
theorem FaultNames.raise {s u : State} (hu : u.seq = s.seq) (i : Instr) (f : Fatal) : FaultNames i s (u.raise i f) :=
  .inr ⟨f.code, f.info, by rw [State.raise_fault, hu], hu⟩

theorem execVertex_faultNames {x y z w : Word} {s t : State} (h : execVertex x y z w s = .next t) :
    FaultNames (.vertex x y z w) s t := by
  have hf : s.fault = none := (live_next.mp h).1
  rcases execVertex_cases h with ⟨f, rfl⟩ | ⟨-, rfl⟩
  · exact .raise rfl _ f
  · exact .inl hf

theorem execPolygon_faultNames {i0 i1 i2 i3 attr : Word} {s t : State} (h : execPolygon i0 i1 i2 i3 attr s = .next t) :
    FaultNames (.polygon i0 i1 i2 i3 attr) s t := by
  have hf : s.fault = none := (live_next.mp h).1
  rcases execPolygon_cases h with ⟨f, rfl⟩ | rfl | ⟨idx, -, -, -, ht⟩
  · exact .raise rfl _ f
  · exact .inl hf
  · rcases ht with ⟨f, rfl⟩ | ht
    · exact .raise rfl _ f
    · rcases storeTriangles_cases ht with ⟨f, rfl⟩ | ⟨-, rfl⟩
      · exact .raise rfl _ f
      · exact .inl hf

theorem execSwapBuffers_faultNames {s t : State} (h : execSwapBuffers s = .next t) : FaultNames .swapBuffers s t := by
  have hf : s.fault = none := (live_next.mp h).1
  rcases execSwapBuffers_cases h with ⟨f, rfl⟩ | rfl
  · exact .raise rfl _ f
  · exact .inl hf

/-- A display request counts no command and raises no fault (60 R340). -/
theorem execDisplay_kept {i : Instr} {s t : State} (hp : i.port = .dport) (h : exec i s = .next t) :
    t.seq = s.seq ∧ t.fault = s.fault := by
  cases i with
  | beginFrame =>
    rcases execBeginFrame_cases h with rfl | rfl | ⟨-, -, ps, b, -, -, rfl⟩ <;> exact ⟨rfl, rfl⟩
  | nextLine =>
    rcases execNextLine_cases h with rfl | rfl | ⟨-, -, js, ps, es, -, -, rfl⟩ <;> exact ⟨rfl, rfl⟩
  | endFrame =>
    rcases execEndFrame_cases h with rfl | ⟨-, rfl⟩ <;> exact ⟨rfl, rfl⟩
  | _ => cases hp

/-- Whatever instruction answers a next state, a fault recorded then names it (10 R38, 60 R341). -/
theorem exec_faultNames {i : Instr} {s t : State} (h : exec i s = .next t) : FaultNames i s t := by
  have hf := exec_live h
  cases hp : i.port with
  | q12alu =>
    rcases execUnit_cases hp h with ⟨r, rfl⟩ | ⟨f, rfl⟩
    · exact .inl hf
    · exact .raise rfl _ f
  | dport => exact .inl ((execDisplay_kept hp h).2.trans hf)
  | cmd =>
    cases i with
    | setViewport =>
      obtain ⟨-, h⟩ := live_next.mp h
      cases h
      exact .inl hf
    | vertex => exact execVertex_faultNames h
    | polygon => exact execPolygon_faultNames h
    | swapBuffers => exact execSwapBuffers_faultNames h
    | _ => cases hp

/-- A request to the arithmetic unit counts no command (41 R182). -/
theorem execUnit_seq {i : Instr} {s t : State} (hp : i.port = .q12alu) (h : exec i s = .next t) : t.seq = s.seq := by
  rcases execUnit_cases hp h with ⟨r, rfl⟩ | ⟨f, rfl⟩ <;> rfl

/-- A step leaves the count of completed commands, or, on a consumer turn, adds one (10 R31, 41 R182). -/
theorem step_seq {s t : State} (h : step s = .next t) : t.seq = s.seq ∨ (t.seq = s.seq + 1 ∧ s.turn = .consumer) := by
  obtain ⟨-, hcases⟩ := step_cases h
  rcases hcases with rfl | ⟨-, c, rest, -, -, rfl⟩ | ⟨-, e, -, rfl⟩ | ⟨ht, -, -, rfl⟩ | ⟨ht, -, c, rest, -, -, hx⟩ |
    ⟨-, r, rest, hd, hx⟩ | ⟨-, e, -, rfl⟩ | ⟨-, r, rest, hd, hx⟩
  · exact .inl rfl
  · exact .inl rfl
  · exact .inl rfl
  · exact .inr ⟨rfl, ht⟩
  · exact (exec_kept hx).seq.imp_right fun hs => ⟨hs, ht⟩
  · exact .inl (execDisplay_kept (decodeRequest_port hd) hx).1
  · exact .inl rfl
  · have hs := execUnit_seq (decodeUnit_port hd) hx
    exact .inl hs

/-- No step writes the parameters (10 R49). -/
theorem step_params {s t : State} (h : step s = .next t) : t.params = s.params := by
  obtain ⟨-, hcases⟩ := step_cases h
  rcases hcases with rfl | ⟨-, c, rest, -, -, rfl⟩ | ⟨-, e, -, rfl⟩ | ⟨-, -, -, rfl⟩ | ⟨-, -, c, rest, -, -, hx⟩ |
    ⟨-, r, rest, -, hx⟩ | ⟨-, e, -, rfl⟩ | ⟨-, r, rest, -, hx⟩
  · rfl
  · rfl
  · rfl
  · rfl
  · exact (exec_kept hx).params
  · exact (exec_kept hx).params
  · rfl
  · exact (exec_kept hx).params

end Sys2Proof.Machine
end

section
/-! CERTIFICATE. The statements of the state's family (10 R30, R31, R34 to R49) settled. -/

namespace Sys2Proof.Machine

/-- Settles O49: every operation, instruction and turn keeps the invariant. -/
theorem stepKeepsTheInvariant : Obligations.StepKeepsTheInvariant :=
  fun _ _ h hx => h.step hx

/-- Settles O44: a request's result, or its division's dividend, is a function of its operands alone. -/
theorem arithmeticUnitIsPure : Obligations.ArithmeticUnitIsPure :=
  fun _ hp => pureRequest_of_port hp

/-- Settles O52: every fault is raised over writes that leave the count of completed commands alone. -/
theorem faultRecordNamesItsCommand : Obligations.FaultRecordNamesItsCommand :=
  fun _ _ _ h => exec_faultNames h

/-- Settles O54: only a command popped by the consumer and the swap's critical section count one. -/
theorem seqCountsCompletedCommands : Obligations.SeqCountsCompletedCommands :=
  fun _ _ h => step_seq h

/-- Settles O59: neither an instruction nor a turn around it writes them. -/
theorem parametersNeverChange : Obligations.ParametersNeverChange :=
  fun _ _ h => step_params h

end Sys2Proof.Machine
end

section
/-! SUPPORT. The byte form of words: what the byte reader answers on it, and what is left of a short tail (20 R82, log 25). -/

namespace Sys2Proof

/-- A word's bytes, least significant first, spell the word (20 R82). -/
theorem wordOfBytes_extract (w : Word) :
    wordOfBytes (w.extractLsb' 0 8) (w.extractLsb' 8 8) (w.extractLsb' 16 8) (w.extractLsb' 24 8) = w := by
  have h16 : w.extractLsb' 24 8 ++ w.extractLsb' 16 8 = w.extractLsb' 16 16 :=
    BitVec.extractLsb'_append_extractLsb'_eq_extractLsb' rfl
  have h8 : w.extractLsb' 16 16 ++ w.extractLsb' 8 8 = w.extractLsb' 8 24 :=
    BitVec.extractLsb'_append_extractLsb'_eq_extractLsb' rfl
  have h0 : w.extractLsb' 8 24 ++ w.extractLsb' 0 8 = w.extractLsb' 0 32 :=
    BitVec.extractLsb'_append_extractLsb'_eq_extractLsb' rfl
  rw [wordOfBytes, h16, h8, h0]
  exact BitVec.extractLsb'_eq_self

/-- Fewer than four bytes spell no word yet (log 25). -/
theorem wordsOfBytes_short {bs : List Byte} (h : bs.length < 4) : wordsOfBytes bs = [] := by
  match bs, h with
  | [], _ | [_], _ | [_, _], _ | [_, _, _], _ => rfl
  | _ :: _ :: _ :: _ :: _, h => simp only [List.length_cons] at h; omega

/-- Words are read back from their byte form, whatever bytes follow (20 R82). -/
theorem wordsOfBytes_bytesOfWords (ws : List Word) (bs : List Byte) :
    wordsOfBytes (bytesOfWords ws ++ bs) = ws ++ wordsOfBytes bs := by
  induction ws with
  | nil => rfl
  | cons w ws ih =>
    calc wordsOfBytes (bytesOfWords (w :: ws) ++ bs)
        = wordOfBytes (w.extractLsb' 0 8) (w.extractLsb' 8 8) (w.extractLsb' 16 8) (w.extractLsb' 24 8) ::
            wordsOfBytes (bytesOfWords ws ++ bs) := rfl
      _ = w :: (ws ++ wordsOfBytes bs) := by rw [wordOfBytes_extract, ih]

/-- A port's decoder reads the byte form of words, with a tail that spells no word, as it reads the words (20 R82, log 25). -/
theorem decodeBytes_bytesOfWords (p : Port) (ws : List Word) {tail : List Byte} (ht : tail.length < 4) :
    decodeBytes p (bytesOfWords ws ++ tail) = decode p ws := by
  rw [decodeBytes, wordsOfBytes_bytesOfWords, wordsOfBytes_short ht, List.append_nil]

/-- The byte form of two lists of words is that of one after that of the other. -/
theorem bytesOfWords_append (vs ws : List Word) : bytesOfWords (vs ++ ws) = bytesOfWords vs ++ bytesOfWords ws :=
  List.flatMap_append

end Sys2Proof
end

section
/-! SUPPORT. What a command writes: of the frame storage the slot "next" only, and nothing of the display's (20 R88, 10 R42). -/

namespace Sys2Proof.Machine

/-- Of the frame slots at most "next" has changed, and nothing of the display's side or of the slot roles. -/
structure WritesNextOnly (s t : State) : Prop where
  slots : ∀ k, k ≠ s.nextSlot → t.mem.slot k = s.mem.slot k
  curSlot : t.curSlot = s.curSlot
  nextSlot : t.nextSlot = s.nextSlot
  bk : t.bk = s.bk
  dpass : t.dpass = s.dpass
  lock : t.lock = s.lock
  fc : t.fc = s.fc
  io : t.io = s.io

theorem WritesNextOnly.refl (s : State) : WritesNextOnly s s := ⟨fun _ _ => rfl, rfl, rfl, rfl, rfl, rfl, rfl, rfl⟩

/-- Raising a fatal fault writes the fault register only (60 R341). -/
theorem WritesNextOnly.raise {s t : State} (h : WritesNextOnly s t) (cmd : Instr) (f : Fatal) :
    WritesNextOnly s (t.raise cmd f) :=
  ⟨h.slots, h.curSlot, h.nextSlot, h.bk, h.dpass, h.lock, h.fc, h.io⟩

/-- Completing a command writes the counter of commands only (41 R182). -/
theorem WritesNextOnly.complete {s t : State} (h : WritesNextOnly s t) : WritesNextOnly s t.complete :=
  ⟨h.slots, h.curSlot, h.nextSlot, h.bk, h.dpass, h.lock, h.fc, h.io⟩

/-- One more write of "next" (10 R41). -/
theorem WritesNextOnly.setNextFrame {s t : State} (h : WritesNextOnly s t) (f : Slot) : WritesNextOnly s (t.setNextFrame f) := by
  refine ⟨fun k hk => ?_, h.curSlot, h.nextSlot, h.bk, h.dpass, h.lock, h.fc, h.io⟩
  have hne : k ≠ t.nextSlot := by rwa [h.nextSlot]
  exact (Memory.slot_setSlot_other _ hne f).trans (h.slots k hk)

/-- With "current" and "next" different slots, "current" is as it was (10 R42, R43). -/
theorem WritesNextOnly.curFrame {s t : State} (h : WritesNextOnly s t) (hne : s.curSlot ≠ s.nextSlot) :
    t.curFrame = s.curFrame := by
  rw [State.curFrame, h.curSlot]
  exact h.slots _ hne

theorem execSetViewport_writesNextOnly {vx0 vy0 vx1 vy1 : Word} {s t : State}
    (h : execSetViewport vx0 vy0 vx1 vy1 s = .next t) : WritesNextOnly s t := by
  obtain ⟨-, h⟩ := live_next.mp h
  cases h
  exact ⟨fun _ _ => rfl, rfl, rfl, rfl, rfl, rfl, rfl, rfl⟩

theorem execVertex_writesNextOnly {x y z w : Word} {s t : State} (h : execVertex x y z w s = .next t) :
    WritesNextOnly s t := by
  rcases execVertex_cases h with ⟨f, rfl⟩ | ⟨-, rfl⟩
  · exact (WritesNextOnly.refl s).raise _ f
  · exact ((WritesNextOnly.refl s).setNextFrame _).complete

theorem execPolygon_writesNextOnly {i0 i1 i2 i3 attr : Word} {s t : State} (h : execPolygon i0 i1 i2 i3 attr s = .next t) :
    WritesNextOnly s t := by
  rcases execPolygon_cases h with ⟨f, rfl⟩ | rfl | ⟨idx, -, -, -, ht⟩
  · exact (WritesNextOnly.refl s).raise _ f
  · exact (WritesNextOnly.refl s).complete
  · have h1 : WritesNextOnly s (s.transformNext idx) := (WritesNextOnly.refl s).setNextFrame _
    rcases ht with ⟨f, rfl⟩ | ht
    · exact h1.raise _ f
    · rcases storeTriangles_cases ht with ⟨f, rfl⟩ | ⟨-, rfl⟩
      · exact h1.raise _ f
      · exact (h1.setNextFrame _).complete

theorem execSwapBuffers_writesNextOnly {s t : State} (h : execSwapBuffers s = .next t) : WritesNextOnly s t := by
  have h1 : WritesNextOnly s s.setUpNext := (WritesNextOnly.refl s).setNextFrame _
  rcases execSwapBuffers_cases h with ⟨f, rfl⟩ | rfl
  · exact h1.raise _ f
  · exact ⟨h1.slots, h1.curSlot, h1.nextSlot, h1.bk, h1.dpass, h1.lock, h1.fc, h1.io⟩

/-- Every command, of SWAPBUFFERS its first phase, writes "next" and the consumer's side only (20 R88). -/
theorem execCommand_writesNextOnly {i : Instr} {s t : State} (hp : i.port = .cmd) (h : exec i s = .next t) :
    WritesNextOnly s t := by
  cases i with
  | setViewport => exact execSetViewport_writesNextOnly h
  | vertex => exact execVertex_writesNextOnly h
  | polygon => exact execPolygon_writesNextOnly h
  | swapBuffers => exact execSwapBuffers_writesNextOnly h
  | _ => cases hp

end Sys2Proof.Machine
end

section
/-! SUPPORT. What a step does to the command channel and to the pixel-write events (20 R81, R87). -/

namespace Sys2Proof.Machine

/-- A live block's step is the turn of the agent whose turn it is (60 R350). -/
theorem step_of_turn {s : State} {a : Turn} (hf : s.fault = none) (ht : s.turn = a) : step s = turnOf a s.beginStep := by
  rw [step, live_of_none hf, ht]

/-- The turn of a producer with a decoded command: the push where there is room, else the hold (41 R180). -/
theorem producerTurn_ok {s : State} {c : Instr} {rest : List Word} (hd : decode .cmd s.io.cmdIn = .ok c rest) :
    producerTurn s = if s.chan.length < s.params.chanCap then .next ((s.takeCmd rest).push c) else .next s := by
  rw [producerTurn, hd]

/-- A step leaves the channel, or, on a producer turn with room, appends a command, or, on a consumer turn, removes the first
(41 R180, R181). -/
theorem step_chan {s t : State} (h : step s = .next t) :
    t.chan = s.chan ∨
      (s.turn = .producer ∧ s.chan.length < s.params.chanCap ∧ ∃ c : Instr, c.port = .cmd ∧ t.chan = s.chan ++ [c]) ∨
      (s.turn = .consumer ∧ ∃ c : Instr, s.chan = c :: t.chan) := by
  obtain ⟨-, hcases⟩ := step_cases h
  rcases hcases with rfl | ⟨ht, c, rest, hd, hl, rfl⟩ | ⟨-, e, -, rfl⟩ | ⟨-, -, -, rfl⟩ | ⟨ht, -, c, rest, hc, -, hx⟩ |
    ⟨-, r, rest, -, hx⟩ | ⟨-, e, -, rfl⟩ | ⟨-, r, rest, -, hx⟩
  · exact .inl rfl
  · exact .inr (.inl ⟨ht, hl, c, decodeCommand_port hd, rfl⟩)
  · exact .inl rfl
  · exact .inl rfl
  · have hrest : t.chan = rest := (exec_kept hx).chan
    exact .inr (.inr ⟨ht, c, by rw [hrest]; exact hc⟩)
  · exact .inl (exec_kept hx).chan
  · exact .inl rfl
  · exact .inl (exec_kept hx).chan

/-- From `s` to `t` the block has emitted events, all of them pixels of the display on the line of the cursor of `s`. -/
def EmitsOnLine (s t : State) : Prop :=
  ∃ es, t.io.pixels = s.io.pixels ++ es ∧ ∀ e ∈ es, e.y = s.dpass.line ∧ e.y < Config.dispH ∧ e.x < Config.dispW

/-- No event is emitted. -/
theorem EmitsOnLine.of_eq {s t : State} (h : t.io.pixels = s.io.pixels) : EmitsOnLine s t := ⟨[], by simpa using h, by simp⟩

/-- A NEXTLINE emits on its line only; past the last line it emits nothing (45 R310, R311). -/
theorem execNextLine_emits {s t : State} (h : execNextLine s = .next t) (hl : s.dpass.line ≤ Config.dispH) :
    EmitsOnLine s t := by
  rcases execNextLine_cases h with rfl | rfl | ⟨-, hne, js, ps, es, -, hfill, rfl⟩
  · exact .of_eq rfl
  · exact .of_eq rfl
  · have hlt : s.dpass.line < Config.dispH := Nat.lt_of_le_of_ne hl hne
    refine ⟨es, rfl, fun e he => ?_⟩
    obtain ⟨hy, hx⟩ := (fillLine_frame hfill).2 e he
    exact ⟨hy, by rwa [hy], hx⟩

/-- A display request emits on the line of the cursor only (20 R81). -/
theorem execDisplay_emits {i : Instr} {s t : State} (hp : i.port = .dport) (h : exec i s = .next t)
    (hl : s.dpass.line ≤ Config.dispH) : EmitsOnLine s t := by
  cases i with
  | beginFrame => rcases execBeginFrame_cases h with rfl | rfl | ⟨-, -, ps, b, -, -, rfl⟩ <;> exact .of_eq rfl
  | nextLine => exact execNextLine_emits h hl
  | endFrame => rcases execEndFrame_cases h with rfl | ⟨-, rfl⟩ <;> exact .of_eq rfl
  | _ => cases hp

/-- A request to the arithmetic unit emits nothing (10 R30). -/
theorem execUnit_pixels {i : Instr} {s t : State} (hp : i.port = .q12alu) (h : exec i s = .next t) :
    t.io.pixels = s.io.pixels := by
  rcases execUnit_cases hp h with ⟨r, rfl⟩ | ⟨f, rfl⟩ <;> rfl

/-- A step emits nothing, or, on a display turn, emits on the line of the cursor (20 R81, 45 R310). -/
theorem step_pixels {s t : State} (h : step s = .next t) (hl : s.dpass.line ≤ Config.dispH) :
    t.io.pixels = s.io.pixels ∨ (s.turn = .display ∧ EmitsOnLine s t) := by
  obtain ⟨-, hcases⟩ := step_cases h
  rcases hcases with rfl | ⟨-, c, rest, -, -, rfl⟩ | ⟨-, e, -, rfl⟩ | ⟨-, -, -, rfl⟩ | ⟨-, -, c, rest, -, hw, hx⟩ |
    ⟨ht, r, rest, hd, hx⟩ | ⟨-, e, -, rfl⟩ | ⟨-, r, rest, hd, hx⟩
  · exact .inl rfl
  · exact .inl rfl
  · exact .inl rfl
  · exact .inl rfl
  · have hnext := execCommand_writesNextOnly (beq_iff_eq.mp hw) hx
    exact .inl (by rw [hnext.io]; rfl)
  · have he := execDisplay_emits (decodeRequest_port hd) hx hl
    exact .inr ⟨ht, he⟩
  · exact .inl rfl
  · have hp := execUnit_pixels (decodeUnit_port hd) hx
    exact .inl hp

end Sys2Proof.Machine
end

section
/-! CERTIFICATE. The statements of the memory's family (20 R81, R82, R87, R88) settled. -/

namespace Sys2Proof.Machine

/-- Settles O3: the byte form of an instruction and further words is that of one list of words, which is read back whole. -/
theorem bytesDecodeLikeWords : Obligations.BytesDecodeLikeWords := by
  intro i ws tail ht
  rw [encodeBytes, ← List.append_assoc, ← bytesOfWords_append, decodeBytes_bytesOfWords _ _ ht]
  exact decode_encode i ws

/-- Settles O40: only the fill of a line before the end of the pass emits, and only the span's visible columns. -/
theorem pixelEventsAreOnScreen : Obligations.PixelEventsAreOnScreen := by
  rintro s t ⟨-, -, -, hl⟩ h
  rcases step_pixels h hl with hp | ⟨ht, es, hp, hes⟩
  · exact ⟨[], by simpa using hp, by simp, by simp⟩
  · exact ⟨es, hp, fun _ => ht, hes⟩

/-- Settles O55: no instruction writes the channel, so only the turns around it do. -/
theorem channelIsFifo : Obligations.ChannelIsFifo :=
  fun _ _ h => step_chan h

/-- Settles O56: a command writes "next" only, and matching selectors name a different slot "current". -/
theorem commandsLeaveTheDisplaySideAlone : Obligations.CommandsLeaveTheDisplaySideAlone := by
  rintro i s t hp ⟨-, hcur⟩ h
  have hw := execCommand_writesNextOnly hp h
  have hne : s.curSlot ≠ s.nextSlot := by rw [hcur]; exact SlotId.other_ne _
  exact ⟨hw.curFrame hne, hw.curSlot, hw.nextSlot, hw.bk, hw.dpass, hw.lock, hw.fc, hw.io⟩

/-- Settles O8: the producer's turn on a decoded command, in a live block with room or without, and in a halted block. -/
theorem producerPushesInOrder : Obligations.ProducerPushesInOrder := by
  intro s c rest ht hd
  have hturn := producerTurn_ok (s := s.beginStep) hd
  refine ⟨fun hf hl => ?_, fun hf hl => ?_, fun hf => live_of_some hf _⟩
  · exact (step_of_turn hf ht).trans (hturn.trans (if_pos hl))
  · exact (step_of_turn hf ht).trans (hturn.trans (if_neg hl))

end Sys2Proof.Machine
end

section
/-! SUPPORT. What each decoder accepts and refuses, as an equivalence on the words (30 R111 to R120). -/

namespace Sys2Proof

/-- A word whose reserved bits, from bit `k` up, are zero is the number its low `k` bits give (30 R118, R119). -/
theorem word_eq_of_reserved_zero {w : Word} {k r : Nat} (hk : k + r = 32) (hr : w.extractLsb' k r = 0) :
    w = BitVec.ofNat 32 (w.extractLsb' 0 k).toNat := by
  have hhigh : w.toNat / 2 ^ k % 2 ^ r = 0 := by
    simpa [Nat.shiftRight_eq_div_pow] using congrArg BitVec.toNat hr
  have hlt : w.toNat / 2 ^ k < 2 ^ r := by
    rw [Nat.div_lt_iff_lt_mul (Nat.two_pow_pos k), ← pow_add, Nat.add_comm, hk]
    exact w.isLt
  have hlow : w.toNat < 2 ^ k := by
    rw [Nat.mod_eq_of_lt hlt, Nat.div_eq_zero_iff_lt (Nat.two_pow_pos k)] at hhigh
    exact hhigh
  have htag : (w.extractLsb' 0 k).toNat = w.toNat := by
    simpa using Nat.mod_eq_of_lt hlow
  rw [htag, BitVec.ofNat_toNat, BitVec.setWidth_eq]

/-- The command decoder reads a command from the command's own words only (30 R111, R117). -/
theorem decodeCommand_ok {ws rest : List Word} {i : Instr} (h : decodeCommand ws = .ok i rest) : ws = encode i ++ rest := by
  unfold decodeCommand at h
  split at h
  · cases h
  · rename_i w ws
    split at h
    · cases h
    · rename_i hr
      have hw := word_eq_of_reserved_zero (k := 4) rfl (not_not.mp hr)
      split at h
      case h_1 htag | h_2 htag | h_3 htag =>
        rw [hw, htag]
        split at h <;> cases h
        rfl
      case h_4 htag =>
        rw [hw, htag]
        cases h
        rfl
      case h_5 => cases h

/-- The display port's decoder reads a request from the request's own word only (30 R113). -/
theorem decodeRequest_ok {ws rest : List Word} {i : Instr} (h : decodeRequest ws = .ok i rest) : ws = encode i ++ rest := by
  unfold decodeRequest at h
  split at h
  · cases h
  · split at h
    · cases h
    · rename_i hr
      have hw := word_eq_of_reserved_zero (k := 2) rfl (not_not.mp hr)
      split at h
      case h_1 htag | h_2 htag | h_3 htag =>
        rw [hw, htag]
        cases h
        rfl
      case h_4 => cases h

/-- A selector's operation is encoded as the selector and the operand words (30 R114, log 11). -/
theorem encode_of_unitInstr {n : Nat} {a b : Word} {i : Instr} (h : unitInstr n a b = some i) :
    encode i = [BitVec.ofNat 32 n, a, b] := by
  unfold unitInstr at h
  split at h <;> cases h <;> rfl

/-- The selectors from 0xA on name no operation (30 R120). -/
theorem unitInstr_eq_none_iff {n : Nat} {a b : Word} : unitInstr n a b = none ↔ 0xA ≤ n := by
  unfold unitInstr
  split
  case h_11 =>
    simp only [imp_false] at *
    exact iff_of_true trivial (by omega)
  all_goals exact iff_of_false (Option.some_ne_none _) (by decide)

/-- The arithmetic unit's decoder reads a request from the request's own words only (30 R114). -/
theorem decodeUnit_ok {ws rest : List Word} {i : Instr} (h : decodeUnit ws = .ok i rest) : ws = encode i ++ rest := by
  unfold decodeUnit at h
  split at h
  · cases h
  · split at h
    · cases h
    · split at h
      · split at h
        · rename_i hi
          cases h
          rw [encode_of_unitInstr hi, BitVec.ofNat_toNat, BitVec.setWidth_eq]
          rfl
        · cases h
      · cases h

/-- A port's decoder reads an instruction from the instruction's own words only (30 R117). -/
theorem decode_ok {p : Port} {ws rest : List Word} {i : Instr} (h : decode p ws = .ok i rest) : ws = encode i ++ rest := by
  cases p with
  | cmd => exact decodeCommand_ok h
  | dport => exact decodeRequest_ok h
  | q12alu => exact decodeUnit_ok h

/-- An instruction's words alone decode to it at its port, with nothing left (30 R117). -/
theorem decode_of_encode {p : Port} {ws : List Word} {i : Instr} (hp : i.port = p) (he : encode i = ws) :
    decode p ws = .ok i [] := by
  rw [← hp, ← he, ← List.append_nil (encode i)]
  exact decode_encode i []

/-- The command decoder refuses a header for its reserved bits or its tag, whatever follows (30 R118). -/
theorem decodeCommand_refused_iff (h : Word) (ws : List Word) : decodeCommand (h :: ws) = .refused .badCommand ↔
    (h.extractLsb' 4 28 ≠ 0 ∨ (h.extractLsb' 0 4).toNat = 0 ∨ 5 ≤ (h.extractLsb' 0 4).toNat) := by
  by_cases hr : h.extractLsb' 4 28 ≠ 0
  · exact iff_of_true (if_pos hr) (.inl hr)
  · simp only [decodeCommand, hr, if_false, false_or]
    split
    case h_1 htag | h_2 htag | h_3 htag =>
      rw [htag]
      refine iff_of_false ?_ (by decide)
      split <;> exact Decoded.noConfusion
    case h_4 htag =>
      rw [htag]
      exact iff_of_false Decoded.noConfusion (by decide)
    case h_5 =>
      simp only [imp_false] at *
      exact iff_of_true trivial (by omega)

/-- The display port's decoder refuses a word for its reserved bits or its operation (30 R119). -/
theorem decodeRequest_refused_iff (d : Word) (ws : List Word) : decodeRequest (d :: ws) = .refused .badRequest ↔
    (d.extractLsb' 2 30 ≠ 0 ∨ d.extractLsb' 0 2 = 0) := by
  have h0 : d.extractLsb' 0 2 = 0 ↔ (d.extractLsb' 0 2).toNat = 0 := BitVec.toNat_inj.symm
  have hlt := (d.extractLsb' 0 2).isLt
  rw [h0]
  by_cases hr : d.extractLsb' 2 30 ≠ 0
  · exact iff_of_true (if_pos hr) (.inl hr)
  · simp only [decodeRequest, hr, if_false, false_or]
    split
    case h_1 hop | h_2 hop | h_3 hop =>
      rw [hop]
      exact iff_of_false Decoded.noConfusion (by decide)
    case h_4 =>
      simp only [imp_false] at *
      exact iff_of_true trivial (by omega)

/-- The arithmetic unit's decoder refuses a request for its selector only (30 R120). -/
theorem decodeUnit_refused_iff (op : Word) (ws : List Word) :
    decodeUnit (op :: ws) = .refused .reservedSelector ↔ 0xA ≤ op.toNat := by
  have hnone (a b : Word) : unitInstr op.toNat a b = none ↔ 0xA ≤ op.toNat := unitInstr_eq_none_iff
  simp only [decodeUnit]
  split
  · rename_i hs
    exact iff_of_true rfl ((hnone 0 0).mp hs)
  · rename_i i hs
    have hop : ¬ 0xA ≤ op.toNat := fun hle => Option.some_ne_none i (hs.symm.trans ((hnone 0 0).mpr hle))
    refine iff_of_false ?_ hop
    split
    · split
      · exact Decoded.noConfusion
      · rename_i hs'
        exact absurd ((hnone _ _).mp hs') hop
    · exact Decoded.noConfusion

end Sys2Proof
end

section
/-! SUPPORT. What the pseudo-instruction TRI stands for (30 R123). -/

namespace Sys2Proof

/-- A TRI with a last word stands for a POLYGON with that word, unless the word has the quad flag (30 R123). -/
theorem Pseudo.expand_tri_some (i0 i1 i2 attr : Word) :
    (Pseudo.tri i0 i1 i2 (some attr)).expand = if attr.getLsbD 31 then none else some (.polygon i0 i1 i2 0 attr) := by
  have hwf : (Pseudo.tri i0 i1 i2 (some attr)).wellFormed = !attr.getLsbD 31 := rfl
  rw [Pseudo.expand, hwf]
  cases attr.getLsbD 31
  · rfl
  · rfl

end Sys2Proof
end

section
/-! SUPPORT. The turns of the producer, the display and the arithmetic unit, one lemma for each answer of their decoder
(60 R350). -/

namespace Sys2Proof.Machine

/-- A producer whose header spells no command records it with its position and discards the one word (30 R118, log 10). -/
theorem producerTurn_refused {s : State} {e : DecodeError} (hd : decode .cmd s.io.cmdIn = .refused e) :
    producerTurn s = .next ((s.refuse (.badCommand s.io.cmdPos)).takeCmd s.io.cmdIn.tail) := by
  rw [producerTurn, hd]

/-- A BEGINFRAME has to wait exactly outside a pass while the lock is taken (45 R300). -/
theorem State.beginHolds_iff (s : State) : s.beginHolds = true ↔ s.dpass.active = false ∧ s.lock ≠ .free := by
  simp [State.beginHolds]

/-- The turn of a display with a decoded request: a BEGINFRAME that has to wait stays, another request runs (45 R300). -/
theorem displayTurn_ok {s : State} {r : Instr} {rest : List Word} (hd : decode .dport s.io.dispIn = .ok r rest) :
    displayTurn s =
      if r = .beginFrame ∧ s.beginHolds then .next s else exec r { s with io := { s.io with dispIn := rest } } := by
  rw [displayTurn, hd]

/-- A display whose word spells no request records the refusal and discards the word (30 R119). -/
theorem displayTurn_refused {s : State} {e : DecodeError} (hd : decode .dport s.io.dispIn = .refused e) :
    displayTurn s = .next ({ s with io := { s.io with dispIn := s.io.dispIn.tail } }.refuse .badRequest) := by
  rw [displayTurn, hd]

/-- The arithmetic unit's turn runs a decoded request on the state without its words (log 11). -/
theorem unitTurn_ok {s : State} {r : Instr} {rest : List Word} (hd : decode .q12alu s.io.unitIn = .ok r rest) :
    unitTurn s = exec r { s with io := { s.io with unitIn := rest } } := by
  rw [unitTurn, hd]

/-- The arithmetic unit's turn refuses a request its decoder refuses (30 R120). -/
theorem unitTurn_refused {s : State} {e : DecodeError} (hd : decode .q12alu s.io.unitIn = .refused e) :
    unitTurn s = .refused .reservedSelector := by
  rw [unitTurn, hd]

end Sys2Proof.Machine
end

section
/-! CERTIFICATE. The statements of the encoding's family (30 R110 to R124) settled. -/

namespace Sys2Proof.Machine

/-- Settles O2: an accepted word list is the instruction's own words and the rest, and the port is the instruction's. -/
theorem decodeInvertsEncode : Obligations.DecodeInvertsEncode := by
  intro p ws i rest
  constructor
  · exact fun h => ⟨decode_wellFormedAt h, decode_ok h⟩
  · rintro ⟨hp, rfl⟩
    rw [← beq_iff_eq.mp hp]
    exact decode_encode i rest

/-- Settles O4: for each decoder, by the fields of the first word. -/
theorem reservedWordsSpellNothing : Obligations.ReservedWordsSpellNothing :=
  ⟨decodeCommand_refused_iff, decodeRequest_refused_iff, decodeUnit_refused_iff⟩

/-- Settles O1: the words are the encodings by computation, and an encoding decodes to its instruction. -/
theorem encodingExamples : Obligations.EncodingExamples :=
  ⟨rfl, rfl, rfl, decode_of_encode rfl rfl, decode_of_encode rfl rfl, decode_of_encode rfl rfl, decode_of_encode rfl rfl,
    decode_of_encode rfl rfl, decode_of_encode rfl rfl⟩

/-- Settles O5: a TRI with a last word is split by its quad flag; the other forms expand by computation. -/
theorem pseudosExpandToOnePolygon : Obligations.PseudosExpandToOnePolygon := by
  intro i0 i1 i2 i3 attr
  have htri := Pseudo.expand_tri_some i0 i1 i2 attr
  refine ⟨rfl, fun h => ?_, fun h => ?_, rfl, rfl⟩
  · rw [htri, h]
    rfl
  · rw [htri, h]
    rfl

/-- Settles O6: the refusing turns of the producer and of the display, with exactly one word taken. -/
theorem refusedWordsSetTheMark : Obligations.RefusedWordsSetTheMark := by
  constructor
  · intro s h ws hf ht hin hd
    have hturn := producerTurn_refused (s := s.beginStep) (hin ▸ hd)
    rw [step_of_turn hf ht]
    refine hturn.trans ?_
    simp [State.takeCmd, State.refuse, State.beginStep, hin]
  · intro s d ws hf ht hin hd
    have hturn := displayTurn_refused (s := s.beginStep) (hin ▸ hd)
    rw [step_of_turn hf ht]
    refine hturn.trans ?_
    simp [State.refuse, State.beginStep, hin]

/-- Settles O10: the display's turn on a decoded request, which runs it unless it is a BEGINFRAME that has to wait. -/
theorem displayStepRunsItsRequest : Obligations.DisplayStepRunsItsRequest := by
  intro s r rest hf ht hd
  have hstep := (step_of_turn hf ht).trans (displayTurn_ok (s := s.beginStep) hd)
  have hholds := State.beginHolds_iff s.beginStep
  refine ⟨fun hgo => hstep.trans (if_neg ?_), fun hr ha hl => hstep.trans (if_pos ⟨hr, hholds.mpr ⟨ha, hl⟩⟩)⟩
  rintro ⟨hr, hh⟩
  obtain ⟨ha, hl⟩ := hholds.mp hh
  rcases hgo hr with ha' | hl'
  · exact Bool.false_ne_true (ha.symm.trans ha')
  · exact hl hl'

/-- Settles O11: the unit's turn on a decoded request and on a selector its decoder refuses. -/
theorem unitStepRunsItsRequest : Obligations.UnitStepRunsItsRequest := by
  intro s hf ht
  refine ⟨fun r rest hd => ?_, fun op ws hin hop => ?_⟩
  · exact (step_of_turn hf ht).trans (unitTurn_ok (s := s.beginStep) hd)
  · have hd : decode .q12alu s.io.unitIn = .refused .reservedSelector := by
      rw [hin]
      exact (decodeUnit_refused_iff op ws).mpr hop
    exact (step_of_turn hf ht).trans (unitTurn_refused (s := s.beginStep) hd)

end Sys2Proof.Machine
end

section
/-! SUPPORT. What a request to the arithmetic unit does in a live block, and the integers the Q12 operations answer (40 R139 to
R152). -/

namespace Sys2Proof.Machine

/-- In a live block a request that always has a result puts it on the output (40 R139). -/
theorem unitResult_of_live {s : State} (hs : s.fault = none) (r : Word) : unitResult r s = .next (s.answer (.result r)) :=
  live_of_none hs _

/-- In a live block a division that has a quotient puts it on the output (40 R143, R148). -/
theorem unitDivide_ok {s : State} (hs : s.fault = none) (i : Instr) (r : Word) :
    unitDivide i (.ok r) s = .next (s.answer (.result r)) :=
  live_of_none hs _

/-- In a live block a division that is fatal raises its fault for the request (40 R143, R148). -/
theorem unitDivide_fatal {s : State} (hs : s.fault = none) (i : Instr) (f : Fatal) :
    unitDivide i (.error (.fatal f)) s = .next (s.raise i f) :=
  live_of_none hs _

/-- An integer division whose divisor is not zero has a result (40 R148). -/
theorem q12DivI_of_ne_zero (a : Word) {b : Word} (h : b ≠ 0) : q12DivI a b = .ok (q12QuotI a b) :=
  if_neg h

/-- QLT answers the integer 1 or 0 (40 R149). -/
theorem q12Lt_eq_wrap32 (a b : Word) : q12Lt a b = wrap32 (if a.toInt < b.toInt then 1 else 0) := by
  rw [q12Lt, q12Less]
  by_cases h : a.toInt < b.toInt
  · rw [decide_eq_true h, if_pos rfl, if_pos h]
    rfl
  · rw [decide_eq_false h, if_neg Bool.false_ne_true, if_neg h]
    rfl

/-- QADD is the addition of words modulo `2^32` (40 R140, R150). -/
theorem q12Add_eq_add (a b : Word) : q12Add a b = a + b := by
  rw [q12Add, wrap32, BitVec.ofInt_add, BitVec.ofInt_toInt, BitVec.ofInt_toInt]

/-- QMUL commutes (40 R152). -/
theorem q12Mul_comm (a b : Word) : q12Mul a b = q12Mul b a := by
  rw [q12Mul, q12Mul, Int.mul_comm]

/-- QFROMI of an integer in range is exact (40 R145). -/
theorem q12FromI_toInt {i : Word} (h1 : -524288 ≤ i.toInt) (h2 : i.toInt ≤ 524287) : (q12FromI i).toInt = i.toInt * 4096 :=
  wrap32_toInt (by rw [q12One]; omega) (by rw [q12One]; omega)

/-- QTOI undoes QFROMI in range (40 R152). -/
theorem q12ToI_q12FromI {i : Word} (h1 : -524288 ≤ i.toInt) (h2 : i.toInt ≤ 524287) : q12ToI (q12FromI i) = i := by
  apply BitVec.eq_of_toInt_eq
  rw [q12ToI_toInt, q12FromI_toInt h1 h2]
  exact Int.mul_ediv_cancel _ (by decide)

/-- A summand may be wrapped before the sum is (40 R150). -/
theorem wrap32_add_wrap32 (m n : Int) : wrap32 (m + (wrap32 n).toInt) = wrap32 (m + n) := by
  rw [wrap32, wrap32, wrap32, BitVec.ofInt_add, BitVec.ofInt_toInt, BitVec.ofInt_add]

/-- QADDI wraps once: the wrap of the shifted integer is lost in the wrap of the sum (40 R147, R150). -/
theorem q12AddI_eq_wrap32 (a i : Word) : q12AddI a i = wrap32 (a.toInt + i.toInt * 4096) := by
  rw [q12AddI, wrap32_add_wrap32]
  rfl

end Sys2Proof.Machine
end

section
/-! CERTIFICATE. The statements of the fixed-point family (40 R139 to R152) settled. -/

namespace Sys2Proof.Machine

/-- Settles O45: QADD is the addition of words, QTOI is a floor, and the laws that fail have small operands as counterexamples. -/
theorem q12AlgebraicLaws : Obligations.Q12AlgebraicLaws := by
  refine ⟨fun a b => ⟨?_, q12Mul_comm a b⟩, fun a b c => ?_, ⟨1, 2048, 8192, by decide⟩, ⟨2048, 1, 1, by decide⟩,
    fun i => q12ToI_q12FromI, fun a i h1 h2 => ?_, by decide, by decide⟩
  · rw [q12Add_eq_add, q12Add_eq_add, BitVec.add_comm]
  · simp only [q12Add_eq_add, BitVec.add_assoc]
  · have hsum : (q12AddI a i).toInt = a.toInt + i.toInt * 4096 := by
      rw [q12AddI_eq_wrap32]
      exact wrap32_toInt (by omega) (by omega)
    rw [q12ToI_toInt, q12ToI_toInt, hsum]
    exact Int.add_mul_ediv_right _ _ (by decide)

/-- Settles O41: each request puts its operation's result out, and the operation is its formula by definition, but QLT, which
chooses between the two words. -/
theorem arithmeticRequestsAnswer : Obligations.ArithmeticRequestsAnswer := by
  intro s a b hs
  have hout (r : Word) : unitResult r s = .next (s.answer (.result r)) := unitResult_of_live hs r
  refine ⟨hout _, hout _, hout _, hout _, hout _, hout _, hout _, ?_⟩
  refine (hout (q12Lt a b)).trans ?_
  rw [q12Lt_eq_wrap32]
  rfl

/-- Settles O42: the divisor is not zero, so each division has its quotient. -/
theorem divisionsRoundTowardZero : Obligations.DivisionsRoundTowardZero := by
  intro s a b hs hb
  constructor
  · have hq : unitDivide (.qdiv a b) (q12Div a b) s = .next (s.answer (.result (q12Quot a b))) := by
      rw [q12Div_of_ne_zero a hb, unitDivide_ok hs]
    exact hq
  · have hq : unitDivide (.qdivi a b) (q12DivI a b) s = .next (s.answer (.result (q12QuotI a b))) := by
      rw [q12DivI_of_ne_zero a hb, unitDivide_ok hs]
    exact hq

/-- Settles O43: a zero divisor makes each division the fatal fault with its dividend. -/
theorem divisionByZeroIsFatal : Obligations.DivisionByZeroIsFatal := by
  intro s a hs
  have hfatal (i : Instr) : unitDivide i (.error (divZero a)) s = .next (s.raise i { code := .divZero, info := [a.toInt] }) :=
    unitDivide_fatal hs i _
  exact ⟨hfatal (.qdiv a 0), hfatal (.qdivi a 0)⟩

end Sys2Proof.Machine
end

section
/-! SUPPORT. The meanings of VERTEX and POLYGON in a live block, one equation for each case of their rules (41 R190 to R207). -/

namespace Sys2Proof.Machine

/-- A VERTEX that finds room appends its classified record and completes (41 R190). -/
theorem execVertex_of_room {s : State} (hs : s.fault = none) (hn : s.nextFrame.verts.length ≠ Config.vcap) (x y z w : Word) :
    execVertex x y z w s = .next (s.setNextFrame (s.nextFrame.pushVertex (newVertex s.params.zclip x y z w))).complete := by
  rw [execVertex, live_of_none hs, if_neg hn]

/-- A VERTEX that finds the array full raises VERTEX_OVERFLOW with its length, before any write (41 R190). -/
theorem execVertex_of_full {s : State} (hs : s.fault = none) (hn : s.nextFrame.verts.length = Config.vcap) (x y z w : Word) :
    execVertex x y z w s = .next (s.raise (.vertex x y z w) { code := .vertexOverflow, info := [(Config.vcap : Int)] }) := by
  rw [execVertex, live_of_none hs, if_pos hn, hn]

/-- Every index in range passes the check (41 R203). -/
theorem firstOut_of_all {len : Nat} {is : List Nat} (h : ∀ i ∈ is, i < len) (n : Nat) : firstOutOfRange len n is = none := by
  induction is generalizing n with
  | nil => rfl
  | cons i is ih =>
    obtain ⟨hi, his⟩ := List.forall_mem_cons.mp h
    rw [firstOutOfRange, if_neg (by omega)]
    exact ih his (n + 1)

/-- The check answers the first position whose index is out of range, counted from the position of the list (41 R203). -/
theorem firstOut_of_first {len k i : Nat} {is : List Nat} (hi : is[k]? = some i) (hout : len ≤ i)
    (hfirst : ∀ j w, j < k → is[j]? = some w → w < len) (n : Nat) : firstOutOfRange len n is = some (n + k, i) := by
  induction is generalizing k n with
  | nil => cases hi
  | cons d ds ih =>
    cases k with
    | zero =>
      obtain rfl : d = i := by simpa using hi
      rw [firstOutOfRange, if_pos hout]
      rfl
    | succ k =>
      have hd : d < len := hfirst 0 d (Nat.succ_pos k) rfl
      have hds : firstOutOfRange len (n + 1) ds = some (n + 1 + k, i) :=
        ih hi (fun j w hj hw => hfirst (j + 1) w (Nat.succ_lt_succ hj) hw) (n + 1)
      rw [firstOutOfRange, if_neg (by omega), hds, Nat.add_right_comm, Nat.add_assoc]

/-- A record carries a clip flag exactly when its six clip bits are not all clear (10 R36, 41 R204). -/
theorem Vertex.clipped_iff (e : Vertex) : e.clipped = true ↔ e.flags.extractLsb' 0 6 ≠ 0 := bne_iff_ne

/-- An index names a clipped vertex exactly when a record stands there and carries a clip flag (41 R204). -/
theorem clippedAt_iff {vs : List Vertex} {i : Nat} :
    clippedAt vs i = true ↔ ∃ e, vs[i]? = some e ∧ e.flags.extractLsb' 0 6 ≠ 0 := by
  cases h : vs[i]? with
  | none => simp [clippedAt, h]
  | some e => simp [clippedAt, h, Vertex.clipped_iff]

/-- The transforms of vertices the rules produce that are in range and carry no clip flag all succeed (41 R205, 42 R236). -/
theorem transformAll_none (vp : Viewport) {z : Bool} {vs : List Vertex} (hv : ∀ e ∈ vs, VertexOk z e) {is : List Nat}
    (hr : ∀ i ∈ is, i < vs.length) (hc : is.any (clippedAt vs) = false) : (transformAll vp is vs).2 = none := by
  refine (transformAll_succeeds vp is vs fun i hi => ?_).1
  have he : vs[i]? = some (vs[i]'(hr i hi)) := List.getElem?_eq_getElem _
  have hclip : (vs[i]'(hr i hi)).clipped = false := by
    simpa [clippedAt, he] using List.any_eq_false.mp hc i hi
  exact ⟨_, he, .inr ((hv _ (List.getElem_mem _)).cw_ne_zero hclip)⟩

/-- A POLYGON with an index out of range raises POLY_INDEX_RANGE for the first such slot, before any write (41 R203). -/
theorem execPolygon_of_firstOut {s : State} (hs : s.fault = none) {i0 i1 i2 i3 attr : Word} {k i : Nat}
    (ho : firstOutOfRange s.nextFrame.verts.length 0 ((polyIndices i0 i1 i2 i3 attr).map indexOf) = some (k, i)) :
    execPolygon i0 i1 i2 i3 attr s = .next (s.raise (.polygon i0 i1 i2 i3 attr)
      { code := .polyIndexRange, info := [(k : Int), (i : Int), (s.nextFrame.verts.length : Int)] }) := by
  simp only [execPolygon, live_of_none hs, ho]

/-- A POLYGON with its indices in range and a clipped vertex among them is dropped (41 R204). -/
theorem execPolygon_of_clipped {s : State} (hs : s.fault = none) {i0 i1 i2 i3 attr : Word}
    (hr : firstOutOfRange s.nextFrame.verts.length 0 ((polyIndices i0 i1 i2 i3 attr).map indexOf) = none)
    (hc : ((polyIndices i0 i1 i2 i3 attr).map indexOf).any (clippedAt s.nextFrame.verts) = true) :
    execPolygon i0 i1 i2 i3 attr s = .next s.complete := by
  simp only [execPolygon, live_of_none hs, hr, hc, if_true]

/-- A POLYGON with its indices in range, no clipped vertex among them and transforms that all succeed goes on to store its
triangles over the transformed vertices (41 R205, R206). -/
theorem execPolygon_of_transformed {s : State} (hs : s.fault = none) {i0 i1 i2 i3 attr : Word} {idx : List Nat}
    (hidx : (polyIndices i0 i1 i2 i3 attr).map indexOf = idx)
    (hr : firstOutOfRange s.nextFrame.verts.length 0 idx = none) (hc : idx.any (clippedAt s.nextFrame.verts) = false)
    (ht : (transformAll s.vp idx s.nextFrame.verts).2 = none) :
    execPolygon i0 i1 i2 i3 attr s =
      storeTriangles (.polygon i0 i1 i2 i3 attr) attr (polyTriangles i0 i1 i2 i3 attr) (s.transformNext idx) := by
  simp only [execPolygon, live_of_none hs, hidx, hr, hc, ht, finish]
  rfl

/-- The transforms of a POLYGON replace the vertices of "next" and keep its polygons (41 R205). -/
theorem State.nextFrame_transformNext (s : State) (idx : List Nat) :
    (s.transformNext idx).nextFrame = { s.nextFrame with verts := (transformAll s.vp idx s.nextFrame.verts).1 } :=
  State.nextFrame_setNextFrame _ _

/-- Of two writes of "next" the second stays (10 R41). -/
theorem State.setNextFrame_setNextFrame (s : State) (f g : Slot) : (s.setNextFrame f).setNextFrame g = s.setNextFrame g := by
  simp [State.setNextFrame]

/-- Polygons appended over the transformed vertices: one write of "next" (41 R205, R206). -/
theorem State.transformNext_pushPolygons (s : State) (idx : List Nat) (ps : List Polygon) :
    (s.transformNext idx).setNextFrame ((s.transformNext idx).nextFrame.pushPolygons ps) =
      s.setNextFrame { verts := (transformAll s.vp idx s.nextFrame.verts).1, polys := s.nextFrame.polys ++ ps } := by
  rw [State.nextFrame_transformNext]
  exact State.setNextFrame_setNextFrame _ _ _

/-- Triangles that fit are appended and the command completes (41 R206). -/
theorem storeTriangles_of_room {s : State} {tris : List (Triple Word)}
    (hn : s.nextFrame.polys.length + tris.length ≤ Config.pcap)
    (cmd : Instr) (attr : Word) :
    storeTriangles cmd attr tris s = .next (s.setNextFrame (s.nextFrame.pushPolygons (newPolygons attr tris))).complete :=
  if_neg (Nat.not_lt.mpr hn)

/-- Triangles that do not fit raise POLY_OVERFLOW with the array's length and their number, none stored (41 R206). -/
theorem storeTriangles_of_full {s : State} {tris : List (Triple Word)}
    (hn : Config.pcap < s.nextFrame.polys.length + tris.length)
    (cmd : Instr) (attr : Word) :
    storeTriangles cmd attr tris s =
      .next (s.raise cmd { code := .polyOverflow, info := [(s.nextFrame.polys.length : Int), (tris.length : Int)] }) :=
  if_pos hn

end Sys2Proof.Machine
end

section
/-! SUPPORT. From a live state of the invariant every meaning answers a next state: each value a rule reads exists (93 F11). -/

namespace Sys2Proof.Machine

/-- A VERTEX of a live block has a next state, with room or without (41 R190). -/
theorem execVertex_hasNext {s : State} (hs : s.fault = none) (x y z w : Word) : ∃ t, execVertex x y z w s = .next t := by
  by_cases hn : s.nextFrame.verts.length = Config.vcap
  · exact ⟨_, execVertex_of_full hs hn x y z w⟩
  · exact ⟨_, execVertex_of_room hs hn x y z w⟩

/-- The store of triangles has a next state, with room or without (41 R206). -/
theorem storeTriangles_hasNext (cmd : Instr) (attr : Word) (tris : List (Triple Word)) (s : State) :
    ∃ t, storeTriangles cmd attr tris s = .next t := by
  by_cases hn : Config.pcap < s.nextFrame.polys.length + tris.length
  · exact ⟨_, storeTriangles_of_full hn cmd attr⟩
  · exact ⟨_, storeTriangles_of_room (Nat.le_of_not_lt hn) cmd attr⟩

/-- A POLYGON has a next state: a vertex in range and not clipped has a divisor, so no transform stops (41 R205, 42 R236). -/
theorem Inv.execPolygon_hasNext {s : State} (h : Inv s) (hs : s.fault = none) (i0 i1 i2 i3 attr : Word) :
    ∃ t, Machine.execPolygon i0 i1 i2 i3 attr s = .next t := by
  cases hr : firstOutOfRange s.nextFrame.verts.length 0 ((polyIndices i0 i1 i2 i3 attr).map indexOf) with
  | some bad => exact ⟨_, execPolygon_of_firstOut hs hr⟩
  | none =>
    cases hc : ((polyIndices i0 i1 i2 i3 attr).map indexOf).any (clippedAt s.nextFrame.verts) with
    | true => exact ⟨_, execPolygon_of_clipped hs hr hc⟩
    | false =>
      obtain ⟨ht, -, -⟩ := h.next.transformed (vp := s.vp) (firstOut_none hr) hc
      rw [execPolygon_of_transformed hs rfl hr hc ht]
      exact storeTriangles_hasNext _ _ _ _

/-- A SWAPBUFFERS has a next state: no setup of a polygon of "next" stops (43 R252, 44 R280). -/
theorem Inv.execSwapBuffers_hasNext {s : State} (h : Inv s) (hs : s.fault = none) :
    ∃ t, Machine.execSwapBuffers s = .next t := by
  obtain ⟨-, hnet⟩ := Bool.and_eq_true_iff.mp h.params
  have hset := setupAll_of_none fun p hp => ((h.next.polys p hp).setup hnet h.next.verts).1
  rw [Machine.execSwapBuffers, live_of_none hs, hset]
  exact ⟨_, rfl⟩

/-- A pass can begin: the polygons of "current" are set up and their corners can be read (43 R258, 45 R300, R301). -/
theorem Inv.beginPass_hasNext {s : State} (h : Inv s) : ∃ t, beginPass s = .next t := by
  obtain ⟨ps, hps, hm⟩ := passBounds_ok s.params.reinitBounds s.curFrame.polys h.curSetUp
  have hcorners : ∀ p ∈ ps, ∃ c, cornersOf s.curFrame.verts p.vi = .ok c := fun p hp =>
    let ⟨c, hc, _⟩ := (h.cur.pass hm).polys p hp
    ⟨c, hc⟩
  obtain ⟨b, hb⟩ := buildBuckets_ok (f := { s.curFrame with polys := ps }) hcorners
  simp only [beginPass, hps, hb]
  exact ⟨_, rfl⟩

/-- A BEGINFRAME has a next state, whether it is refused, holds or begins the pass (45 R300). -/
theorem Inv.execBeginFrame_hasNext {s : State} (h : Inv s) (hs : s.fault = none) : ∃ t, Machine.execBeginFrame s = .next t := by
  rw [Machine.execBeginFrame, live_of_none hs]
  split
  · exact ⟨_, rfl⟩
  · split
    · exact h.beginPass_hasNext
    · exact ⟨_, rfl⟩

/-- During a pass a line before the end is yielded: its bucket exists and its indices name polygons that are set up (45 R301, R310). -/
theorem Inv.yieldLine_hasNext {s : State} (h : Inv s) (ha : s.dpass.active = true) (hl : s.dpass.line < Config.dispH) :
    ∃ t, yieldLine s = .next t := by
  obtain ⟨b, hbk, hb⟩ := h.buckets ha
  obtain ⟨js, hjs, hlt⟩ := buildBuckets_line hb hl
  obtain ⟨r, hr⟩ := fillLine_ok Config.debugSnapshot s.dpass.line js s.curFrame.polys hlt h.curSetUp
  have hbucket : bucketOf s.bk s.dpass.line = .ok js := by simp only [bucketOf, hbk, hjs]
  simp only [yieldLine, hbucket, hr]
  exact ⟨_, rfl⟩

/-- A NEXTLINE has a next state, whether it is refused, answers END or yields a line (45 R310). -/
theorem Inv.execNextLine_hasNext {s : State} (h : Inv s) (hs : s.fault = none) : ∃ t, Machine.execNextLine s = .next t := by
  obtain ⟨-, -, -, hle⟩ := h.lock
  rw [Machine.execNextLine, live_of_none hs]
  split
  · rename_i ha
    split
    · exact ⟨_, rfl⟩
    · rename_i hne
      exact h.yieldLine_hasNext ha (Nat.lt_of_le_of_ne hle hne)
  · exact ⟨_, rfl⟩

/-- An ENDFRAME of a live block has a next state, inside a pass or outside (45 R320). -/
theorem execEndFrame_hasNext {s : State} (hs : s.fault = none) : ∃ t, execEndFrame s = .next t := by
  rw [execEndFrame, live_of_none hs]
  split
  · exact ⟨_, rfl⟩
  · exact ⟨_, rfl⟩

/-- A request to the arithmetic unit has a next state in a live block: its result, or its fault (40 R139). -/
theorem execUnit_hasNext {i : Instr} (hp : i.port = .q12alu) {s : State} (hs : s.fault = none) : ∃ t, exec i s = .next t := by
  rcases pureRequest_of_port hp with ⟨r, hr⟩ | ⟨n, hn⟩
  · exact ⟨_, hr s hs⟩
  · exact ⟨_, hn s hs⟩

/-- Every instruction has a next state in a live state of the invariant (93 F11). -/
theorem Inv.exec_hasNext {s : State} (h : Inv s) (hs : s.fault = none) (i : Instr) : ∃ t, Machine.exec i s = .next t := by
  cases i with
  | setViewport => exact ⟨_, live_of_none hs _⟩
  | vertex x y z w => exact execVertex_hasNext hs x y z w
  | polygon i0 i1 i2 i3 attr => exact h.execPolygon_hasNext hs i0 i1 i2 i3 attr
  | swapBuffers => exact h.execSwapBuffers_hasNext hs
  | beginFrame => exact h.execBeginFrame_hasNext hs
  | nextLine => exact h.execNextLine_hasNext hs
  | endFrame => exact execEndFrame_hasNext hs
  | qadd | qsub | qmul | qdiv | qneg | qfromi | qtoi | qaddi | qdivi | qlt => exact execUnit_hasNext rfl hs

/-- The producer's turn has a next state, whatever its decoder answers (30 R118, R121, 41 R180). -/
theorem producerTurn_hasNext (s : State) : ∃ t, producerTurn s = .next t := by
  cases hd : decode .cmd s.io.cmdIn with
  | ok c rest =>
    rw [producerTurn_ok hd]
    split
    · exact ⟨_, rfl⟩
    · exact ⟨_, rfl⟩
  | incomplete => exact ⟨s, by rw [producerTurn, hd]⟩
  | refused e => exact ⟨_, producerTurn_refused hd⟩

/-- The consumer's turn has a next state: what it pops is a command (41 R181, R183). -/
theorem Inv.consumerTurn_hasNext {s : State} (h : Inv s) (hs : s.fault = none) : ∃ t, consumerTurn s = .next t := by
  rw [consumerTurn]
  split
  · split
    · exact ⟨_, rfl⟩
    · exact ⟨_, rfl⟩
  · split
    · exact ⟨_, rfl⟩
    · rename_i c rest hc
      rw [if_pos (h.chan.2 c (by simp [hc]))]
      exact (h.pop hc).exec_hasNext hs c

/-- The display's turn has a next state, whatever its decoder answers (30 R119, 45 R300). -/
theorem Inv.displayTurn_hasNext {s : State} (h : Inv s) (hs : s.fault = none) : ∃ t, displayTurn s = .next t := by
  cases hd : decode .dport s.io.dispIn with
  | ok r rest =>
    rw [displayTurn_ok hd]
    split
    · exact ⟨_, rfl⟩
    · exact (h.io { s.io with dispIn := rest }).exec_hasNext hs r
  | incomplete => exact ⟨s, by rw [displayTurn, hd]⟩
  | refused e => exact ⟨_, displayTurn_refused hd⟩

/-- The arithmetic unit's turn has a next state, or its request is refused for its selector (30 R120, log 11). -/
theorem Inv.unitTurn_hasNext {s : State} (h : Inv s) (hs : s.fault = none) :
    (∃ t, unitTurn s = .next t) ∨ unitTurn s = .refused .reservedSelector := by
  cases hd : decode .q12alu s.io.unitIn with
  | ok r rest =>
    rw [unitTurn_ok hd]
    exact .inl ((h.io { s.io with unitIn := rest }).exec_hasNext hs r)
  | incomplete => exact .inl ⟨s, by rw [unitTurn, hd]⟩
  | refused e => exact .inr (unitTurn_refused hd)

end Sys2Proof.Machine
end

section
/-! SUPPORT. The six clip flags bit by bit, and what a negative `w` does to them (41 R191, R192). -/

namespace Sys2Proof.Machine

/-- A zero `w` sets all six flags (41 R192). -/
theorem clipFlags_of_zero (zclip : Bool) (x y z : Word) : clipFlags zclip x y z 0 = 0b111111#6 := rfl

/-- The bits of six flags put together, the last one lowest. -/
theorem sixFlags_bits (f n b t r l : Bool) :
    let v := BitVec.ofBool f ++ BitVec.ofBool n ++ BitVec.ofBool b ++ BitVec.ofBool t ++ BitVec.ofBool r ++ BitVec.ofBool l
    v.getLsbD 0 = l ∧ v.getLsbD 1 = r ∧ v.getLsbD 2 = t ∧ v.getLsbD 3 = b ∧ v.getLsbD 4 = n ∧ v.getLsbD 5 = f := by
  revert f n b t r l
  decide

/-- With a `w` that is not zero each flag is its own signed comparison (41 R191). -/
theorem clipFlags_bits (zclip : Bool) (x y z : Word) {w : Word} (hw : w ≠ 0) :
    let f := clipFlags zclip x y z w
    f.getLsbD 0 = q12Less x (q12Neg w) ∧ f.getLsbD 1 = q12Less w x ∧
      f.getLsbD 2 = q12Less y (q12Neg w) ∧ f.getLsbD 3 = q12Less w y ∧
      f.getLsbD 4 = (zclip && q12Less z (q12Neg w)) ∧ f.getLsbD 5 = (zclip && q12Less w z) := by
  rw [clipFlags, if_neg hw]
  exact sixFlags_bits _ _ _ _ _ _

/-- Six flags that are all clear are the zero word. -/
theorem clipFlags_eq_zero {f : BitVec 6} (h0 : f.getLsbD 0 = false) (h1 : f.getLsbD 1 = false) (h2 : f.getLsbD 2 = false)
    (h3 : f.getLsbD 3 = false) (h4 : f.getLsbD 4 = false) (h5 : f.getLsbD 5 = false) : f = 0 := by
  revert f
  decide

/-- The negation of a word other than the least one is exact (40 R144). -/
theorem q12Neg_toInt_of_ne_least {w : Word} (hw : w.toInt ≠ -2147483648) : (q12Neg w).toInt = -w.toInt := by
  have h := word_toInt_bounds w
  rw [q12Neg, wrap32_toInt (by omega) (by omega), Int.zero_sub]

/-- The least word is its own negation (40 R144, R150). -/
theorem q12Neg_of_least {w : Word} (hw : w.toInt = -2147483648) : q12Neg w = w := by
  rw [q12Neg, hw]
  exact BitVec.eq_of_toInt_eq hw.symm

/-- No word is less than the least one (40 R149). -/
theorem q12Less_least {w : Word} (hw : w.toInt = -2147483648) (a : Word) : q12Less a w = false := by
  have ha := word_toInt_bounds a
  exact decide_eq_false (by omega)

/-- The least word is less than every other one (40 R149). -/
theorem least_q12Less {w : Word} (hw : w.toInt = -2147483648) (a : Word) :
    q12Less w a = decide (a.toInt ≠ -2147483648) := by
  have ha := word_toInt_bounds a
  rw [q12Less, decide_eq_decide]
  omega

end Sys2Proof.Machine
end

section
/-! CERTIFICATE. The statements of the commands' family (41 R183 to R207) settled. -/

namespace Sys2Proof.Machine

/-- Settles O50: each agent's turn has a next state, and only the arithmetic unit's own turn can refuse. -/
theorem everyTurnHasANextState : Obligations.EveryTurnHasANextState := by
  intro s h hs
  have h0 : Inv s.beginStep := h.io _
  cases ht : s.turn with
  | producer =>
    rw [step_of_turn hs ht]
    exact .inl (producerTurn_hasNext _)
  | consumer =>
    rw [step_of_turn hs ht]
    exact .inl (h0.consumerTurn_hasNext hs)
  | display =>
    rw [step_of_turn hs ht]
    exact .inl (h0.displayTurn_hasNext hs)
  | unit =>
    rw [step_of_turn hs ht]
    exact (h0.unitTurn_hasNext hs).imp_right fun hu => ⟨rfl, hu⟩

/-- Settles O18: a zero `w` sets all six, and otherwise each flag is read off its bit. -/
theorem clipFlagsCompareSigned : Obligations.ClipFlagsCompareSigned := by
  intro zclip x y z w
  refine ⟨clipFlags_bits zclip x y z, ?_⟩
  rintro rfl
  exact clipFlags_of_zero zclip x y z

/-- Settles O19: for a negative `w` the bounds `-w` and `w` of L and R leave no `x` between them, and the least `w` is its own
negation. -/
theorem degenerateWIsClipped : Obligations.DegenerateWIsClipped := by
  intro zclip x y z w
  refine ⟨?_, fun hneg hleast => ?_, fun hleast => ?_⟩
  · rintro rfl
    exact clipFlags_of_zero zclip x y z
  · have hw : w ≠ 0 := by rintro rfl; simp at hneg
    obtain ⟨hL, hR, -⟩ := clipFlags_bits zclip x y z hw
    rw [hL, hR, q12Less, q12Less, decide_eq_true_iff, decide_eq_true_iff, q12Neg_toInt_of_ne_least hleast]
    omega
  · have hw : w ≠ 0 := by rintro rfl; simp at hleast
    obtain ⟨hL, hR, hT, hB, hN, hF⟩ := clipFlags_bits zclip x y z hw
    rw [q12Neg_of_least hleast, q12Less_least hleast] at hL hT hN
    rw [least_q12Less hleast] at hR hB
    refine ⟨hL, hR, hT, hB, ?_⟩
    rintro rfl hx hy
    rw [decide_eq_false (not_not_intro hx)] at hR
    rw [decide_eq_false (not_not_intro hy)] at hB
    exact clipFlags_eq_zero hL hR hT hB hN hF

/-- Settles O17: the meaning of SETVIEWPORT is this update, and its words decode to it. -/
theorem setViewportReplacesTheViewport : Obligations.SetViewportReplacesTheViewport :=
  fun _ _ _ _ _ hs => ⟨live_of_none hs _, decode_of_encode rfl rfl⟩

/-- Settles O20: by whether the vertex array of "next" is full. -/
theorem vertexAppendsOrOverflows : Obligations.VertexAppendsOrOverflows :=
  fun _ x y z w hs =>
    ⟨fun hn => execVertex_of_room hs hn x y z w, fun hn => execVertex_of_full hs hn x y z w, decode_of_encode rfl rfl⟩

/-- Settles O21: an index is out of range when its word is, so the check meets the same first slot. -/
theorem polygonReportsFirstBadIndex : Obligations.PolygonReportsFirstBadIndex := by
  intro s i0 i1 i2 i3 attr k i idx len hs hk hout hfirst
  have hfirst' : ∀ j n, j < k → (idx.map indexOf)[j]? = some n → n < len := by
    intro j n hj hn
    rw [List.getElem?_map, Option.map_eq_some_iff] at hn
    obtain ⟨w, hw, rfl⟩ := hn
    exact hfirst j w hj hw
  have hk' : (idx.map indexOf)[k]? = some i.toNat := by rw [List.getElem?_map, hk]; rfl
  have ho : firstOutOfRange len 0 (idx.map indexOf) = some (k, i.toNat) := by
    rw [firstOut_of_first hk' hout hfirst', Nat.zero_add]
  exact execPolygon_of_firstOut hs ho

/-- Settles O22: the check of the indices passes and finds a clip flag among the vertices named. -/
theorem polygonWithClippedVertexIsDropped : Obligations.PolygonWithClippedVertexIsDropped := by
  intro s i0 i1 i2 i3 attr idx hs hr hc
  have hr' : ∀ i ∈ idx.map indexOf, i < s.nextFrame.verts.length := List.forall_mem_map.mpr hr
  have hc' : (idx.map indexOf).any (clippedAt s.nextFrame.verts) = true := by
    obtain ⟨w, hw, he⟩ := hc
    exact List.any_eq_true.mpr ⟨w.toNat, List.mem_map_of_mem hw, clippedAt_iff.mpr he⟩
  exact execPolygon_of_clipped hs (firstOut_of_all hr' 0) hc'

/-- Settles O23: the divisors of unclipped vertices are not zero, so the transforms succeed, and the store is decided by room. -/
theorem polygonTransformsAndStores : Obligations.PolygonTransformsAndStores := by
  intro s i0 i1 i2 i3 attr idx tris f hs hv hr hc
  have hr' : ∀ i ∈ idx.map indexOf, i < f.verts.length := List.forall_mem_map.mpr hr
  have hc' : (idx.map indexOf).any (clippedAt f.verts) = false := by
    rw [List.any_eq_false]
    intro i hi hclip
    obtain ⟨w, hw, rfl⟩ := List.mem_map.mp hi
    obtain ⟨e, he, hflags⟩ := clippedAt_iff.mp hclip
    exact hflags (hc w hw e he)
  have ht := transformAll_none s.vp hv hr' hc'
  have hexec : exec (.polygon i0 i1 i2 i3 attr) s =
      storeTriangles (.polygon i0 i1 i2 i3 attr) attr tris (s.transformNext (idx.map indexOf)) :=
    execPolygon_of_transformed hs rfl (firstOut_of_all hr' 0) hc' ht
  have hpolys : (s.transformNext (idx.map indexOf)).nextFrame.polys = f.polys := by rw [State.nextFrame_transformNext]
  have hmem (j : Nat) : j ∈ idx.map indexOf ↔ ∃ w ∈ idx, w.toNat = j := List.mem_map
  refine ⟨(transformAll s.vp (idx.map indexOf) f.verts).1, (transformAll_frame s.vp _ f.verts).1, fun j e he => ?_,
    fun hn => ?_, fun hn => ?_⟩
  · obtain ⟨e', he', hin, hout⟩ := transformAll_work s.vp (idx.map indexOf) f.verts ht j e he
    rw [hmem] at hin hout
    exact ⟨e', he', hin, hout⟩
  · refine hexec.trans ((storeTriangles_of_room (by rwa [hpolys]) _ _).trans ?_)
    rw [State.transformNext_pushPolygons]
    rfl
  · refine hexec.trans ((storeTriangles_of_full (by rwa [hpolys]) _ _).trans ?_)
    rw [hpolys]
    rfl

/-- Settles O24: with the quad flag both triangles are stored, each with the command's word. -/
theorem quadSplitsIntoTwoTriangles : Obligations.QuadSplitsIntoTwoTriangles := by
  intro i0 i1 i2 i3 attr hq
  rw [polyTriangles, quadFlag, if_pos hq]
  rfl

end Sys2Proof.Machine
end

section
/-! SUPPORT. A vertex already transformed keeps its record: what each write of a slot, and so each instruction, does to the vertices
already transformed (42 R237). -/

namespace Sys2Proof.Machine

/-- Each vertex of an array that is already transformed has the same record at its index of the other array. -/
def KeepsTransformed (vs vs' : List Vertex) : Prop :=
  ∀ (j : Nat) (e : Vertex), vs[j]? = some e → e.transformed = true → vs'[j]? = some e

theorem KeepsTransformed.refl (vs : List Vertex) : KeepsTransformed vs vs := fun _ _ he _ => he

theorem KeepsTransformed.trans {vs vs' vs'' : List Vertex} (h : KeepsTransformed vs vs') (h' : KeepsTransformed vs' vs'') :
    KeepsTransformed vs vs'' :=
  fun j e he ht => h' j e (h j e he ht) ht

/-- Appending vertices keeps the records there are (41 R190). -/
theorem KeepsTransformed.append (vs ws : List Vertex) : KeepsTransformed vs (vs ++ ws) :=
  fun _ _ he _ => (List.getElem?_append_left (List.getElem?_eq_some_iff.mp he).1).trans he

/-- The transforms of a list of vertices, whatever stops them, keep those already transformed (41 R205, 42 R237). -/
theorem transformAll_keepsTransformed (vp : Viewport) (is : List Nat) (vs : List Vertex) :
    KeepsTransformed vs (transformAll vp is vs).1 := by
  intro j e he ht
  obtain ⟨e', he', hg⟩ := (transformAll_frame vp is vs).2 j e he
  rcases hg with rfl | ⟨hf, -⟩
  · exact he'
  · exact absurd ht (by simp [hf])

/-- Each vertex of either slot that is already transformed has the same record in the other memory. -/
def Memory.KeepsTransformed (m m' : Memory) : Prop :=
  ∀ k, Machine.KeepsTransformed (m.slot k).verts (m'.slot k).verts

theorem Memory.KeepsTransformed.refl (m : Memory) : m.KeepsTransformed m := fun _ => .refl _

theorem Memory.KeepsTransformed.trans {m m' m'' : Memory} (h : m.KeepsTransformed m') (h' : m'.KeepsTransformed m'') :
    m.KeepsTransformed m'' :=
  fun k => (h k).trans (h' k)

/-- A slot written anew whose array keeps the vertices already transformed (10 R40). -/
theorem Memory.KeepsTransformed.setSlot {m : Memory} {k : SlotId} {f : Slot}
    (h : Machine.KeepsTransformed (m.slot k).verts f.verts) : m.KeepsTransformed (m.setSlot k f) := by
  intro j
  by_cases hj : j = k
  · subst hj
    rwa [Memory.slot_setSlot_same]
  · rw [Memory.slot_setSlot_other _ hj]
    exact .refl _

theorem execVertex_keepsTransformed {x y z w : Word} {s t : State} (h : execVertex x y z w s = .next t) :
    s.mem.KeepsTransformed t.mem := by
  rcases execVertex_cases h with ⟨f, rfl⟩ | ⟨-, rfl⟩
  · exact .refl _
  · exact .setSlot (.append _ _)

/-- A store of triangles writes no vertex (41 R206). -/
theorem storeTriangles_keepsTransformed {cmd : Instr} {attr : Word} {tris : List (Triple Word)} {s t : State}
    (h : storeTriangles cmd attr tris s = .next t) : s.mem.KeepsTransformed t.mem := by
  rcases storeTriangles_cases h with ⟨f, rfl⟩ | ⟨-, rfl⟩
  · exact .refl _
  · exact .setSlot (.refl _)

theorem execPolygon_keepsTransformed {i0 i1 i2 i3 attr : Word} {s t : State}
    (h : execPolygon i0 i1 i2 i3 attr s = .next t) : s.mem.KeepsTransformed t.mem := by
  rcases execPolygon_cases h with ⟨f, rfl⟩ | rfl | ⟨idx, -, -, -, ht⟩
  · exact .refl _
  · exact .refl _
  · have h1 : s.mem.KeepsTransformed (s.transformNext idx).mem := .setSlot (transformAll_keepsTransformed _ _ _)
    rcases ht with ⟨f, rfl⟩ | ht
    · exact h1
    · exact h1.trans (storeTriangles_keepsTransformed ht)

theorem execSwapBuffers_keepsTransformed {s t : State} (h : execSwapBuffers s = .next t) :
    s.mem.KeepsTransformed t.mem := by
  have h1 : s.mem.KeepsTransformed s.setUpNext.mem := .setSlot (.refl _)
  rcases execSwapBuffers_cases h with ⟨f, rfl⟩ | rfl <;> exact h1

/-- Every command, of SWAPBUFFERS its first phase, keeps the vertices already transformed (42 R237). -/
theorem execCommand_keepsTransformed {i : Instr} {s t : State} (hp : i.port = .cmd) (h : exec i s = .next t) :
    s.mem.KeepsTransformed t.mem := by
  cases i with
  | setViewport =>
    obtain ⟨-, h⟩ := live_next.mp h
    cases h
    exact .refl _
  | vertex => exact execVertex_keepsTransformed h
  | polygon => exact execPolygon_keepsTransformed h
  | swapBuffers => exact execSwapBuffers_keepsTransformed h
  | _ => cases hp

/-- Every display request writes polygons at most, no vertex (45 R321). -/
theorem execDisplay_keepsTransformed {i : Instr} {s t : State} (hp : i.port = .dport) (h : exec i s = .next t) :
    s.mem.KeepsTransformed t.mem := by
  cases i with
  | beginFrame =>
    rcases execBeginFrame_cases h with rfl | rfl | ⟨-, -, ps, b, -, -, rfl⟩
    · exact .refl _
    · exact .refl _
    · exact .setSlot (.refl _)
  | nextLine =>
    rcases execNextLine_cases h with rfl | rfl | ⟨-, -, js, ps, es, -, -, rfl⟩
    · exact .refl _
    · exact .refl _
    · exact .setSlot (.refl _)
  | endFrame =>
    rcases execEndFrame_cases h with rfl | ⟨-, rfl⟩ <;> exact .refl _
  | _ => cases hp

/-- Every instruction, of SWAPBUFFERS its first phase, keeps the vertices already transformed (42 R237). -/
theorem exec_keepsTransformed {i : Instr} {s t : State} (h : exec i s = .next t) : s.mem.KeepsTransformed t.mem := by
  cases hp : i.port with
  | cmd => exact execCommand_keepsTransformed hp h
  | dport => exact execDisplay_keepsTransformed hp h
  | q12alu => rcases execUnit_cases hp h with ⟨r, rfl⟩ | ⟨f, rfl⟩ <;> exact .refl _

end Sys2Proof.Machine
end

section
/-! SUPPORT. The Q12 operations on words that hold natural numbers, and the coordinate they project the centre of clip space to
where the quotient is exact (42 R235). -/

namespace Sys2Proof.Machine

/-- A natural number wraps to its word. -/
theorem wrap32_natCast (n : Nat) : wrap32 n = BitVec.ofNat 32 n := BitVec.ofInt_natCast _ _

/-- The word of a natural number below `2^31` reads back as that number. -/
theorem ofNat_toInt {n : Nat} (h : n < 2147483648) : (BitVec.ofNat 32 n).toInt = n := by
  rw [← wrap32_natCast]
  exact wrap32_toInt (by omega) (by omega)

/-- The word of a positive number below `2^31` is not zero. -/
theorem ofNat_ne_zero {n : Nat} (h0 : 0 < n) (h : n < 2147483648) : BitVec.ofNat 32 n ≠ 0#32 := by
  intro he
  have hi := ofNat_toInt h
  rw [he, BitVec.toInt_zero] at hi
  omega

/-- The corners 0 and `n - 1` are both inside an extent of `n` (42 R231). -/
theorem inclusive_extent {n : Nat} (h0 : 0 < n) (h : n < 524288) :
    wrap32 ((BitVec.ofNat 32 (n - 1)).toInt - (0#32).toInt + 1) = BitVec.ofNat 32 n := by
  rw [BitVec.toInt_zero, ofNat_toInt (by omega), ← wrap32_natCast n]
  congr 1
  omega

/-- Half of an extent of `n`, as a Q12 value, is `n * 2^11` (42 R232). -/
theorem half_extent {n : Nat} (h : n < 524288) :
    q12QuotI (q12FromI (BitVec.ofNat 32 n)) 2#32 = BitVec.ofNat 32 (n * 2048) := by
  have hn : (BitVec.ofNat 32 n).toInt = n := ofNat_toInt (by omega)
  have h2 : (2#32).toInt = 2 := by decide
  rw [q12QuotI, q12FromI_toInt (by omega) (by omega), hn, h2, Int.tdiv_eq_ediv_of_nonneg (by omega),
    ← wrap32_natCast]
  congr 1
  omega

/-- QDIV of natural numbers whose quotient is exact answers that quotient (40 R143). -/
theorem q12Quot_of_exact {a k d : Nat} (hk0 : 0 < k) (ha : a < 2147483648) (hk : k < 2147483648) (h : a * 4096 = k * d) :
    q12Quot (BitVec.ofNat 32 a) (BitVec.ofNat 32 k) = BitVec.ofNat 32 d := by
  have hi : (a : Int) * 4096 = k * d := by exact_mod_cast h
  rw [q12Quot, ofNat_toInt ha, ofNat_toInt hk, q12One, hi, Int.mul_tdiv_cancel_left _ (by omega), wrap32_natCast]

/-- QADDI of zero changes nothing (40 R147). -/
theorem q12AddI_zero (a : Word) : q12AddI a 0#32 = a := by
  rw [q12AddI_eq_wrap32, BitVec.toInt_zero, Int.zero_mul, Int.add_zero, wrap32_of_toInt]

/-- The centre of clip space, with `k` times the scale `d` equal to `n * 2^23`, projects to half the extent (42 R230, R235). -/
theorem project_centre {n k d : Nat} (hn : n < 524288) (hk : k < 2147483648) (hd : d < 2147483648)
    (h : n * 8388608 = k * d) :
    project 0#32 (BitVec.ofNat 32 k) (BitVec.ofNat 32 d) 0#32 = BitVec.ofNat 32 (n / 2) := by
  have hi : (k : Int) * d = n * 8388608 := by exact_mod_cast h.symm
  have hmul : q12Mul (BitVec.ofNat 32 k) (BitVec.ofNat 32 d) = BitVec.ofNat 32 (n * 2048) := by
    rw [q12Mul, ofNat_toInt hk, ofNat_toInt hd, hi, shiftDown12, q12One, ← wrap32_natCast]
    congr 1
    omega
  rw [project, q12Add_eq_add, BitVec.zero_add, hmul, q12AddI_zero, q12ToI, ofNat_toInt (by omega), shiftDown12, q12One,
    ← wrap32_natCast]
  congr 1
  omega

/-- One screen coordinate of the centre of clip space is half the viewport's extent of `n`, where `k` divides `n * 2^23` with a
quotient that fits (42 R232, R235). -/
theorem centre_coordinate {n k : Nat} {extent : Word} (he : extent = BitVec.ofNat 32 n) (hn : n < 524288)
    (hk0 : 0 < k) (hk : k < 2147483648) (hdvd : k ∣ n * 8388608) (hfit : n * 8388608 / k < 2147483648) :
    project 0#32 (BitVec.ofNat 32 k) (q12Quot (q12QuotI (q12FromI extent) 2#32) (BitVec.ofNat 32 k)) 0#32 =
      BitVec.ofNat 32 (n / 2) := by
  obtain ⟨d, hd⟩ := hdvd
  rw [hd, Nat.mul_div_cancel_left _ hk0] at hfit
  have hq : n * 2048 * 4096 = k * d := by rw [← hd, Nat.mul_assoc]
  rw [he, half_extent hn, q12Quot_of_exact hk0 (by omega) hk hq]
  exact project_centre hn hk hfit hd

/-- A new vertex is not transformed (41 R190). -/
theorem newVertex_transformed (zclip : Bool) (x y z w : Word) : (newVertex zclip x y z w).transformed = false := by
  simp [newVertex, Vertex.transformed]

end Sys2Proof.Machine
end

section
/-! CERTIFICATE. The statements of the vertex transform's family (42 R230 to R237) settled. -/

namespace Sys2Proof.Machine

/-- Settles O26: every instruction keeps the vertices already transformed, in both slots. -/
theorem transformedVertexKeepsItsPosition : Obligations.TransformedVertexKeepsItsPosition :=
  fun _ _ _ k j e h he ht => exec_keepsTransformed h k j e he ht

/-- Settles O27: both coordinates of the centre are half their extents. -/
theorem centreVertexLandsOnCentrePixel : Obligations.CentreVertexLandsOnCentrePixel := by
  intro zclip n m k cz hn0 hn hm0 hm hk0 hk hdn hfn hdm hfm
  exact ⟨_, _, transformVertex_new _ (newVertex_transformed _ _ _ _ _) (ofNat_ne_zero hk0 hk), rfl,
    centre_coordinate (inclusive_extent hn0 hn) hn hk0 hk hdn hfn,
    centre_coordinate (inclusive_extent hm0 hm) hm hk0 hk hdm hfm⟩

/-- Settles O25: by whether the vertex is already transformed; the coordinates of `screenOf` are these formulas. -/
theorem transformFollowsTheFormulas : Obligations.TransformFollowsTheFormulas :=
  fun vp _ => ⟨transformVertex_done vp, transformVertex_new vp⟩

end Sys2Proof.Machine
end

section
/-! SUPPORT. What polygon setup writes: the slopes as exact integers, the pair swap and the initial bounds (43 R252 to R258). -/

namespace Sys2Proof.Machine

/-- A condition of all three values, slot by slot. -/
theorem Triple.forall_toList {α : Type} {P : α → Prop} {t : Triple α} : (∀ a ∈ t.toList, P a) ↔ P t.v0 ∧ P t.v1 ∧ P t.v2 := by
  simp [Triple.toList]

/-- The difference of two screen coordinates in range is the zero word exactly when they are equal (43 R252). -/
theorem screenDelta_eq_zero_iff {a b : Word} (ha : inScreenRange a) (hb : inScreenRange b) :
    screenDelta a b = 0 ↔ a.toInt - b.toInt = 0 := by
  rw [← screenDelta_toInt ha hb, ← BitVec.toInt_inj]
  rfl

/-- The slope of an edge from the exact integer differences of its end points: `d` columns over `h` lines (43 R253, R254). -/
def exactSlope (d h : Int) : Word := if 0 < h then wrap32 (Int.tdiv (wrap32 (d * 4096)).toInt h) else wrap32 (d * 4096)

/-- With a height that is exact, the slope of two columns in screen range is that of their exact difference (43 R253, R254). -/
theorem edgeSlope_screenDelta {a b h : Word} {n : Int} (ha : inScreenRange a) (hb : inScreenRange b) (hh : h.toInt = n) :
    edgeSlope (screenDelta a b) h = exactSlope (a.toInt - b.toInt) n := by
  rw [edgeSlope, q12QuotI, q12FromI, screenDelta_toInt ha hb, hh]
  rfl

/-- The four slopes of three corners in screen range, sorted or not, from their exact differences (43 R253, R254). -/
theorem edgeSlopes_exact {t : Triple Corner} (hr : ∀ d ∈ t.toList, inScreenRange d.x ∧ inScreenRange d.y) :
    edgeSlopes t (screenDelta t.v1.y t.v0.y) (screenDelta t.v2.y t.v1.y) =
      { l0 := exactSlope (t.v1.x.toInt - t.v0.x.toInt) (t.v1.y.toInt - t.v0.y.toInt)
        l1 := exactSlope (t.v2.x.toInt - t.v1.x.toInt) (t.v2.y.toInt - t.v1.y.toInt)
        r0 := exactSlope (t.v2.x.toInt - t.v0.x.toInt) (t.v1.y.toInt - t.v0.y.toInt + (t.v2.y.toInt - t.v1.y.toInt))
        r1 := exactSlope (t.v2.x.toInt - t.v0.x.toInt) (t.v1.y.toInt - t.v0.y.toInt + (t.v2.y.toInt - t.v1.y.toInt)) } := by
  obtain ⟨⟨hx0, hy0⟩, ⟨hx1, hy1⟩, ⟨hx2, hy2⟩⟩ := Triple.forall_toList.mp hr
  have h1 := screenDelta_toInt hy1 hy0
  have h2 := screenDelta_toInt hy2 hy1
  have h12 : (wrap32 ((screenDelta t.v1.y t.v0.y).toInt + (screenDelta t.v2.y t.v1.y).toInt)).toInt =
      t.v1.y.toInt - t.v0.y.toInt + (t.v2.y.toInt - t.v1.y.toInt) := by
    unfold inScreenRange at hy0 hy2
    rw [h1, h2]
    exact wrap32_toInt (by omega) (by omega)
  rw [edgeSlopes, edgeSlope_screenDelta hx1 hx0 h1, edgeSlope_screenDelta hx2 hx1 h2, edgeSlope_screenDelta hx2 hx0 h12]

/-- A first left slope above the first right one makes the pairs change places (43 R255). -/
theorem pairSwap_of_lt {k : Slopes} (h : k.r0.toInt < k.l0.toInt) :
    pairSwap k = { l0 := k.r0, l1 := k.r1, r0 := k.l0, r1 := k.l1 } :=
  if_pos (decide_eq_true h)

/-- Any other first left slope leaves the pairs where they are (43 R255). -/
theorem pairSwap_of_not_lt {k : Slopes} (h : ¬ k.r0.toInt < k.l0.toInt) : pairSwap k = k :=
  if_neg (by simpa [q12Less] using h)

/-- After the pair swap the first left slope is at most the first right one (43 R255). -/
theorem pairSwap_ordered (k : Slopes) : (pairSwap k).l0.toInt ≤ (pairSwap k).r0.toInt := by
  by_cases h : k.r0.toInt < k.l0.toInt
  · rw [pairSwap_of_lt h]
    exact Int.le_of_lt h
  · rw [pairSwap_of_not_lt h]
    exact Int.not_lt.mp h

/-- What holds of both first slopes holds of both after the pair swap (43 R255). -/
theorem pairSwap_first {P : Word → Prop} {k : Slopes} (hl : P k.l0) (hr : P k.r0) : P (pairSwap k).l0 ∧ P (pairSwap k).r0 := by
  by_cases h : k.r0.toInt < k.l0.toInt
  · rw [pairSwap_of_lt h]
    exact ⟨hr, hl⟩
  · rw [pairSwap_of_not_lt h]
    exact ⟨hl, hr⟩

/-- A first left slope above the first right one: the setup fields hold the slopes with the pairs exchanged (43 R255, R258). -/
theorem setupFields_slopes_of_lt {t : Triple Corner} {hy1 hy2 : Word} {e : Slopes} (he : edgeSlopes t hy1 hy2 = e)
    (h : e.r0.toInt < e.l0.toInt) :
    let k := setupFields t hy1 hy2
    k.dl0 = e.r0 ∧ k.dl1 = e.r1 ∧ k.dr0 = e.l0 ∧ k.dr1 = e.l1 := by
  simp only [setupFields, he, pairSwap_of_lt h, and_self]

/-- Any other first left slope: the setup fields hold the slopes as they are (43 R255, R258). -/
theorem setupFields_slopes_of_not_lt {t : Triple Corner} {hy1 hy2 : Word} {e : Slopes} (he : edgeSlopes t hy1 hy2 = e)
    (h : ¬ e.r0.toInt < e.l0.toInt) :
    let k := setupFields t hy1 hy2
    k.dl0 = e.l0 ∧ k.dl1 = e.l1 ∧ k.dr0 = e.r0 ∧ k.dr1 = e.r1 := by
  simp only [setupFields, he, pairSwap_of_not_lt h, and_self]

/-- The bounds start at the top vertex, and take the first slopes' step at once when the top height is zero (43 R256). -/
theorem setupFields_bounds_of_flat {t : Triple Corner} {hy1 : Word} (h : hy1 = 0) (hy2 : Word) :
    let k := setupFields t hy1 hy2
    k.cx0 = q12Add (q12FromI t.v0.x) k.dl0 ∧ k.cx1 = q12Add (q12FromI t.v0.x) k.dr0 :=
  ⟨if_pos h, if_pos h⟩

/-- With a top height that is not zero both bounds start at the top vertex (43 R256). -/
theorem setupFields_bounds_of_tall {t : Triple Corner} {hy1 : Word} (h : hy1 ≠ 0) (hy2 : Word) :
    let k := setupFields t hy1 hy2
    k.cx0 = q12FromI t.v0.x ∧ k.cx1 = q12FromI t.v0.x :=
  ⟨if_neg h, if_neg h⟩

/-- A SETUP that does not stop has written the setup fields of the sorted corners, whatever the network (43 R250). -/
theorem setupPolygon_setup {net : List (Pos × Pos)} {vs : List Vertex} {p q : Polygon} {c : Triple Corner}
    (hc : cornersOf vs p.vi = .ok c) (h : setupPolygon net vs p = (q, none)) :
    let t := sortTriple lowerOnScreen net c
    q.setup = some (setupFields t (screenDelta t.v1.y t.v0.y) (screenDelta t.v2.y t.v1.y)) := by
  simp only [setupPolygon, hc] at h
  split at h <;> cases h
  rfl

/-- The sorted corners' references are those the polygon held, in another order (43 R259). -/
theorem sortTriple_idx_perm {vs : List Vertex} {vi : Triple Word} {c : Triple Corner} (hc : cornersOf vs vi = .ok c)
    (net : List (Pos × Pos)) :
    ((sortTriple lowerOnScreen net c).toList.map Corner.idx).Perm vi.toList := by
  obtain ⟨h0, h1, h2⟩ := cornersOf_ok_iff.mp hc
  have hidx : c.toList.map Corner.idx = vi.toList := by
    simp only [Triple.toList, List.map_cons, List.map_nil, cornerAt_idx h0, cornerAt_idx h1, cornerAt_idx h2]
  rw [← hidx]
  exact (sortTriple_perm lowerOnScreen net c).map _

end Sys2Proof.Machine
end

section
/-! SUPPORT. No value of SETUP overflows for screen-x values within 65536 either way (43 R255). -/

namespace Sys2Proof.Machine

/-- A Q12 value of at most 131072 either way, the widest spread of columns that are themselves within 65536 either way. -/
def WithinSpread (a : Word) : Prop := -536870912 ≤ a.toInt ∧ a.toInt ≤ 536870912

/-- QFROMI of an integer within that spread is exact (40 R145). -/
theorem q12FromI_within {d : Word} (h1 : -131072 ≤ d.toInt) (h2 : d.toInt ≤ 131072) : WithinSpread (q12FromI d) := by
  unfold WithinSpread
  rw [q12FromI_toInt (by omega) (by omega)]
  omega

/-- An integer quotient is no further from zero than its dividend (40 R148). -/
theorem q12QuotI_within {a : Word} (ha : WithinSpread a) (h : Word) : WithinSpread (q12QuotI a h) := by
  unfold WithinSpread at ha ⊢
  have hle := Int.natAbs_tdiv_le_natAbs a.toInt h.toInt
  rw [q12QuotI, wrap32_toInt (by omega) (by omega)]
  omega

/-- The slope between columns within 65536 either way does not overflow, whatever the height (43 R253, R254). -/
theorem edgeSlope_within {a b : Word} (ha : -65536 ≤ a.toInt ∧ a.toInt ≤ 65536) (hb : -65536 ≤ b.toInt ∧ b.toInt ≤ 65536)
    (h : Word) : WithinSpread (edgeSlope (screenDelta a b) h) := by
  have hd : (screenDelta a b).toInt = a.toInt - b.toInt := wrap32_toInt (by omega) (by omega)
  have hq : WithinSpread (q12FromI (screenDelta a b)) := q12FromI_within (by omega) (by omega)
  unfold edgeSlope
  split
  · exact q12QuotI_within hq h
  · exact hq

/-- A step from the start of the bounds does not overflow, so it keeps the order of the slopes (43 R255, R256). -/
theorem q12Add_le_of_within {c a b : Word} (hc : WithinSpread c) (ha : WithinSpread a) (hb : WithinSpread b)
    (hab : a.toInt ≤ b.toInt) : (q12Add c a).toInt ≤ (q12Add c b).toInt := by
  unfold WithinSpread at hc ha hb
  rw [q12Add, q12Add, wrap32_toInt (by omega) (by omega), wrap32_toInt (by omega) (by omega)]
  omega

/-- The bounds of three corners whose columns are within 65536 either way start in order: equal, or one step of ordered slopes
from the same start (43 R255, R256). -/
theorem setupFields_ordered {t : Triple Corner} (hx : ∀ d ∈ t.toList, -65536 ≤ d.x.toInt ∧ d.x.toInt ≤ 65536) (hy1 hy2 : Word) :
    (setupFields t hy1 hy2).cx0.toInt ≤ (setupFields t hy1 hy2).cx1.toInt := by
  obtain ⟨h0, h1, h2⟩ := Triple.forall_toList.mp hx
  by_cases hflat : hy1 = 0
  · obtain ⟨e0, e1⟩ := setupFields_bounds_of_flat (t := t) hflat hy2
    rw [e0, e1]
    have hc : WithinSpread (q12FromI t.v0.x) := q12FromI_within (by omega) (by omega)
    obtain ⟨hl, hr⟩ := pairSwap_first (k := edgeSlopes t hy1 hy2) (edgeSlope_within h1 h0 hy1) (edgeSlope_within h2 h0 _)
    exact q12Add_le_of_within hc hl hr (pairSwap_ordered _)
  · obtain ⟨e0, e1⟩ := setupFields_bounds_of_tall (t := t) hflat hy2
    rw [e0, e1]

end Sys2Proof.Machine
end

section
/-! SUPPORT. SWAPBUFFERS's first phase from a state of the invariant: no setup stops, so every polygon of "next" is set up on its
own (43 R252, R259, 44 R280). -/

namespace Sys2Proof.Machine

/-- In a state of the invariant no setup of a polygon of "next" stops (43 R252, R258). -/
theorem Inv.setupAll_next {s : State} (h : Inv s) :
    setupAll s.params.sortNet s.nextFrame.verts s.nextFrame.polys =
      (s.nextFrame.polys.map fun p => (setupPolygon s.params.sortNet s.nextFrame.verts p).1, none) := by
  obtain ⟨-, hnet⟩ := Bool.and_eq_true_iff.mp h.params
  exact setupAll_of_none fun p hp => ((h.next.polys p hp).setup hnet h.next.verts).1

/-- SWAPBUFFERS's first phase sets up the polygons of "next" and goes to wait for the lock (44 R280). -/
theorem Inv.execSwapBuffers_of_live {s : State} (h : Inv s) (hs : s.fault = none) :
    Machine.execSwapBuffers s = .next { s.setUpNext with cphase := .swapWait } := by
  rw [Machine.execSwapBuffers, live_of_none hs, h.setupAll_next, State.setUpNext, h.setupAll_next]
  rfl

/-- After it "next" holds the same vertices and each polygon set up (44 R280). -/
theorem Inv.nextFrame_of_swapBuffers {s t : State} (h : Inv s) (hx : Machine.exec .swapBuffers s = .next t) :
    t.nextFrame = { verts := s.nextFrame.verts
                    polys := s.nextFrame.polys.map fun p => (setupPolygon s.params.sortNet s.nextFrame.verts p).1 } := by
  have ht := (h.execSwapBuffers_of_live (exec_live hx)).symm.trans hx
  cases ht
  change s.setUpNext.nextFrame = _
  rw [State.setUpNext, State.nextFrame_setNextFrame, h.setupAll_next]

end Sys2Proof.Machine
end

section
/-! SUPPORT. Neither a command of a run nor a display request raises SORT_ORDER or DIV_ZERO (43 R252, 42 R236, 60 R340). -/

namespace Sys2Proof.Machine

/-- The fault register holds neither SORT_ORDER nor DIV_ZERO. -/
def State.AvoidsUnreachable (t : State) : Prop := ∀ r, t.fault = some r → r.code ≠ .sortOrder ∧ r.code ≠ .divZero

theorem State.AvoidsUnreachable.of_clear {t : State} (h : t.fault = none) : t.AvoidsUnreachable := by
  intro r hr
  rw [h] at hr
  cases hr

/-- Raising a fault of any other code. -/
theorem State.AvoidsUnreachable.raise {f : Fatal} (h : f.code ≠ .sortOrder ∧ f.code ≠ .divZero) (s : State) (cmd : Instr) :
    (s.raise cmd f).AvoidsUnreachable := by
  intro r hr
  cases hr
  exact h

theorem execVertex_avoidsUnreachable {x y z w : Word} {s t : State} (h : execVertex x y z w s = .next t) :
    t.AvoidsUnreachable := by
  have hs : s.fault = none := (live_next.mp h).1
  by_cases hn : s.nextFrame.verts.length = Config.vcap
  · rw [execVertex_of_full hs hn] at h
    cases h
    exact .raise (by decide) _ _
  · rw [execVertex_of_room hs hn] at h
    cases h
    exact .of_clear hs

theorem storeTriangles_avoidsUnreachable {cmd : Instr} {attr : Word} {tris : List (Triple Word)} {s t : State}
    (hs : s.fault = none) (h : storeTriangles cmd attr tris s = .next t) : t.AvoidsUnreachable := by
  by_cases hn : Config.pcap < s.nextFrame.polys.length + tris.length
  · rw [storeTriangles_of_full hn] at h
    cases h
    exact .raise (by simp) _ _
  · rw [storeTriangles_of_room (Nat.le_of_not_lt hn)] at h
    cases h
    exact .of_clear hs

/-- A POLYGON transforms only vertices that carry no clip flag, so no transform divides by zero (41 R204, 42 R236). -/
theorem Inv.execPolygon_avoidsUnreachable {s t : State} (h : Inv s) {i0 i1 i2 i3 attr : Word}
    (hx : Machine.execPolygon i0 i1 i2 i3 attr s = .next t) : t.AvoidsUnreachable := by
  have hs : s.fault = none := (live_next.mp hx).1
  cases hr : firstOutOfRange s.nextFrame.verts.length 0 ((polyIndices i0 i1 i2 i3 attr).map indexOf) with
  | some bad =>
    rw [execPolygon_of_firstOut hs hr] at hx
    cases hx
    exact .raise (by simp) _ _
  | none =>
    cases hc : ((polyIndices i0 i1 i2 i3 attr).map indexOf).any (clippedAt s.nextFrame.verts) with
    | true =>
      rw [execPolygon_of_clipped hs hr hc] at hx
      cases hx
      exact .of_clear hs
    | false =>
      have ht := transformAll_none s.vp h.next.verts (firstOut_none hr) hc
      rw [execPolygon_of_transformed hs rfl hr hc ht] at hx
      exact storeTriangles_avoidsUnreachable (s := s.transformNext _) hs hx

/-- SWAPBUFFERS's first phase raises nothing: no setup stops (43 R252). -/
theorem Inv.execSwapBuffers_avoidsUnreachable {s t : State} (h : Inv s) (hx : Machine.execSwapBuffers s = .next t) :
    t.AvoidsUnreachable := by
  have hs : s.fault = none := (live_next.mp hx).1
  rw [h.execSwapBuffers_of_live hs] at hx
  cases hx
  exact .of_clear hs

/-- No command executed in a state of the invariant raises SORT_ORDER or DIV_ZERO. -/
theorem Inv.execCommand_avoidsUnreachable {i : Instr} {s t : State} (h : Inv s) (hp : i.port = .cmd)
    (hx : Machine.exec i s = .next t) : t.AvoidsUnreachable := by
  cases i with
  | setViewport =>
    obtain ⟨hs, hx⟩ := live_next.mp hx
    cases hx
    exact .of_clear hs
  | vertex => exact execVertex_avoidsUnreachable hx
  | polygon => exact h.execPolygon_avoidsUnreachable hx
  | swapBuffers => exact h.execSwapBuffers_avoidsUnreachable hx
  | _ => cases hp

/-- The only fault a request put to the arithmetic unit alone raises is DIV_ZERO (40 R143, R148, R151). -/
theorem execUnit_faultCode {i : Instr} {s t : State} (hp : i.port = .q12alu) (h : exec i s = .next t) {r : FaultRecord}
    (hr : t.fault = some r) : r.code = .divZero := by
  have hs := exec_live h
  rcases pureRequest_of_port hp with ⟨q, hq⟩ | ⟨n, hn⟩
  · rw [hq s hs] at h
    cases h
    rw [State.answer_fault, hs] at hr
    cases hr
  · rw [hn s hs] at h
    cases h
    cases hr
    rfl

/-- A step of an agent, from a state of the invariant, raises neither; the arithmetic unit's own turn raises DIV_ZERO only. -/
theorem Inv.step_faultCode {s t : State} (h : Inv s) (hx : Machine.step s = .next t) :
    t.AvoidsUnreachable ∨ (s.turn = .unit ∧ ∀ r, t.fault = some r → r.code = .divZero) := by
  have h0 : Inv s.beginStep := h.io _
  obtain ⟨hs, hcases⟩ := step_cases hx
  rcases hcases with rfl | ⟨-, c, rest, -, -, rfl⟩ | ⟨-, e, -, rfl⟩ | ⟨-, -, -, rfl⟩ | ⟨-, -, c, rest, hc, hw, hx⟩ |
    ⟨-, r, rest, hd, hx⟩ | ⟨-, e, -, rfl⟩ | ⟨ht, r, rest, hd, hx⟩
  · exact .inl (.of_clear hs)
  · exact .inl (.of_clear hs)
  · exact .inl (.of_clear hs)
  · exact .inl (.of_clear hs)
  · exact .inl ((h0.pop hc).execCommand_avoidsUnreachable (beq_iff_eq.mp hw) hx)
  · exact .inl (.of_clear ((execDisplay_kept (decodeRequest_port hd) hx).2.trans hs))
  · exact .inl (.of_clear hs)
  · exact .inr ⟨ht, fun _ hr => execUnit_faultCode (decodeUnit_port hd) hx hr⟩

end Sys2Proof.Machine
end

section
/-! CERTIFICATE. The statements of polygon setup's family (43 R250 to R259) settled. -/

namespace Sys2Proof.Machine

/-- Settles O51: an agent's step raises neither fault, and the arithmetic unit's own turn raises DIV_ZERO only. -/
theorem unreachableFaultsStayUnreached : Obligations.UnreachableFaultsStayUnreached := by
  intro s t h hx r hr
  rcases h.step_faultCode hx with ha | ⟨ht, hcode⟩
  · obtain ⟨hsort, hdiv⟩ := ha r hr
    exact ⟨hsort, fun hd => absurd hd hdiv⟩
  · exact ⟨by simp [hcode r hr], fun _ => ht⟩

/-- Settles O28: every polygon of "next" is set up on its own, and the admitted network sorts its corners. -/
theorem setupSortsEveryTriangle : Obligations.SetupSortsEveryTriangle := by
  intro s t h hx j p hp
  obtain ⟨-, hnet⟩ := Bool.and_eq_true_iff.mp h.params
  obtain ⟨c, hc, -⟩ := h.next.polys p (List.mem_of_getElem? hp)
  obtain ⟨hset, hct, h01, h12⟩ := setupPolygon_ok hnet hc (corner_range h.next.verts hc)
  have hq : t.nextFrame.polys[j]? = some (setupPolygon s.params.sortNet s.nextFrame.verts p).1 := by
    rw [h.nextFrame_of_swapBuffers hx, List.getElem?_map, hp, Option.map_some]
  have hv : t.nextFrame.verts = s.nextFrame.verts := by rw [h.nextFrame_of_swapBuffers hx]
  rw [hset] at hq
  rw [hv]
  exact ⟨_, _, _, hq, rfl, rfl, sortTriple_idx_perm hc _, hct, h01, h12, rfl⟩

/-- Settles O29: the sorted corners are in screen range, so every difference of their coordinates is exact. -/
theorem setupComputesSlopesAndBounds : Obligations.SetupComputesSlopesAndBounds := by
  intro net vs p c hnet hc hr
  obtain ⟨hset, -, h01, h12⟩ := setupPolygon_ok hnet hc fun d hd => (hr d hd).2
  have hrt := sortTriple_all lowerOnScreen net (t := c) hr
  have hswap := setupFields_slopes_of_lt (edgeSlopes_exact hrt)
  have hkeep := setupFields_slopes_of_not_lt (edgeSlopes_exact hrt)
  obtain ⟨⟨-, hy0⟩, ⟨-, hy1⟩, -⟩ := Triple.forall_toList.mp hrt
  have hflat := screenDelta_eq_zero_iff hy1 hy0
  exact ⟨_, _, sortTriple_perm lowerOnScreen net c, h01, h12, hset, hswap, hkeep,
    fun h => setupFields_bounds_of_flat (hflat.mpr h) _, fun h => setupFields_bounds_of_tall (mt hflat.mp h) _, rfl, rfl, rfl⟩

/-- Settles O30: SETUP writes the setup fields of the sorted corners, whose bounds start in order. -/
theorem spanBoundsStartInOrder : Obligations.SpanBoundsStartInOrder := by
  intro net vs p q c k hc hx h hk
  rw [setupPolygon_setup hc h] at hk
  cases hk
  exact setupFields_ordered (sortTriple_all lowerOnScreen net (t := c) hx) _ _

end Sys2Proof.Machine
end

section
/-! SUPPORT. The consumer's turn, case by case, and the swap: its critical section exchanges the slot roles, and no other step writes
them or the frame counter (41 R181, 44 R281 to R286). -/

namespace Sys2Proof.Machine

/-- An idle consumer executes the head command on the state without it (41 R181). -/
theorem consumerTurn_pop {s : State} (hi : s.cphase = .idle) {c : Instr} {rest : List Instr} (hc : s.chan = c :: rest)
    (hp : c.port = .cmd) : consumerTurn s = exec c { s with chan := rest } := by
  have hw : c.wellFormedAt .cmd = true := beq_iff_eq.mpr hp
  simp only [consumerTurn, hi, hc, hw, if_true]

/-- An idle consumer holds on an empty channel (41 R181). -/
theorem consumerTurn_empty {s : State} (hi : s.cphase = .idle) (hc : s.chan = []) : consumerTurn s = .next s := by
  simp only [consumerTurn, hi, hc]

/-- While a swap waits, the consumer's turn is the critical section once the lock is free, else a hold (44 R281, R282). -/
theorem consumerTurn_swapWait {s : State} (hw : s.cphase = .swapWait) :
    consumerTurn s = if s.lock = .free then .next (swapCommit s) else .next s := by
  simp only [consumerTurn, hw]

/-- A live block whose swap is due takes the critical section as its step (44 R282). -/
theorem step_of_swap {s : State} (hf : s.fault = none) (ht : s.turn = .consumer) (hw : s.cphase = .swapWait)
    (hl : s.lock = .free) : step s = .next (swapCommit s.beginStep) :=
  (step_of_turn hf ht).trans ((consumerTurn_swapWait (s := s.beginStep) hw).trans (if_pos hl))

/-- A step that answers a next state and is a swap is the critical section. -/
theorem swapCommit_of_step {s t : State} (h : step s = .next t) (hn : s.swapsNow = true) : t = swapCommit s.beginStep := by
  obtain ⟨ht, hw, hl⟩ := (State.swapsNow_iff s).mp hn
  simpa using h.symm.trans (step_of_swap (fault_of_step h) ht hw hl)

/-- No instruction writes the counter or the selectors (44 R285). -/
theorem Kept.roles {s t : State} (h : Kept s t) : t.fc = s.fc ∧ t.curSlot = s.curSlot ∧ t.nextSlot = s.nextSlot :=
  ⟨h.fc, h.curSlot, h.nextSlot⟩

/-- A step that is no swap writes neither the counter nor the selectors (44 R285). -/
theorem step_keepsRoles {s t : State} (h : step s = .next t) (hn : s.swapsNow = false) :
    t.fc = s.fc ∧ t.curSlot = s.curSlot ∧ t.nextSlot = s.nextSlot := by
  obtain ⟨-, hcases⟩ := step_cases h
  rcases hcases with rfl | ⟨-, c, rest, -, -, rfl⟩ | ⟨-, e, -, rfl⟩ | ⟨ht, hw, hl, -⟩ | ⟨-, -, c, rest, -, -, hx⟩ |
    ⟨-, r, rest, -, hx⟩ | ⟨-, e, -, rfl⟩ | ⟨-, r, rest, -, hx⟩
  · exact ⟨rfl, rfl, rfl⟩
  · exact ⟨rfl, rfl, rfl⟩
  · exact ⟨rfl, rfl, rfl⟩
  · exact absurd ((State.swapsNow_iff s).mpr ⟨ht, hw, hl⟩) (by simp [hn])
  · exact (exec_kept hx).roles
  · exact (exec_kept hx).roles
  · exact ⟨rfl, rfl, rfl⟩
  · exact (exec_kept hx).roles

/-- An increment flips the counter's low bit (44 R284). -/
theorem lowBit_succ (fc : Word) : (fc + 1).getLsbD 0 = !fc.getLsbD 0 := by
  rw [BitVec.getLsbD_add (by decide)]
  simp

/-- From matching selectors the new "next" is the slot that was "current" (44 R283). -/
theorem slotsMatch.nextSlot_swapCommit {s : State} (h : slotsMatch s) : (swapCommit s).nextSlot = s.curSlot := by
  obtain ⟨hnext, hcur⟩ := h
  rw [swapCommit_nextSlot, slotOfCounter_succ, ← hnext, hcur]

/-- The critical section makes matching selectors match again (44 R283). -/
theorem slotsMatch.swapCommit {s : State} (h : slotsMatch s) : slotsMatch (swapCommit s) := by
  refine ⟨rfl, ?_⟩
  rw [h.nextSlot_swapCommit, swapCommit_curSlot, h.2, SlotId.other_other]

/-- From matching selectors the critical section truncates the other slot, so "current" is the frame that was "next" (44 R286). -/
theorem slotsMatch.curFrame_swapCommit {s : State} (h : slotsMatch s) : (Machine.swapCommit s).curFrame = s.nextFrame := by
  have hne : s.nextSlot ≠ slotOfCounter (s.fc + 1) := by
    rw [slotOfCounter_succ, ← h.1]
    exact SlotId.ne_other _
  exact Memory.slot_setSlot_other _ hne _

/-- After the critical section "next" is empty (44 R282). -/
theorem nextFrame_swapCommit (s : State) : (swapCommit s).nextFrame = Slot.empty := Memory.slot_setSlot_same _ _ _

/-- Every step keeps matching selectors matching (44 R283, R285). -/
theorem slotsMatch.step {s t : State} (h : slotsMatch s) (hx : step s = .next t) : slotsMatch t := by
  cases hn : s.swapsNow with
  | true =>
    rw [swapCommit_of_step hx hn]
    exact slotsMatch.swapCommit (s := s.beginStep) h
  | false =>
    obtain ⟨hfc, hcur, hnext⟩ := step_keepsRoles hx hn
    rw [slotsMatch, hfc, hcur, hnext]
    exact h

/-- A step flips the counter's low bit exactly when it is a swap (44 R284). -/
theorem step_lowBit {s t : State} (h : step s = .next t) : t.fc.getLsbD 0 = (s.fc.getLsbD 0 ^^ s.swapsNow) := by
  cases hn : s.swapsNow with
  | true =>
    rw [swapCommit_of_step h hn, swapCommit_fc, lowBit_succ]
    simp
  | false => simp [(step_keepsRoles h hn).1]

/-- One more swap, or none, changes the parity of the number of swaps accordingly. -/
theorem swapsIn_succ_odd (r : Nat → State) (n : Nat) :
    decide (swapsIn r (n + 1) % 2 = 1) = (decide (swapsIn r n % 2 = 1) ^^ (r n).swapsNow) := by
  have hflip : (swapsIn r n + 1) % 2 = 1 ↔ ¬ swapsIn r n % 2 = 1 := by omega
  cases hn : (r n).swapsNow with
  | true => simp only [swapsIn_succ, hn, if_true, hflip, decide_not, Bool.xor_true]
  | false => simp [swapsIn_succ, hn]

end Sys2Proof.Machine
end

section
/-! CERTIFICATE. The statements of the swap's family (44 R280 to R287) settled. -/

namespace Sys2Proof.Machine

/-- Settles O14: the critical section from matching selectors. -/
theorem swapExchangesTheRoles : Obligations.SwapExchangesTheRoles := by
  intro s hf ht hw hl h
  have h0 : slotsMatch s.beginStep := h
  exact ⟨_, step_of_swap hf ht hw hl, h0.nextSlot_swapCommit, rfl, h0.curFrame_swapCommit, nextFrame_swapCommit _, h0.swapCommit⟩

/-- Settles O15: a step is the critical section or writes none of the three; over a run, by induction on its length. -/
theorem swapParityAfterNSwaps : Obligations.SwapParityAfterNSwaps := by
  constructor
  · intro s t h hx
    cases hn : s.swapsNow with
    | false => exact .inl ⟨rfl, step_keepsRoles hx hn⟩
    | true =>
      obtain ⟨ht, hw, hl⟩ := (State.swapsNow_iff s).mp hn
      have hne : s.nextSlot ≠ s.curSlot := by
        rw [h.2]
        exact SlotId.ne_other _
      rw [swapCommit_of_step hx hn]
      exact .inr ⟨ht, hw, hl, rfl, rfl, lowBit_succ s.fc, hne⟩
  · intro r n hrun hfc h
    induction n with
    | zero => exact ⟨by simp [hfc], h⟩
    | succ n ih =>
      obtain ⟨hbit, hmatch⟩ := ih fun k hk => hrun k (Nat.lt_succ_of_lt hk)
      have hx := hrun n (Nat.lt_succ_self n)
      exact ⟨by rw [step_lowBit hx, hbit, swapsIn_succ_odd], hmatch.step hx⟩

/-- Settles O16: a step that is no swap writes none of the three. -/
theorem onlySwapChangesTheRoles : Obligations.OnlySwapChangesTheRoles := by
  intro s t hx
  cases hn : s.swapsNow with
  | false => exact .inl (step_keepsRoles hx hn)
  | true => exact .inr ((State.swapsNow_iff s).mp hn)

/-- Settles O31: no setup of a polygon of "next" stops, so each is set up on its own. -/
theorem swapBuffersSetsUpNext : Obligations.SwapBuffersSetsUpNext := by
  intro s h hs
  obtain ⟨-, hnet⟩ := Bool.and_eq_true_iff.mp h.params
  refine ⟨s.nextFrame.polys.map fun p => (setupPolygon s.params.sortNet s.nextFrame.verts p).1, ?_, by simp, fun j p hp => ?_⟩
  · refine (h.execSwapBuffers_of_live hs).trans ?_
    rw [State.setUpNext, h.setupAll_next]
    rfl
  · have hset := ((h.next.polys p (List.mem_of_getElem? hp)).setup hnet h.next.verts).1
    exact ⟨_, by rw [List.getElem?_map, hp, Option.map_some], Prod.ext rfl hset⟩

/-- Settles O9: the consumer's turn when idle, with a head command or an empty channel, and when its swap waits. -/
theorem consumerPopsTheHead : Obligations.ConsumerPopsTheHead := by
  intro s ht
  refine ⟨fun hf hi c rest hc hp => ?_, fun hf hi hc => ?_, fun hf hw hl => ?_, fun hf => live_of_some hf _⟩
  · exact (step_of_turn hf ht).trans (consumerTurn_pop (s := s.beginStep) hi hc hp)
  · exact (step_of_turn hf ht).trans (consumerTurn_empty (s := s.beginStep) hi hc)
  · exact (step_of_turn hf ht).trans ((consumerTurn_swapWait (s := s.beginStep) hw).trans (if_neg hl))

/-- Settles O13: the step is the critical section. -/
theorem swapCriticalSection : Obligations.SwapCriticalSection :=
  fun _ hf ht hw hl => step_of_swap hf ht hw hl

end Sys2Proof.Machine
end

section
/-! SUPPORT. The meanings of BEGINFRAME, NEXTLINE and ENDFRAME in a live block, one equation for each case of their rules, and what
the pass's first state and a yielded line are made of (45 R300, R310, R320). -/

namespace Sys2Proof.Machine

/-- Inside a pass BEGINFRAME is refused (45 R300). -/
theorem execBeginFrame_of_active {s : State} (hs : s.fault = none) (ha : s.dpass.active = true) :
    execBeginFrame s = .next (s.refuse .nestedBegin) :=
  (live_of_none hs _).trans (if_pos ha)

/-- Outside a pass and with the lock free BEGINFRAME begins the pass (45 R300). -/
theorem execBeginFrame_of_free {s : State} (hs : s.fault = none) (ha : s.dpass.active = false) (hl : s.lock = .free) :
    execBeginFrame s = beginPass s := by
  rw [execBeginFrame, live_of_none hs, ha, if_neg Bool.false_ne_true, if_pos hl]

/-- Outside a pass NEXTLINE is refused (45 R310). -/
theorem execNextLine_of_noPass {s : State} (hs : s.fault = none) (ha : s.dpass.active = false) :
    execNextLine s = .next (s.refuse .notInPass) := by
  rw [execNextLine, live_of_none hs, ha, if_neg Bool.false_ne_true]

/-- Inside a pass NEXTLINE answers END past the last line, and yields a line before (45 R310). -/
theorem execNextLine_of_active {s : State} (hs : s.fault = none) (ha : s.dpass.active = true) :
    execNextLine s = if s.dpass.line = Config.dispH then .next (s.answer .endOfPass) else yieldLine s :=
  (live_of_none hs _).trans (if_pos ha)

/-- Inside a pass ENDFRAME frees the lock and ends the pass, outside it is refused (45 R320). -/
theorem execEndFrame_of_live {s : State} (hs : s.fault = none) :
    execEndFrame s = if s.dpass.active then .next { s with lock := .free, dpass := { active := false, line := 0 } }
      else .next (s.refuse .notInPass) :=
  live_of_none hs _

/-- Everything the beginning of a pass that answers a next state has done (45 R300). -/
theorem beginPass_next {s t : State} (h : beginPass s = .next t) :
    ∃ ps b, passBounds s.params.reinitBounds s.curFrame.polys = .ok ps ∧ buildBuckets { s.curFrame with polys := ps } = .ok b ∧
      t = { s.setCurFrame { s.curFrame with polys := ps } with
              bk := some b, lock := .display, dpass := { active := true, line := 0 } } := by
  simp only [beginPass] at h
  split at h
  · cases h
  · rename_i ps hps
    split at h
    · cases h
    · rename_i b hb
      exact ⟨ps, b, hps, hb, by simpa using h.symm⟩

/-- Everything a yielded line that answers a next state has done (45 R310). -/
theorem yieldLine_next {s t : State} (h : yieldLine s = .next t) :
    ∃ js ps es, bucketOf s.bk s.dpass.line = .ok js ∧
      fillLine Config.debugSnapshot s.dpass.line js s.curFrame.polys = .ok (ps, es) ∧
      t = (({ s.setCurFrame { s.curFrame with polys := ps } with
                dpass := { active := s.dpass.active, line := s.dpass.line + 1 } }).emit es).answer (.line s.dpass.line es) := by
  simp only [yieldLine] at h
  split at h
  · cases h
  · rename_i js hjs
    split at h
    · cases h
    · rename_i ps es hfill
      exact ⟨js, ps, es, hjs, hfill, by simpa using h.symm⟩

end Sys2Proof.Machine
end

section
/-! SUPPORT. The bounds a pass starts from: restored polygon by polygon, or left (45 R300, R316). -/

namespace Sys2Proof.Machine

/-- A polygon with its bounds at their values after setup. -/
def withInitialBounds (p : Polygon) : Polygon :=
  { p with setup := p.setup.map fun k => { k with cx0 := k.cx0Init, cx1 := k.cx1Init } }

/-- A restore that succeeds answers the polygon with its initial bounds (45 R300). -/
theorem restoreBounds_eq {p q : Polygon} (h : restoreBounds p = .ok q) : q = withInitialBounds p := by
  unfold restoreBounds at h
  split at h
  · cases h
  · rename_i k hk
    cases h
    simp [withInitialBounds, hk]

/-- A restore of all polygons that succeeds restores each on its own (45 R300). -/
theorem restoreAll_eq_map {ps qs : List Polygon} (h : restoreAll ps = .ok qs) : qs = ps.map withInitialBounds := by
  induction ps generalizing qs with
  | nil => cases h; rfl
  | cons p ps ih =>
    simp only [restoreAll, bind, Except.bind, pure, Except.pure] at h
    cases hp : restoreBounds p with
    | error e => simp [hp] at h
    | ok q =>
      cases hps : restoreAll ps with
      | error e => simp [hp, hps] at h
      | ok qs' =>
        simp only [hp, hps, Except.ok.injEq] at h
        rw [← h, restoreBounds_eq hp, ih hps, List.map_cons]

/-- The bounds a pass starts from: the initial ones when REINIT_BOUNDS is set, else those there are (45 R300, R316). -/
theorem passBounds_eq {reinit : Bool} {ps qs : List Polygon} (h : passBounds reinit ps = .ok qs) :
    qs = if reinit then ps.map withInitialBounds else ps := by
  cases reinit with
  | false => cases h; rfl
  | true => exact restoreAll_eq_map h

/-- Restoring the bounds writes the bounds only. -/
theorem passFixed_withInitialBounds (p : Polygon) : passFixed (withInitialBounds p) = passFixed p := by
  simp [passFixed, withInitialBounds, Function.comp_def]

/-- The polygons a pass starts from are those there are but for their bounds (45 R321). -/
theorem passBounds_frame {reinit : Bool} {ps qs : List Polygon} (h : passBounds reinit ps = .ok qs) :
    qs.map passFixed = ps.map passFixed := by
  rw [passBounds_eq h]
  cases reinit with
  | false => rfl
  | true => simp [passFixed_withInitialBounds]

end Sys2Proof.Machine
end

section
/-! SUPPORT. The buckets as sets of polygons, the events of a polygon, and a span's columns as the rule's loop (45 R301, R311). -/

namespace Sys2Proof.Machine

/-- A polygon's rows are the screen Ys of its corners in slots 0 and 2 (45 R301). -/
theorem rowsOf_ok_iff {vs : List Vertex} {p : Polygon} {r : Int × Int} :
    rowsOf vs p = .ok r ↔
      ∃ top bot, cornerAt vs p.vi.v0 = .ok top ∧ cornerAt vs p.vi.v2 = .ok bot ∧ r = (top.y.toInt, bot.y.toInt) := by
  simp only [rowsOf, bind, Except.bind, pure, Except.pure]
  cases cornerAt vs p.vi.v0 with
  | error e => simp
  | ok top =>
    cases cornerAt vs p.vi.v2 with
    | error e => simp
    | ok bot => simp [eq_comm]

/-- The rows at an index are those of the polygon at that index (45 R301). -/
theorem allRows_getElem? {vs : List Vertex} {ps : List Polygon} {rows : List (Int × Int)} (h : allRows vs ps = .ok rows)
    (j : Nat) (r : Int × Int) : rows[j]? = some r ↔ ∃ p, ps[j]? = some p ∧ rowsOf vs p = .ok r := by
  induction ps generalizing rows j with
  | nil => cases h; simp
  | cons p ps ih =>
    simp only [allRows, bind, Except.bind, pure, Except.pure] at h
    cases hp : rowsOf vs p with
    | error e => simp [hp] at h
    | ok r0 =>
      cases hps : allRows vs ps with
      | error e => simp [hp, hps] at h
      | ok rs =>
        simp only [hp, hps, Except.ok.injEq] at h
        subst h
        cases j with
        | zero => simp [hp]
        | succ j => simpa using ih hps j

/-- A bucket array that is built comes from the rows of the frame's polygons (45 R301). -/
theorem buildBuckets_eq {f : Slot} {b : List (List Nat)} (h : buildBuckets f = .ok b) :
    ∃ rows, allRows f.verts f.polys = .ok rows ∧
      b = (List.range Config.dispH).map fun (y : Nat) => bucketFrom (y : Int) 0 rows := by
  cases hr : allRows f.verts f.polys with
  | error e => simp [buildBuckets, hr, bind, Except.bind] at h
  | ok rows =>
    rw [buildBuckets_of_rows hr] at h
    cases h
    exact ⟨rows, rfl, rfl⟩

/-- A bucket of a built array is its line's selection from the rows of the frame's polygons (45 R301). -/
theorem buildBuckets_bucket {f : Slot} {b : List (List Nat)} (h : buildBuckets f = .ok b) {y : Nat} {js : List Nat}
    (hy : b[y]? = some js) : ∃ rows, allRows f.verts f.polys = .ok rows ∧ js = bucketFrom (y : Int) 0 rows := by
  obtain ⟨rows, hrows, rfl⟩ := buildBuckets_eq h
  obtain ⟨hlt, rfl⟩ := List.getElem?_eq_some_iff.mp hy
  exact ⟨rows, hrows, by simp⟩

/-- A bucket that is read is the one of its line. -/
theorem bucketOf_ok {b : List (List Nat)} {y : Nat} {js : List Nat} (h : bucketOf (some b) y = .ok js) : b[y]? = some js := by
  simp only [bucketOf] at h
  split at h
  · cases h
  · rename_i js' hy
    cases h
    exact hy

/-- A bucket read during a pass is one of the buckets of "current", so it lists no polygon twice (45 R301). -/
theorem Inv.bucket_nodup {s : State} (h : Inv s) (ha : s.dpass.active = true) {y : Nat} {js : List Nat}
    (hj : bucketOf s.bk y = .ok js) : js.Nodup := by
  obtain ⟨b, hbk, hb⟩ := h.buckets ha
  obtain ⟨rows, -, rfl⟩ := buildBuckets_bucket hb (bucketOf_ok (hbk ▸ hj))
  exact (bucketFrom_ascending _ _ _).imp Nat.ne_of_lt

/-- What a line's work reports of a polygon is the events of its span (45 R311). -/
theorem polygonEvents_eq (y : Nat) :
    polygonEvents y = fun p => (p.setup.map fun k => spanEvents Config.debugSnapshot k p.attr y).getD [] := by
  funext p
  rw [polygonEvents]
  cases p.setup <;> rfl

/-- The columns of the rule's loop, from a first to a last one, ascending, on and off the display (45 R311). -/
def loopColumns (xs xe : Int) : List Int := (List.range (xe - xs + 1).toNat).map fun (n : Nat) => xs + (n : Int)

theorem mem_loopColumns {xs xe x : Int} : x ∈ loopColumns xs xe ↔ xs ≤ x ∧ x ≤ xe := by
  simp only [loopColumns, List.mem_map, List.mem_range]
  constructor
  · rintro ⟨n, hn, rfl⟩
    omega
  · rintro ⟨h1, h2⟩
    exact ⟨(x - xs).toNat, by omega, by omega⟩

theorem loopColumns_ascending (xs xe : Int) : (loopColumns xs xe).Pairwise (· < ·) :=
  List.pairwise_lt_range.map _ fun _ _ h => by omega

/-- The visible columns of a span are those of the loop with the columns off the display skipped: both lists ascend, and they have
the same members (45 R311). -/
theorem spanColumns_eq_loop (k : Setup) :
    (spanColumns k).map (fun (x : Nat) => (x : Int)) =
      (loopColumns (k.cx0.toInt / 4096) (k.cx1.toInt / 4096)).filter fun x => decide (0 ≤ x ∧ x < 256) := by
  have hspan : ((spanColumns k).map fun (x : Nat) => (x : Int)).Pairwise (· < ·) :=
    (List.pairwise_lt_range.filter _).map _ fun _ _ h => Int.ofNat_lt.mpr h
  refine hspan.eq_of_mem_iff ((loopColumns_ascending _ _).filter _) fun x => ?_
  simp only [spanColumns, q12ToI_toInt, List.mem_map, List.mem_filter, List.mem_range, mem_loopColumns, decide_eq_true_eq,
    Config.dispW]
  constructor
  · rintro ⟨n, ⟨hn, hcol⟩, rfl⟩
    exact ⟨hcol, by omega⟩
  · rintro ⟨hcol, h0, hlt⟩
    exact ⟨x.toNat, ⟨by omega, by omega⟩, by omega⟩

end Sys2Proof.Machine
end

section
/-! SUPPORT. What a display request writes: of the frames the bounds of "current" only (45 R321), and the cursor as the rules move it
(45 R314). -/

namespace Sys2Proof.Machine

/-- Of the frame slots at most the bounds of the polygons of "current" have changed, and neither the viewport nor the consumer's
phase. -/
structure WritesBoundsOnly (s t : State) : Prop where
  slots : ∀ k, k ≠ s.curSlot → t.mem.slot k = s.mem.slot k
  verts : t.curFrame.verts = s.curFrame.verts
  polys : t.curFrame.polys.map passFixed = s.curFrame.polys.map passFixed
  vp : t.vp = s.vp
  cphase : t.cphase = s.cphase

theorem WritesBoundsOnly.refl (s : State) : WritesBoundsOnly s s := ⟨fun _ _ => rfl, rfl, rfl, rfl, rfl⟩

/-- A write of polygons that differ in their bounds only (45 R321). -/
theorem WritesBoundsOnly.setCurFrame (s : State) {ps : List Polygon} (h : ps.map passFixed = s.curFrame.polys.map passFixed) :
    WritesBoundsOnly s (s.setCurFrame { s.curFrame with polys := ps }) := by
  refine ⟨fun k hk => Memory.slot_setSlot_other _ hk _, ?_, ?_, rfl, rfl⟩
  · rw [State.curFrame_setCurFrame]
  · rw [State.curFrame_setCurFrame]
    exact h

/-- The buckets, the lock, the pass, the refusals and the outputs may be written besides. -/
theorem WritesBoundsOnly.display {s t : State} (h : WritesBoundsOnly s t) {bk : Option (List (List Nat))} {lock : Lock}
    {dpass : DPass} {refusals : List Verdict} {io : Ports} :
    WritesBoundsOnly s { t with bk := bk, lock := lock, dpass := dpass, refusals := refusals, io := io } :=
  ⟨h.slots, h.verts, h.polys, h.vp, h.cphase⟩

/-- Every display request writes, of the frames, the bounds of "current" only (45 R321). -/
theorem execDisplay_writesBoundsOnly {i : Instr} {s t : State} (hp : i.port = .dport) (h : exec i s = .next t) :
    WritesBoundsOnly s t := by
  cases i with
  | beginFrame =>
    rcases execBeginFrame_cases h with rfl | rfl | ⟨-, -, ps, b, hps, -, rfl⟩
    · exact .refl _
    · exact (WritesBoundsOnly.refl s).display
    · exact (WritesBoundsOnly.setCurFrame s (passBounds_frame hps)).display
  | nextLine =>
    rcases execNextLine_cases h with rfl | rfl | ⟨-, -, js, ps, es, -, hfill, rfl⟩
    · exact (WritesBoundsOnly.refl s).display
    · exact (WritesBoundsOnly.refl s).display
    · exact (WritesBoundsOnly.setCurFrame s (fillLine_frame hfill).1).display
  | endFrame => rcases execEndFrame_cases h with rfl | ⟨-, rfl⟩ <;> exact (WritesBoundsOnly.refl s).display
  | _ => cases hp

/-- The ways the cursor may move: it stays, moves on by one answering the line it leaves, or is 0 where a pass begins or ends
(45 R314). -/
def CursorMoves (s t : State) : Prop :=
  t.dpass.line = s.dpass.line ∨
    (t.dpass.line = s.dpass.line + 1 ∧ s.dpass.active = true ∧ t.dpass.active = true ∧
      ∃ es, t.io.out = .line s.dpass.line es) ∨
    (t.dpass.line = 0 ∧ t.dpass.active ≠ s.dpass.active)

/-- Every display request moves the cursor in one of these ways (45 R314). -/
theorem execDisplay_cursorMoves {i : Instr} {s t : State} (hp : i.port = .dport) (h : exec i s = .next t) :
    CursorMoves s t := by
  cases i with
  | beginFrame =>
    rcases execBeginFrame_cases h with rfl | rfl | ⟨ha, -, ps, b, -, -, rfl⟩
    · exact .inl rfl
    · exact .inl rfl
    · exact .inr (.inr ⟨rfl, by simp [ha]⟩)
  | nextLine =>
    rcases execNextLine_cases h with rfl | rfl | ⟨ha, -, js, ps, es, -, -, rfl⟩
    · exact .inl rfl
    · exact .inl rfl
    · exact .inr (.inl ⟨rfl, ha, ha, es, rfl⟩)
  | endFrame =>
    rcases execEndFrame_cases h with rfl | ⟨ha, rfl⟩
    · exact .inl rfl
    · exact .inr (.inr ⟨rfl, by simp [ha]⟩)
  | _ => cases hp

/-- A request to the arithmetic unit leaves the pass (10 R30). -/
theorem execUnit_dpass {i : Instr} {s t : State} (hp : i.port = .q12alu) (h : exec i s = .next t) : t.dpass = s.dpass := by
  rcases execUnit_cases hp h with ⟨r, rfl⟩ | ⟨f, rfl⟩ <;> rfl

/-- A step leaves the pass, or, on a display turn, moves the cursor as a display request does (45 R314, 70 R397). -/
theorem step_dpass {s t : State} (h : step s = .next t) : t.dpass = s.dpass ∨ (s.turn = .display ∧ CursorMoves s t) := by
  obtain ⟨-, hcases⟩ := step_cases h
  rcases hcases with rfl | ⟨-, c, rest, -, -, rfl⟩ | ⟨-, e, -, rfl⟩ | ⟨-, -, -, rfl⟩ | ⟨-, -, c, rest, -, hw, hx⟩ |
    ⟨ht, r, rest, hd, hx⟩ | ⟨-, e, -, rfl⟩ | ⟨-, r, rest, hd, hx⟩
  · exact .inl rfl
  · exact .inl rfl
  · exact .inl rfl
  · exact .inl rfl
  · have hnext := execCommand_writesNextOnly (beq_iff_eq.mp hw) hx
    exact .inl hnext.dpass
  · have hmoves := execDisplay_cursorMoves (decodeRequest_port hd) hx
    exact .inr ⟨ht, hmoves⟩
  · exact .inl rfl
  · have hpass := execUnit_dpass (decodeUnit_port hd) hx
    exact .inl hpass

end Sys2Proof.Machine
end

section
/-! CERTIFICATE. The statements of the rasterizer's family (45 R300 to R321) settled. -/

namespace Sys2Proof.Machine

/-- Settles O32: the pass begins, since the polygons of "current" are set up and their corners can be read. -/
theorem beginFrameStartsThePass : Obligations.BeginFrameStartsThePass := by
  intro s h hs ha hl
  obtain ⟨t, ht⟩ := h.beginPass_hasNext
  obtain ⟨ps, b, hps, hb, rfl⟩ := beginPass_next ht
  have heq := passBounds_eq hps
  refine ⟨ps, b, (execBeginFrame_of_free hs ha hl).trans ht, hb, fun hr => ?_, fun hr => ?_⟩
  · rw [heq, hr, if_neg Bool.false_ne_true]
  · rw [heq, hr, if_pos rfl]
    rfl

/-- Settles O33: a bucket is its line's selection from the rows, and the rows at an index are those of the polygon there. -/
theorem bucketsListCoveringPolygons : Obligations.BucketsListCoveringPolygons := by
  intro f b h
  refine ⟨?_, fun y js hy => ?_⟩
  · obtain ⟨rows, -, rfl⟩ := buildBuckets_eq h
    simp [Config.dispH]
  · obtain ⟨rows, hrows, rfl⟩ := buildBuckets_bucket h hy
    refine ⟨bucketFrom_ascending _ _ _, fun j => ?_⟩
    rw [mem_bucketFrom, Nat.sub_zero]
    constructor
    · rintro ⟨-, r, hr, htop, hbot⟩
      obtain ⟨p, hp, hrow⟩ := (allRows_getElem? hrows j r).mp hr
      obtain ⟨top, bot, h0, h2, rfl⟩ := rowsOf_ok_iff.mp hrow
      exact ⟨p, top, bot, hp, h0, h2, htop, hbot⟩
    · rintro ⟨p, top, bot, hp, h0, h2, htop, hbot⟩
      have hrow := rowsOf_ok_iff.mpr ⟨top, bot, h0, h2, rfl⟩
      exact ⟨Nat.zero_le j, _, (allRows_getElem? hrows j _).mpr ⟨p, hp, hrow⟩, htop, hbot⟩

/-- Settles O36: the line is yielded, and its bucket ascends, so that each of its polygons is visited once. -/
theorem nextLineFillsAndAdvances : Obligations.NextLineFillsAndAdvances := by
  intro s h hs ha hne
  obtain ⟨-, -, -, hle⟩ := h.lock
  obtain ⟨t, ht⟩ := h.yieldLine_hasNext ha (Nat.lt_of_le_of_ne hle hne)
  obtain ⟨js, ps, es, hjs, hfill, rfl⟩ := yieldLine_next ht
  obtain ⟨hlen, hvisit, hes⟩ := fillLine_work (h.bucket_nodup ha hjs) hfill
  refine ⟨js, ps, es, hjs, hlen, hvisit, ?_, ?_⟩
  · rw [polygonEvents_eq]
    exact hes
  · refine ((execNextLine_of_active hs ha).trans (if_neg hne)).trans (ht.trans ?_)
    rw [ha]
    rfl

/-- Settles O38: a span's columns are the loop's that lie on the display. -/
theorem spanIsTheLoopSkippingOffscreen : Obligations.SpanIsTheLoopSkippingOffscreen := by
  intro debug k attr y xs xe loop
  have hcols := spanColumns_eq_loop k
  change _ = loop.filter _ at hcols
  rw [← hcols, List.map_map]
  rfl

/-- Settles O57: a display request writes bounds of "current" only, and matching selectors name a different slot "next". -/
theorem displayWritesOnlyBounds : Obligations.DisplayWritesOnlyBounds := by
  rintro i s t hp ⟨-, hcur⟩ h
  have hw := execDisplay_writesBoundsOnly hp h
  have hk := exec_kept h
  obtain ⟨hseq, hfault⟩ := execDisplay_kept hp h
  have hne : s.nextSlot ≠ s.curSlot := by
    rw [hcur]
    exact SlotId.ne_other _
  have hnext : t.nextFrame = s.nextFrame := by
    rw [State.nextFrame, hk.nextSlot]
    exact hw.slots _ hne
  have hpolys := congrArg (List.map fun p => (p.vi, p.attr, p.setup)) hw.polys
  rw [List.map_map, List.map_map] at hpolys
  exact ⟨hnext, hw.verts, hpolys, hw.vp, hseq, hk.fc, hk.nextSlot, hk.curSlot, hk.chan, hw.cphase, hfault, hk.params⟩

/-- Settles O58: only a display request writes the pass, and each moves the cursor in one of the three ways. -/
theorem cursorVisitsLinesInOrder : Obligations.CursorVisitsLinesInOrder := by
  intro s t h
  rcases step_dpass h with hd | ⟨ht, hstay | ⟨hline, ha, ha', hout⟩ | ⟨hline, ha⟩⟩
  · exact .inl (congrArg DPass.line hd)
  · exact .inl hstay
  · exact .inr (.inl ⟨hline, ht, ha, ha', hout⟩)
  · exact .inr (.inr ⟨hline, ht, ha⟩)

/-- Settles O34: each request's refusing case. -/
theorem displayMisuseIsRefused : Obligations.DisplayMisuseIsRefused := by
  intro s hs
  refine ⟨fun ha => execBeginFrame_of_active hs ha, fun ha => ⟨execNextLine_of_noPass hs ha, ?_⟩⟩
  exact (execEndFrame_of_live hs).trans (if_neg (by simp [ha]))

/-- Settles O35: ENDFRAME's case inside a pass, which does not read the cursor. -/
theorem endFrameReleasesTheLock : Obligations.EndFrameReleasesTheLock :=
  fun _ hs ha => (execEndFrame_of_live hs).trans (if_pos ha)

/-- Settles O37: NEXTLINE's case past the last line. -/
theorem nextLineAfterTheLastIsEnd : Obligations.NextLineAfterTheLastIsEnd :=
  fun _ hs ha hl => (execNextLine_of_active hs ha).trans (if_pos hl)

/-- Settles O39: the two branches of the advance, whose sums wrap as QADD does. -/
theorem boundsAdvanceByTheSlopes : Obligations.BoundsAdvanceByTheSlopes :=
  fun _ _ => ⟨fun hlt => if_pos hlt, fun hge => if_neg hge⟩

end Sys2Proof.Machine
end

section
/-! SUPPORT. What a halted block answers, and what a step does to the refusal mark (60 R341 to R343, R365). -/

namespace Sys2Proof.Machine

/-- A halted block runs no instruction: every meaning asks first whether the block is live (60 R341). -/
theorem exec_halted {s : State} (h : s.fault ≠ none) (i : Instr) : exec i s = .fault .halted := by
  cases i <;> exact live_of_some h _

/-- A quiescent block is live (60 R365). -/
theorem State.fault_of_quiescent {s : State} (h : s.quiescent = true) : s.fault = none := by
  simp only [State.quiescent, State.clean, Bool.and_eq_true, Option.isNone_iff_eq_none] at h
  obtain ⟨⟨⟨⟨hf, -⟩, -⟩, -⟩, -⟩ := h
  exact hf

/-- A step keeps the refusals made before it, in their order, and at most appends to them (60 R343). -/
theorem step_refusals {s t : State} (h : step s = .next t) : s.refusals <+: t.refusals := by
  obtain ⟨-, hcases⟩ := step_cases h
  rcases hcases with rfl | ⟨-, c, rest, -, -, rfl⟩ | ⟨-, e, -, rfl⟩ | ⟨-, -, -, rfl⟩ | ⟨-, -, c, rest, -, -, hx⟩ |
    ⟨-, r, rest, -, hx⟩ | ⟨-, e, -, rfl⟩ | ⟨-, r, rest, -, hx⟩
  · exact List.prefix_refl _
  · exact List.prefix_refl _
  · exact List.prefix_append _ _
  · exact List.prefix_refl _
  · exact (exec_kept hx).refusals
  · exact (exec_kept hx).refusals
  · exact List.prefix_append _ _
  · exact (exec_kept hx).refusals

end Sys2Proof.Machine
end

section
/-! SUPPORT. Being able to step: without it a turn is a hold, and the turns of the others do not take it away (60 R352, R353). -/

namespace Sys2Proof.Machine

/-- In a live block the turn of an agent that is not able to step is a hold (60 R352, log 16). -/
theorem turnOf_hold {s : State} {a : Turn} (hf : s.fault = none) (h : s.canStep a = false) : turnOf a s = .next s := by
  cases a with
  | producer =>
    cases hd : decode .cmd s.io.cmdIn with
    | ok c rest => exact (producerTurn_ok hd).trans (if_neg (by simpa [State.canStep, hf, hd] using h))
    | incomplete => simp only [turnOf, producerTurn, hd]
    | refused e => simp [State.canStep, hf, hd] at h
  | consumer =>
    cases hc : s.cphase with
    | swapWait => exact (consumerTurn_swapWait hc).trans (if_neg (by simpa [State.canStep, hf, hc] using h))
    | idle => exact consumerTurn_empty hc (by simpa [State.canStep, hf, hc] using h)
  | display =>
    cases hd : decode .dport s.io.dispIn with
    | ok r rest => exact (displayTurn_ok hd).trans (if_pos (by simpa [State.canStep, hf, hd] using h))
    | incomplete => simp only [turnOf, displayTurn, hd]
    | refused e => simp [State.canStep, hf, hd] at h
  | unit =>
    cases hd : decode .q12alu s.io.unitIn with
    | ok r rest => simp [State.canStep, hf, hd] at h
    | incomplete => simp only [turnOf, unitTurn, hd]
    | refused e => simp [State.canStep, hf, hd] at h

/-- What a step leaves alone on another's turn, of what being able to step depends on: the words of an agent's stream and the
consumer's phase; the lock, off the display's turn, at most gets free. -/
structure LeavesToOwner (s t : State) : Prop where
  cmdIn : s.turn ≠ .producer → t.io.cmdIn = s.io.cmdIn
  dispIn : s.turn ≠ .display → t.io.dispIn = s.io.dispIn
  cphase : s.turn ≠ .consumer → t.cphase = s.cphase
  lock : s.turn ≠ .display → t.lock = s.lock ∨ t.lock = .free

/-- A request to the arithmetic unit leaves the lock and the consumer's phase (10 R30). -/
theorem execUnit_lock_cphase {i : Instr} {s t : State} (hp : i.port = .q12alu) (h : exec i s = .next t) :
    t.lock = s.lock ∧ t.cphase = s.cphase := by
  rcases execUnit_cases hp h with ⟨r, rfl⟩ | ⟨f, rfl⟩ <;> exact ⟨rfl, rfl⟩

/-- Every step leaves to the other agents what is theirs (60 R350, R352). -/
theorem step_leavesToOwner {s t : State} (h : step s = .next t) : LeavesToOwner s t := by
  obtain ⟨-, hcases⟩ := step_cases h
  rcases hcases with rfl | ⟨ht, c, rest, -, -, rfl⟩ | ⟨ht, e, -, rfl⟩ | ⟨ht, -, -, rfl⟩ | ⟨ht, -, c, rest, -, hw, hx⟩ |
    ⟨ht, r, rest, hd, hx⟩ | ⟨ht, e, -, rfl⟩ | ⟨-, r, rest, hd, hx⟩
  · exact ⟨fun _ => rfl, fun _ => rfl, fun _ => rfl, fun _ => .inl rfl⟩
  · exact ⟨fun hn => absurd ht hn, fun _ => rfl, fun _ => rfl, fun _ => .inl rfl⟩
  · exact ⟨fun hn => absurd ht hn, fun _ => rfl, fun _ => rfl, fun _ => .inl rfl⟩
  · exact ⟨fun _ => rfl, fun _ => rfl, fun hn => absurd ht hn, fun _ => .inr rfl⟩
  · obtain ⟨hcmd, hdisp, -⟩ := (exec_kept hx).streams
    have hnext := execCommand_writesNextOnly (beq_iff_eq.mp hw) hx
    exact ⟨fun _ => hcmd, fun _ => hdisp, fun hn => absurd ht hn, fun _ => .inl hnext.lock⟩
  · obtain ⟨hcmd, -, -⟩ := (exec_kept hx).streams
    have hbounds := execDisplay_writesBoundsOnly (decodeRequest_port hd) hx
    exact ⟨fun _ => hcmd, fun hn => absurd ht hn, fun _ => hbounds.cphase, fun hn => absurd ht hn⟩
  · exact ⟨fun _ => rfl, fun hn => absurd ht hn, fun _ => rfl, fun hn => absurd ht hn⟩
  · obtain ⟨hcmd, hdisp, -⟩ := (exec_kept hx).streams
    obtain ⟨hlock, hphase⟩ := execUnit_lock_cphase (decodeUnit_port hd) hx
    exact ⟨fun _ => hcmd, fun _ => hdisp, fun _ => hphase, fun _ => .inl hlock⟩

/-- Off the producer's turn the channel gets no longer (41 R180, R181). -/
theorem step_chan_length_le {s t : State} (h : step s = .next t) (hn : s.turn ≠ .producer) : t.chan.length ≤ s.chan.length := by
  rcases step_chan h with hc | ⟨ht, -⟩ | ⟨-, c, hc⟩
  · rw [hc]
  · exact absurd ht hn
  · rw [hc]
    exact Nat.le_succ _

/-- Off the consumer's turn no command waiting in the channel is taken away (41 R181). -/
theorem step_chan_ne_nil {s t : State} (h : step s = .next t) (hn : s.turn ≠ .consumer) (hc : s.chan ≠ []) : t.chan ≠ [] := by
  rcases step_chan h with ht | ⟨-, -, c, -, ht⟩ | ⟨ht, -⟩
  · rwa [ht]
  · simp [ht]
  · exact absurd ht hn

/-- Off the display's turn a BEGINFRAME that need not wait does not come to (45 R300). -/
theorem step_active_or_free {s t : State} (h : step s = .next t) (hn : s.turn ≠ .display)
    (hs : s.dpass.active = true ∨ s.lock = .free) : t.dpass.active = true ∨ t.lock = .free := by
  rcases hs with ha | hl
  · rcases step_dpass h with hd | ⟨ht, -⟩
    · exact .inl (by rwa [hd])
    · exact absurd ht hn
  · rcases (step_leavesToOwner h).lock hn with hlock | hfree
    · exact .inr (hlock.trans hl)
    · exact .inr hfree

/-- A producer able to step stays so while others have their turns: the channel's room is kept for it (41 R180). -/
theorem step_canStep_producer {s t : State} (h : step s = .next t) (hf : t.fault = none) (hn : s.turn ≠ .producer)
    (hs : s.canStep .producer = true) : t.canStep .producer = true := by
  have hin := (step_leavesToOwner h).cmdIn hn
  cases hd : decode .cmd s.io.cmdIn with
  | ok c rest =>
    have hroom := (State.canStep_producer (fault_of_step h) hd).mp hs
    refine (State.canStep_producer hf (hin ▸ hd)).mpr ?_
    rw [step_params h]
    exact (step_chan_length_le h hn).trans_lt hroom
  | incomplete => simp [State.canStep, hd] at hs
  | refused e => simp [State.canStep, hf, hin, hd]

/-- A consumer able to step stays so while others have their turns, if none of them takes the lock its swap waits for (41 R181,
44 R281). -/
theorem step_canStep_consumer {s t : State} (h : step s = .next t) (hf : t.fault = none) (hn : s.turn ≠ .consumer)
    (hs : s.canStep .consumer = true) (hlock : s.cphase = .swapWait → t.lock = .free) : t.canStep .consumer = true := by
  have hphase := (step_leavesToOwner h).cphase hn
  cases hc : s.cphase with
  | swapWait => exact (State.canStep_swapWait hf (hphase.trans hc)).mpr (hlock hc)
  | idle =>
    have hwaits := (State.canStep_idle (fault_of_step h) hc).mp hs
    exact (State.canStep_idle hf (hphase.trans hc)).mpr (step_chan_ne_nil h hn hwaits)

/-- A display able to step stays so while others have their turns: none of them leaves the lock taken (45 R300). -/
theorem step_canStep_display {s t : State} (h : step s = .next t) (hf : t.fault = none) (hn : s.turn ≠ .display)
    (hs : s.canStep .display = true) : t.canStep .display = true := by
  have hin := (step_leavesToOwner h).dispIn hn
  cases hd : decode .dport s.io.dispIn with
  | ok r rest =>
    have hready := (State.canStep_display (fault_of_step h) hd).mp hs
    exact (State.canStep_display hf (hin ▸ hd)).mpr fun hb => step_active_or_free h hn (hready hb)
  | incomplete => simp [State.canStep, hd] at hs
  | refused e => simp [State.canStep, hf, hin, hd]

/-- An agent able to step stays so while others have their turns (60 R353). -/
theorem step_canStep {s t : State} (h : step s = .next t) (hf : t.fault = none) {a : Turn} (ha : a ∈ agents) (hn : s.turn ≠ a)
    (hs : s.canStep a = true) (hlock : a = .consumer → s.cphase = .swapWait → t.lock = .free) : t.canStep a = true := by
  cases a with
  | producer => exact step_canStep_producer h hf hn hs
  | consumer => exact step_canStep_consumer h hf hn hs (hlock rfl)
  | display => exact step_canStep_display h hf hn hs
  | unit => exact absurd rfl ((mem_agents _).mp ha)

end Sys2Proof.Machine
end

section
/-! SUPPORT. Fair runs: what an agent finds when it next has its turn (60 R353). -/

namespace Sys2Proof.Machine

/-- From `n` on and before `m` the agent has no turn. -/
def noTurnIn (r : Nat → State) (a : Turn) (n m : Nat) : Prop := ∀ k, n ≤ k → k < m → (r k).turn ≠ a

/-- With no turn before `m + 1`, the turn of state `m` is another's. -/
theorem noTurnIn.pred {r : Nat → State} {a : Turn} {n m : Nat} (h : noTurnIn r a n (m + 1)) (hm : n ≤ m) :
    noTurnIn r a n m ∧ (r m).turn ≠ a :=
  ⟨fun k hnk hkm => h k hnk (Nat.lt_succ_of_lt hkm), h m hm (Nat.lt_succ_self m)⟩

/-- Until the consumer has its turn its phase stays. -/
theorem isRun.cphase {r : Nat → State} (hr : isRun r) {n m : Nat} (hm : n ≤ m) (h : noTurnIn r .consumer n m) :
    (r m).cphase = (r n).cphase := by
  induction m, hm using Nat.le_induction with
  | base => rfl
  | succ m hm ih =>
    obtain ⟨hbefore, hn⟩ := h.pred hm
    exact ((step_leavesToOwner (hr m)).cphase hn).trans (ih hbefore)

/-- An agent able to step is able to until it has its turn (60 R353). -/
theorem isRun.canStep {r : Nat → State} (hr : isRun r) {a : Turn} (ha : a ∈ agents) {n : Nat} (hs : (r n).canStep a = true)
    (hlock : a = .consumer → (r n).cphase = .swapWait → ∀ m, n ≤ m → (r m).lock = .free) {m : Nat} (hm : n ≤ m)
    (h : noTurnIn r a n m) : (r m).canStep a = true := by
  induction m, hm using Nat.le_induction with
  | base => exact hs
  | succ m hm ih =>
    obtain ⟨hbefore, hn⟩ := h.pred hm
    refine step_canStep (hr m) (hr.fault _) ha hn (ih hbefore) fun hc hw => ?_
    subst hc
    exact hlock rfl ((hr.cphase hm hbefore).symm.trans hw) _ (Nat.le_succ_of_le hm)

/-- In a weakly fair run an agent that stays able to step until its turn has a turn, and so a first one (60 R353). -/
theorem weaklyFair.first_turn {r : Nat → State} (hw : weaklyFair r) {a : Turn} (ha : a ∈ agents) {n : Nat}
    (hs : ∀ m, n ≤ m → noTurnIn r a n m → (r m).canStep a = true) :
    ∃ m, n ≤ m ∧ (r m).turn = a ∧ noTurnIn r a n m := by
  have hturn : ∃ m, n ≤ m ∧ (r m).turn = a := by
    by_contra hnone
    have hno : ∀ m, noTurnIn r a n m := fun m k hk _ ht => hnone ⟨k, hk, ht⟩
    exact hnone (hw a ha n fun m hm => hs m hm (hno m))
  obtain ⟨hm, ht⟩ := Nat.find_spec hturn
  exact ⟨Nat.find hturn, hm, ht, fun k hnk hk htk => Nat.find_min hturn hk ⟨hnk, htk⟩⟩

end Sys2Proof.Machine
end

section
/-! CERTIFICATE. The statements of the exceptions' family (60 R340 to R365) settled. -/

namespace Sys2Proof.Machine

/-- Settles O53: only a refusal writes the mark, by appending to it. -/
theorem refusalMarkIsKept : Obligations.RefusalMarkIsKept :=
  fun _ _ h => step_refusals h

/-- Settles O60: no other agent's turn takes the ability away, so weak fairness gives the agent a turn, and a first one. -/
theorem fairAgentsTakeTheirTurn : Obligations.FairAgentsTakeTheirTurn := by
  refine ⟨fun s hf h => ?_, fun r hr hw n a ha hs hlock => ?_⟩
  · exact (step_of_turn hf rfl).trans (turnOf_hold (s := s.beginStep) hf h)
  · have hable : ∀ m, n ≤ m → noTurnIn r a n m → (r m).canStep a = true := fun m hm => hr.canStep ha hs hlock hm
    obtain ⟨m, hm, ht, hno⟩ := hw.first_turn ha hable
    exact ⟨m, hm, ht, hable m hm hno, hno⟩

/-- Settles O12: step and every meaning ask first whether the block is live, and a quiescent block is. -/
theorem haltedBlockHasNoStep : Obligations.HaltedBlockHasNoStep := by
  intro s h
  have hq : s.quiescent ≠ true := fun hq => h (State.fault_of_quiescent hq)
  exact ⟨live_of_some h _, exec_halted h, Bool.eq_false_iff.mpr hq⟩

end Sys2Proof.Machine
end

section
/-! SUPPORT. What reset leaves: parameters the spec admits, room in the channel and two empty frames (70 R380). -/

namespace Sys2Proof.Machine

/-- CHAN_CAP is at least 1, whatever its value (00 R11). -/
theorem chanCap_pos : 0 < Config.chanCap := Nat.succ_pos _

/-- The default network sorts every input (00 R15, 43 R251). -/
theorem sortNetWf_default : sortNetWf Config.sortNetDefault = true := by decide

/-- The default parameters are ones the spec admits (00 R11, R15). -/
theorem paramsWf_defaults : paramsWf Config.defaults = true :=
  Bool.and_eq_true_iff.mpr ⟨decide_eq_true chanCap_pos, sortNetWf_default⟩

/-- An empty frame has no polygon that waits for setup. -/
theorem allSetUp.empty : allSetUp Slot.empty := fun _ hp => nomatch hp

@[simp] theorem State.slot_reset (k : SlotId) : State.reset.mem.slot k = Slot.empty := by cases k <;> rfl

@[simp] theorem State.nextFrame_reset : State.reset.nextFrame = Slot.empty := State.slot_reset _

@[simp] theorem State.curFrame_reset : State.reset.curFrame = Slot.empty := State.slot_reset _

/-- After reset the producer may push: the channel is empty and holds at least one command (70 R380, 41 R180). -/
theorem State.reset_channelHasRoom : State.reset.chan.length < State.reset.params.chanCap := chanCap_pos

/-- The invariant at reset: nothing is stored, nothing waits and no pass is active (70 R380). -/
theorem Inv.reset : Inv State.reset where
  params := paramsWf_defaults
  slots := ⟨rfl, rfl⟩
  lock := by decide
  chan := ⟨Nat.le_of_lt State.reset_channelHasRoom, fun _ hc => nomatch hc⟩
  next := State.nextFrame_reset ▸ .empty _
  cur := State.curFrame_reset ▸ .empty _
  curSetUp := State.curFrame_reset ▸ .empty
  nextSetUp := fun hw => nomatch hw
  buckets := fun ha => nomatch ha

end Sys2Proof.Machine
end

section
/-! SUPPORT. A "current" without polygons: no step but a swap gives it any, and a pass over it has empty buckets, whose lines change
nothing but the cursor (45 R300, R310, 70 R381). -/

namespace Sys2Proof.Machine

/-- From matching selectors a step that is no swap keeps the polygons of "current", all but their bounds (10 R42, 45 R321). -/
theorem step_keepsCurPolys {s t : State} (hm : slotsMatch s) (h : step s = .next t) (hn : s.swapsNow = false) :
    t.curFrame.polys.map passFixed = s.curFrame.polys.map passFixed := by
  have hne : s.curSlot ≠ s.nextSlot := hm.2 ▸ SlotId.other_ne _
  obtain ⟨-, hcases⟩ := step_cases h
  rcases hcases with rfl | ⟨-, c, rest, -, -, rfl⟩ | ⟨-, e, -, rfl⟩ | ⟨ht, hw, hl, -⟩ | ⟨-, -, c, rest, -, hw, hx⟩ |
    ⟨-, r, rest, hd, hx⟩ | ⟨-, e, -, rfl⟩ | ⟨-, r, rest, hd, hx⟩
  · rfl
  · rfl
  · rfl
  · exact absurd ((State.swapsNow_iff s).mpr ⟨ht, hw, hl⟩) (by simp [hn])
  · have hcur := (execCommand_writesNextOnly (beq_iff_eq.mp hw) hx).curFrame hne
    rw [hcur]
    rfl
  · exact (execDisplay_writesBoundsOnly (decodeRequest_port hd) hx).polys
  · rfl
  · rcases execUnit_cases (decodeUnit_port hd) hx with ⟨_, rfl⟩ | ⟨_, rfl⟩ <;> rfl

/-- Without polygons there are no bounds to restore (45 R300). -/
theorem passBounds_nil (reinit : Bool) : passBounds reinit [] = .ok [] := by cases reinit <;> rfl

/-- A frame without polygons has a bucket for every line, each empty (45 R301). -/
theorem buildBuckets_noPolys (vs : List Vertex) :
    buildBuckets { verts := vs, polys := [] } = .ok (List.replicate Config.dispH []) := by
  rw [buildBuckets_of_rows (rows := []) rfl]
  simp [bucketFrom]

/-- The pass over a "current" without polygons begins with empty buckets (45 R300, R301). -/
theorem beginPass_noPolys {s : State} (h : s.curFrame.polys = []) :
    beginPass s = .next { s.setCurFrame { s.curFrame with polys := [] } with
      bk := some (List.replicate Config.dispH []), lock := .display, dpass := { active := true, line := 0 } } := by
  simp only [beginPass, h, passBounds_nil, buildBuckets_noPolys]

/-- A line of the display finds its bucket empty when all are (45 R301). -/
theorem bucketOf_replicate {n y : Nat} (h : y < n) : bucketOf (some (List.replicate n [])) y = .ok [] := by
  simp [bucketOf, h]

@[simp] theorem Memory.setSlot_slot (m : Memory) (k : SlotId) : m.setSlot k (m.slot k) = m := by cases k <;> rfl

/-- Writing the polygons of "current" back changes nothing. -/
@[simp] theorem State.setCurFrame_samePolys (s : State) : s.setCurFrame { s.curFrame with polys := s.curFrame.polys } = s := by
  change { s with mem := s.mem.setSlot s.curSlot (s.mem.slot s.curSlot) } = s
  rw [Memory.setSlot_slot]

@[simp] theorem State.emit_nil (s : State) : s.emit [] = s := by simp [State.emit]

/-- A line whose bucket is empty is answered without events and moves the cursor on, and nothing else (45 R310). -/
theorem yieldLine_of_emptyBucket {s : State} (h : bucketOf s.bk s.dpass.line = .ok []) :
    yieldLine s =
      .next ({ s with dpass := { active := s.dpass.active, line := s.dpass.line + 1 } }.answer (.line s.dpass.line [])) := by
  simp only [yieldLine, h, fillLine, State.setCurFrame_samePolys, State.emit_nil]

end Sys2Proof.Machine
end

section
/-! CERTIFICATE. The statements of the family of reset and hazards (70 R380, R381) settled. -/

namespace Sys2Proof.Machine

/-- Settles O47: the empty frame of reset, the frame of a step that is no swap, and the empty pass's first state and lines. -/
theorem passBeforeFirstSwapIsEmpty : Obligations.PassBeforeFirstSwapIsEmpty := by
  refine ⟨?_, fun s t hm he hx => ?_, fun s hs ha hl he => ?_, fun s hs ha hlt hbk => ?_⟩
  · exact congrArg Slot.polys State.curFrame_reset
  · cases hn : s.swapsNow with
    | true => exact .inl rfl
    | false =>
      have hkept := step_keepsCurPolys hm hx hn
      rw [he, List.map_nil, List.map_eq_nil_iff] at hkept
      exact .inr hkept
  · exact ⟨_, (execBeginFrame_of_free hs ha hl).trans (beginPass_noPolys he), rfl,
      congrArg Slot.polys (State.curFrame_setCurFrame s _), rfl⟩
  · have hempty : bucketOf s.bk s.dpass.line = .ok [] := by rw [hbk, bucketOf_replicate hlt]
    have hyield := (execNextLine_of_active hs ha).trans (if_neg (Nat.ne_of_lt hlt))
    exact ⟨_, hyield.trans (yieldLine_of_emptyBucket hempty), rfl, rfl, rfl, rfl, congrArg (DPass.mk · _) ha⟩

/-- Settles O46: each field of the reset state, the frames being empty and the channel having room. -/
theorem resetValues : Obligations.ResetValues :=
  ⟨rfl, rfl, rfl, rfl, rfl, rfl, fun k => State.slot_reset k ▸ ⟨rfl, rfl⟩, rfl, rfl, rfl, rfl, rfl, rfl,
    State.reset_channelHasRoom, rfl⟩

/-- Settles O48: the invariant's base case. -/
theorem resetMeetsTheInvariant : Obligations.ResetMeetsTheInvariant := Inv.reset

end Sys2Proof.Machine
end

section
/-! SUPPORT. What the decoders and the producer do with a packet that is not complete (30 R121). -/

namespace Sys2Proof

/-- A port's decoder waits while no word is there (30 R121). -/
theorem decode_nil (p : Port) : decode p [] = .incomplete := by cases p <;> rfl

/-- A proper prefix of an instruction's words makes the decoder of its port wait (30 R121): without the header there is no word;
with it, the number of operand words the header asks for is not reached. -/
theorem decode_take_encode (i : Instr) {k : Nat} (hk : k < (encode i).length) :
    decode i.port ((encode i).take k) = .incomplete := by
  cases k with
  | zero => exact decode_nil _
  | succ n =>
    cases i with
    | swapBuffers | beginFrame | nextLine | endFrame => exact absurd (Nat.lt_of_succ_lt_succ hk) (Nat.not_lt_zero n)
    | setViewport | vertex =>
      have hn : n < 4 := Nat.lt_of_succ_lt_succ hk
      interval_cases n <;> rfl
    | polygon =>
      have hn : n < 5 := Nat.lt_of_succ_lt_succ hk
      interval_cases n <;> rfl
    | _ =>
      have hn : n < 2 := Nat.lt_of_succ_lt_succ hk
      interval_cases n <;> rfl

namespace Machine

/-- A producer whose packet is not complete holds (30 R121, log 16). -/
theorem producerTurn_incomplete {s : State} (hd : decode .cmd s.io.cmdIn = .incomplete) : producerTurn s = .next s := by
  rw [producerTurn, hd]

end Machine

end Sys2Proof
end

section
/-! CERTIFICATE. The statement about a stream that ends inside a packet (30 R121) settled. -/

namespace Sys2Proof.Machine

/-- Settles O7: the command decoder waits on a proper prefix of a command's words, so the producer's turn is a hold. -/
theorem incompletePacketWaits : Obligations.IncompletePacketWaits := by
  intro s i k hf ht hp hk hin
  have hd : decode .cmd s.io.cmdIn = .incomplete := by
    rw [hin, ← hp]
    exact decode_take_encode i hk
  exact (step_of_turn hf ht).trans (producerTurn_incomplete (s := s.beginStep) hd)

end Sys2Proof.Machine
end
